-- ==== Sys2Proof/Word.lean ====
section
/-! DEFINITION. The word types of the ARM7TDMI (10_state.md R20: registers are 32 bits wide; 30_encoding.md
R70: instructions are 4 or 2 bytes). All register and address arithmetic is BitVec arithmetic, that is,
modulo 2^32 (00_scope.md R3, 92_eei_decisions.md D20). -/

namespace Sys2Proof

/-- A register value, an address or an ARM instruction. -/
abbrev Word := BitVec 32

/-- A Thumb instruction. -/
abbrev Half := BitVec 16

/-- The unit of memory. -/
abbrev Byte := BitVec 8

/-- A register number, 0 to 15 (10_state.md R20). -/
abbrev RegNum := BitVec 4

/-- An address is a multiple of `n` (20_memory.md R53). -/
abbrev AlignedTo (n : Nat) (a : Word) : Prop := a.toNat % n = 0

end Sys2Proof
end

