-- ==== Sys2Proof/Machine/Bytes.lean ====
section
/-! DEFINITION. Bit fields and byte order: how a word is put together from fields (00_scope.md R3) and
from the bytes of memory (20_memory.md R52). -/

namespace Sys2Proof.Machine

/-- The word whose bits `lo` and up are the field `f` and whose other bits are 0. -/
def place {n : Nat} (f : BitVec n) (lo : Nat) : Word := f.setWidth 32 <<< lo

/-- The field of `n` bits of `w` from bit `lo` up (R3, `w[lo+n-1:lo]`). -/
def bitsAt {m : Nat} (w : BitVec m) (lo n : Nat) : BitVec n := w.extractLsb' lo n

/-- `v` as `n` bytes, the least significant first. -/
def littleBytes : Nat → Word → List Byte
  | 0, _ => []
  | n + 1, v => v.setWidth 8 :: littleBytes n (v >>> 8)

/-- The word whose bytes, the least significant first, are `bs`. -/
def ofLittleBytes : List Byte → Word
  | [] => 0#32
  | b :: bs => b.setWidth 32 ||| (ofLittleBytes bs <<< 8)

/-- `v` as `n` bytes in the order of rising addresses (R52). -/
def toBytes (bigEndian : Bool) (n : Nat) (v : Word) : List Byte :=
  if bigEndian then (littleBytes n v).reverse else littleBytes n v

/-- The value, zero-extended, of bytes in the order of rising addresses (R52). -/
def ofBytes (bigEndian : Bool) (bs : List Byte) : Word :=
  ofLittleBytes (if bigEndian then bs.reverse else bs)

/-- `ROR(v, n)` (R3). -/
def ror (v : Word) (n : Nat) : Word := v.rotateRight n

end Sys2Proof.Machine
end

