-- ==== Sys2Proof/Syntax.lean ====
section
/-! DEFINITION. The instructions: one constructor of `Instr` for each of the 49 rows of
spec/opcode_table.json, with the row's fields as arguments in the order of the row (30_encoding.md R72 to
R82). -/

namespace Sys2Proof

/-- The condition field (30_encoding.md R73). The reserved value 1111 is no condition; the decoder
refuses it. -/
inductive Cond where
  | eq | ne | cs | cc | mi | pl | vs | vc | hi | ls | ge | lt | gt | le | al
  deriving DecidableEq, Repr

/-- The shift of a register offset (30_encoding.md R77, bits 6:5). -/
inductive ShiftType where
  | lsl | lsr | asr | ror
  deriving DecidableEq, Repr

inductive Instr where
  -- branches (R76, R100, R101)
  | b (c : Cond) (offset24 : BitVec 24)
  | bl (c : Cond) (offset24 : BitVec 24)
  -- software interrupt and undefined instruction (R80, R83, R125, R128)
  | swi (c : Cond) (comment24 : BitVec 24)
  | udef (c : Cond) (anyA : BitVec 20) (anyB : BitVec 4)
  -- single data transfers (R77, R110 to R114)
  | ldrImmPre (c : Cond) (u w : Bool) (rn rd : RegNum) (imm12 : BitVec 12)
  | ldrImmPost (c : Cond) (u : Bool) (rn rd : RegNum) (imm12 : BitVec 12)
  | ldrRegPre (c : Cond) (u w : Bool) (rn rd : RegNum) (shiftImm : BitVec 5) (shift : ShiftType) (rm : RegNum)
  | ldrRegPost (c : Cond) (u : Bool) (rn rd : RegNum) (shiftImm : BitVec 5) (shift : ShiftType) (rm : RegNum)
  | ldrbImmPre (c : Cond) (u w : Bool) (rn rd : RegNum) (imm12 : BitVec 12)
  | ldrbImmPost (c : Cond) (u : Bool) (rn rd : RegNum) (imm12 : BitVec 12)
  | ldrbRegPre (c : Cond) (u w : Bool) (rn rd : RegNum) (shiftImm : BitVec 5) (shift : ShiftType) (rm : RegNum)
  | ldrbRegPost (c : Cond) (u : Bool) (rn rd : RegNum) (shiftImm : BitVec 5) (shift : ShiftType) (rm : RegNum)
  | strImmPre (c : Cond) (u w : Bool) (rn rd : RegNum) (imm12 : BitVec 12)
  | strImmPost (c : Cond) (u : Bool) (rn rd : RegNum) (imm12 : BitVec 12)
  | strRegPre (c : Cond) (u w : Bool) (rn rd : RegNum) (shiftImm : BitVec 5) (shift : ShiftType) (rm : RegNum)
  | strRegPost (c : Cond) (u : Bool) (rn rd : RegNum) (shiftImm : BitVec 5) (shift : ShiftType) (rm : RegNum)
  | strbImmPre (c : Cond) (u w : Bool) (rn rd : RegNum) (imm12 : BitVec 12)
  | strbImmPost (c : Cond) (u : Bool) (rn rd : RegNum) (imm12 : BitVec 12)
  | strbRegPre (c : Cond) (u w : Bool) (rn rd : RegNum) (shiftImm : BitVec 5) (shift : ShiftType) (rm : RegNum)
  | strbRegPost (c : Cond) (u : Bool) (rn rd : RegNum) (shiftImm : BitVec 5) (shift : ShiftType) (rm : RegNum)
  -- block data transfers (R78, R117 to R120)
  | ldm (c : Cond) (p u s w : Bool) (rn : RegNum) (registerList : BitVec 16)
  | stm (c : Cond) (p u s w : Bool) (rn : RegNum) (registerList : BitVec 16)
  -- swaps (R79, R115, R116)
  | swp (c : Cond) (rn rd rm : RegNum)
  | swpb (c : Cond) (rn rd rm : RegNum)
  -- coprocessor instructions (R80, R129, R130)
  | cdp (c : Cond) (cpOpc crn crd cpNum : BitVec 4) (cp : BitVec 3) (crm : BitVec 4)
  | mrc (c : Cond) (cpOpc : BitVec 3) (crn : BitVec 4) (rd : RegNum) (cpNum : BitVec 4) (cp : BitVec 3) (crm : BitVec 4)
  | mcr (c : Cond) (cpOpc : BitVec 3) (crn : BitVec 4) (rd : RegNum) (cpNum : BitVec 4) (cp : BitVec 3) (crm : BitVec 4)
  | ldc (c : Cond) (p u n w : Bool) (rn : RegNum) (crd cpNum : BitVec 4) (offset8 : BitVec 8)
  | stc (c : Cond) (p u n w : Bool) (rn : RegNum) (crd cpNum : BitVec 4) (offset8 : BitVec 8)
  -- status register transfers (R81, R135, R136)
  | mrs (c : Cond) (r : Bool) (rd : RegNum)
  | msrReg (c : Cond) (r : Bool) (fieldMask : BitVec 4) (rm : RegNum)
  | msrImm (c : Cond) (r : Bool) (fieldMask rot : BitVec 4) (imm8 : BitVec 8)
  -- MOV and SUB (R74, R75, R90 to R92)
  | movReg (c : Cond) (rnIgnored rd rm : RegNum)
  | movsReg (c : Cond) (rnIgnored rd rm : RegNum)
  | movImm (c : Cond) (rnIgnored rd : RegNum) (rot : BitVec 4) (imm8 : BitVec 8)
  | movsImm (c : Cond) (rnIgnored rd : RegNum) (rot : BitVec 4) (imm8 : BitVec 8)
  | subReg (c : Cond) (rn rd rm : RegNum)
  | subsReg (c : Cond) (rn rd rm : RegNum)
  | subImm (c : Cond) (rn rd : RegNum) (rot : BitVec 4) (imm8 : BitVec 8)
  | subsImm (c : Cond) (rn rd : RegNum) (rot : BitVec 4) (imm8 : BitVec 8)
  -- the rows marked special_case_of: the instructions the source writes out (R93 to R96, R114)
  | movPcR14 (c : Cond)
  | movsPcR14 (c : Cond)
  | subsPcR14Imm4 (c : Cond)
  | subsPcR14Imm8 (c : Cond)
  | ldrRdR14Minus8 (c : Cond) (rd : RegNum)
  -- Thumb state (R82, R93, R102, R103, R126)
  | thumbSwi (imm8 : BitVec 8)
  | thumbBlFirst (offsetHi : BitVec 11)
  | thumbBlSecond (offsetLo : BitVec 11)
  | thumbMovPcR14
  deriving DecidableEq, Repr

end Sys2Proof
end

