-- ==== Sys2Proof/WellFormed.lean ====
section
/-! DEFINITION. Well-formed instructions. Every operand has the width of its field, so every value of it
has an encoding; what is left to check is that a word has ONE spelling. The table lists five instructions
the source writes out beside the general rows they are special cases of (30_encoding.md R86, the key
`special_case_of`); their words belong to the special constructor, so the general constructor with those
operands is not well formed (log 13). -/

namespace Sys2Proof

/-- `MOV PC, R14` or `MOVS PC, R14` spelt as a general register move (40_exception_return.md R93, R94). -/
def spellsMovPcR14 (rnIgnored rd rm : RegNum) : Bool :=
  rnIgnored == 0#4 && rd == 15#4 && rm == 14#4

/-- `SUBS PC, R14, #4` or `#8` spelt as a general immediate subtraction (40_exception_return.md R95, R96). -/
def spellsSubsPcR14 (rn rd rot : BitVec 4) (imm8 : BitVec 8) : Bool :=
  rn == 14#4 && rd == 15#4 && rot == 0#4 && (imm8 == 4#8 || imm8 == 8#8)

/-- `LDR Rd, [R14, #-8]` spelt as a general load (42_data_transfer.md R114). -/
def spellsLdrR14Minus8 (u w : Bool) (rn : RegNum) (imm12 : BitVec 12) : Bool :=
  !u && !w && rn == 14#4 && imm12 == 8#12

/-- An instruction is the one spelling of its word. -/
def Instr.wellFormed : Instr → Bool
  | .movReg _ rn rd rm => !spellsMovPcR14 rn rd rm
  | .movsReg _ rn rd rm => !spellsMovPcR14 rn rd rm
  | .subsImm _ rn rd rot imm8 => !spellsSubsPcR14 rn rd rot imm8
  | .ldrImmPre _ u w rn _ imm12 => !spellsLdrR14Minus8 u w rn imm12
  | .b .. | .bl .. | .swi .. | .udef .. => true
  | .ldrImmPost .. | .ldrRegPre .. | .ldrRegPost .. => true
  | .ldrbImmPre .. | .ldrbImmPost .. | .ldrbRegPre .. | .ldrbRegPost .. => true
  | .strImmPre .. | .strImmPost .. | .strRegPre .. | .strRegPost .. => true
  | .strbImmPre .. | .strbImmPost .. | .strbRegPre .. | .strbRegPost .. => true
  | .ldm .. | .stm .. | .swp .. | .swpb .. => true
  | .cdp .. | .mrc .. | .mcr .. | .ldc .. | .stc .. => true
  | .mrs .. | .msrReg .. | .msrImm .. => true
  | .movImm .. | .movsImm .. | .subReg .. | .subsReg .. | .subImm .. => true
  | .movPcR14 .. | .movsPcR14 .. | .subsPcR14Imm4 .. | .subsPcR14Imm8 .. | .ldrRdR14Minus8 .. => true
  | .thumbSwi .. | .thumbBlFirst .. | .thumbBlSecond .. | .thumbMovPcR14 => true

end Sys2Proof
end

