-- ==== Sys2Proof/Decode.lean ====
section
/-! DEFINITION. The decoder and the encoder (30_encoding.md). The decoder walks the rows of
spec/opcode_table.json, each a mask, a match and the fields it reads; the encoder puts an instruction
together from the formats of R74 to R82. The two are written from different places of the spec. -/

namespace Sys2Proof

open Machine (place bitsAt toBytes ofBytes)

/-! ## Fields -/

/-- The condition field (R73). -/
def Cond.bits : Cond → BitVec 4
  | .eq => 0b0000#4 | .ne => 0b0001#4 | .cs => 0b0010#4 | .cc => 0b0011#4
  | .mi => 0b0100#4 | .pl => 0b0101#4 | .vs => 0b0110#4 | .vc => 0b0111#4
  | .hi => 0b1000#4 | .ls => 0b1001#4 | .ge => 0b1010#4 | .lt => 0b1011#4
  | .gt => 0b1100#4 | .le => 0b1101#4 | .al => 0b1110#4

/-- The condition a field names; 1111 names none (R73). -/
def Cond.ofBits (f : BitVec 4) : Option Cond :=
  if f = 0b0000#4 then some .eq else if f = 0b0001#4 then some .ne
  else if f = 0b0010#4 then some .cs else if f = 0b0011#4 then some .cc
  else if f = 0b0100#4 then some .mi else if f = 0b0101#4 then some .pl
  else if f = 0b0110#4 then some .vs else if f = 0b0111#4 then some .vc
  else if f = 0b1000#4 then some .hi else if f = 0b1001#4 then some .ls
  else if f = 0b1010#4 then some .ge else if f = 0b1011#4 then some .lt
  else if f = 0b1100#4 then some .gt else if f = 0b1101#4 then some .le
  else if f = 0b1110#4 then some .al else none

/-- The shift field (R77). -/
def ShiftType.bits : ShiftType → BitVec 2
  | .lsl => 0b00#2 | .lsr => 0b01#2 | .asr => 0b10#2 | .ror => 0b11#2

def ShiftType.ofBits (f : BitVec 2) : ShiftType :=
  if f = 0b00#2 then .lsl else if f = 0b01#2 then .lsr else if f = 0b10#2 then .asr else .ror

/-! ## The opcode table -/

/-- A row of the ARM part of spec/opcode_table.json: a word belongs to it when its bits under `mask` are
those of `bits` (the table's `match`); `build` reads the row's fields. The condition is tested first
(R86), so it is an argument. -/
structure ArmRow where
  mask : Word
  bits : Word
  build : Cond → Word → Instr

def ArmRow.hits (r : ArmRow) (w : Word) : Bool := w &&& r.mask == r.bits

def rnOf (w : Word) : RegNum := bitsAt w 16 4
def rdOf (w : Word) : RegNum := bitsAt w 12 4
def rmOf (w : Word) : RegNum := bitsAt w 0 4
def bitOf (w : Word) (i : Nat) : Bool := w.getLsbD i
def shiftOf (w : Word) : ShiftType := .ofBits (bitsAt w 5 2)

/-- The rows of the instructions the source writes out, each a special case of a general row (log 13). -/
def specialRows : List ArmRow :=
  [ ⟨0x0FFFFFFF#32, 0x01A0F00E#32, fun c _ => .movPcR14 c⟩,
    ⟨0x0FFFFFFF#32, 0x01B0F00E#32, fun c _ => .movsPcR14 c⟩,
    ⟨0x0FFFFFFF#32, 0x025EF004#32, fun c _ => .subsPcR14Imm4 c⟩,
    ⟨0x0FFFFFFF#32, 0x025EF008#32, fun c _ => .subsPcR14Imm8 c⟩,
    ⟨0x0FFF0FFF#32, 0x051E0008#32, fun c w => .ldrRdR14Minus8 c (rdOf w)⟩ ]

def branchAndTrapRows : List ArmRow :=
  [ ⟨0x0F000000#32, 0x0A000000#32, fun c w => .b c (bitsAt w 0 24)⟩,
    ⟨0x0F000000#32, 0x0B000000#32, fun c w => .bl c (bitsAt w 0 24)⟩,
    ⟨0x0F000000#32, 0x0F000000#32, fun c w => .swi c (bitsAt w 0 24)⟩,
    ⟨0x0E000010#32, 0x06000010#32, fun c w => .udef c (bitsAt w 5 20) (bitsAt w 0 4)⟩ ]

def loadRows : List ArmRow :=
  [ ⟨0x0F500000#32, 0x05100000#32, fun c w => .ldrImmPre c (bitOf w 23) (bitOf w 21) (rnOf w) (rdOf w) (bitsAt w 0 12)⟩,
    ⟨0x0F700000#32, 0x04100000#32, fun c w => .ldrImmPost c (bitOf w 23) (rnOf w) (rdOf w) (bitsAt w 0 12)⟩,
    ⟨0x0F500010#32, 0x07100000#32, fun c w =>
      .ldrRegPre c (bitOf w 23) (bitOf w 21) (rnOf w) (rdOf w) (bitsAt w 7 5) (shiftOf w) (rmOf w)⟩,
    ⟨0x0F700010#32, 0x06100000#32, fun c w =>
      .ldrRegPost c (bitOf w 23) (rnOf w) (rdOf w) (bitsAt w 7 5) (shiftOf w) (rmOf w)⟩,
    ⟨0x0F500000#32, 0x05500000#32, fun c w => .ldrbImmPre c (bitOf w 23) (bitOf w 21) (rnOf w) (rdOf w) (bitsAt w 0 12)⟩,
    ⟨0x0F700000#32, 0x04500000#32, fun c w => .ldrbImmPost c (bitOf w 23) (rnOf w) (rdOf w) (bitsAt w 0 12)⟩,
    ⟨0x0F500010#32, 0x07500000#32, fun c w =>
      .ldrbRegPre c (bitOf w 23) (bitOf w 21) (rnOf w) (rdOf w) (bitsAt w 7 5) (shiftOf w) (rmOf w)⟩,
    ⟨0x0F700010#32, 0x06500000#32, fun c w =>
      .ldrbRegPost c (bitOf w 23) (rnOf w) (rdOf w) (bitsAt w 7 5) (shiftOf w) (rmOf w)⟩ ]

def storeRows : List ArmRow :=
  [ ⟨0x0F500000#32, 0x05000000#32, fun c w => .strImmPre c (bitOf w 23) (bitOf w 21) (rnOf w) (rdOf w) (bitsAt w 0 12)⟩,
    ⟨0x0F700000#32, 0x04000000#32, fun c w => .strImmPost c (bitOf w 23) (rnOf w) (rdOf w) (bitsAt w 0 12)⟩,
    ⟨0x0F500010#32, 0x07000000#32, fun c w =>
      .strRegPre c (bitOf w 23) (bitOf w 21) (rnOf w) (rdOf w) (bitsAt w 7 5) (shiftOf w) (rmOf w)⟩,
    ⟨0x0F700010#32, 0x06000000#32, fun c w =>
      .strRegPost c (bitOf w 23) (rnOf w) (rdOf w) (bitsAt w 7 5) (shiftOf w) (rmOf w)⟩,
    ⟨0x0F500000#32, 0x05400000#32, fun c w => .strbImmPre c (bitOf w 23) (bitOf w 21) (rnOf w) (rdOf w) (bitsAt w 0 12)⟩,
    ⟨0x0F700000#32, 0x04400000#32, fun c w => .strbImmPost c (bitOf w 23) (rnOf w) (rdOf w) (bitsAt w 0 12)⟩,
    ⟨0x0F500010#32, 0x07400000#32, fun c w =>
      .strbRegPre c (bitOf w 23) (bitOf w 21) (rnOf w) (rdOf w) (bitsAt w 7 5) (shiftOf w) (rmOf w)⟩,
    ⟨0x0F700010#32, 0x06400000#32, fun c w =>
      .strbRegPost c (bitOf w 23) (rnOf w) (rdOf w) (bitsAt w 7 5) (shiftOf w) (rmOf w)⟩ ]

def blockAndSwapRows : List ArmRow :=
  [ ⟨0x0E100000#32, 0x08100000#32, fun c w =>
      .ldm c (bitOf w 24) (bitOf w 23) (bitOf w 22) (bitOf w 21) (rnOf w) (bitsAt w 0 16)⟩,
    ⟨0x0E100000#32, 0x08000000#32, fun c w =>
      .stm c (bitOf w 24) (bitOf w 23) (bitOf w 22) (bitOf w 21) (rnOf w) (bitsAt w 0 16)⟩,
    ⟨0x0FF00FF0#32, 0x01000090#32, fun c w => .swp c (rnOf w) (rdOf w) (rmOf w)⟩,
    ⟨0x0FF00FF0#32, 0x01400090#32, fun c w => .swpb c (rnOf w) (rdOf w) (rmOf w)⟩ ]

def coprocessorRows : List ArmRow :=
  [ ⟨0x0F000010#32, 0x0E000000#32, fun c w =>
      .cdp c (bitsAt w 20 4) (bitsAt w 16 4) (bitsAt w 12 4) (bitsAt w 8 4) (bitsAt w 5 3) (bitsAt w 0 4)⟩,
    ⟨0x0F100010#32, 0x0E100010#32, fun c w =>
      .mrc c (bitsAt w 21 3) (bitsAt w 16 4) (bitsAt w 12 4) (bitsAt w 8 4) (bitsAt w 5 3) (bitsAt w 0 4)⟩,
    ⟨0x0F100010#32, 0x0E000010#32, fun c w =>
      .mcr c (bitsAt w 21 3) (bitsAt w 16 4) (bitsAt w 12 4) (bitsAt w 8 4) (bitsAt w 5 3) (bitsAt w 0 4)⟩,
    ⟨0x0E100000#32, 0x0C100000#32, fun c w =>
      .ldc c (bitOf w 24) (bitOf w 23) (bitOf w 22) (bitOf w 21) (rnOf w) (bitsAt w 12 4) (bitsAt w 8 4) (bitsAt w 0 8)⟩,
    ⟨0x0E100000#32, 0x0C000000#32, fun c w =>
      .stc c (bitOf w 24) (bitOf w 23) (bitOf w 22) (bitOf w 21) (rnOf w) (bitsAt w 12 4) (bitsAt w 8 4) (bitsAt w 0 8)⟩ ]

def statusRows : List ArmRow :=
  [ ⟨0x0FBF0FFF#32, 0x010F0000#32, fun c w => .mrs c (bitOf w 22) (rdOf w)⟩,
    ⟨0x0FB0FFF0#32, 0x0120F000#32, fun c w => .msrReg c (bitOf w 22) (bitsAt w 16 4) (rmOf w)⟩,
    ⟨0x0FB0F000#32, 0x0320F000#32, fun c w => .msrImm c (bitOf w 22) (bitsAt w 16 4) (bitsAt w 8 4) (bitsAt w 0 8)⟩ ]

def dataRows : List ArmRow :=
  [ ⟨0x0FF00FF0#32, 0x01A00000#32, fun c w => .movReg c (rnOf w) (rdOf w) (rmOf w)⟩,
    ⟨0x0FF00FF0#32, 0x01B00000#32, fun c w => .movsReg c (rnOf w) (rdOf w) (rmOf w)⟩,
    ⟨0x0FF00000#32, 0x03A00000#32, fun c w => .movImm c (rnOf w) (rdOf w) (bitsAt w 8 4) (bitsAt w 0 8)⟩,
    ⟨0x0FF00000#32, 0x03B00000#32, fun c w => .movsImm c (rnOf w) (rdOf w) (bitsAt w 8 4) (bitsAt w 0 8)⟩,
    ⟨0x0FF00FF0#32, 0x00400000#32, fun c w => .subReg c (rnOf w) (rdOf w) (rmOf w)⟩,
    ⟨0x0FF00FF0#32, 0x00500000#32, fun c w => .subsReg c (rnOf w) (rdOf w) (rmOf w)⟩,
    ⟨0x0FF00000#32, 0x02400000#32, fun c w => .subImm c (rnOf w) (rdOf w) (bitsAt w 8 4) (bitsAt w 0 8)⟩,
    ⟨0x0FF00000#32, 0x02500000#32, fun c w => .subsImm c (rnOf w) (rdOf w) (bitsAt w 8 4) (bitsAt w 0 8)⟩ ]

/-- The 40 general ARM rows; at most one matches a word (R86). -/
def generalRows : List ArmRow :=
  branchAndTrapRows ++ loadRows ++ storeRows ++ blockAndSwapRows ++ coprocessorRows ++ statusRows ++ dataRows

/-! ## Decoding -/

/-- Why the decoder refuses bits by name. -/
inductive DecodeRefusal where
  /-- The condition field 1111 of an ARM instruction (R73, D13). -/
  | condNv
  /-- Fewer bytes than the instruction is long. -/
  | tooShort
  deriving DecidableEq, Repr

/-- The decoder's answer (R83: a row of the table, `ExecOther`, or a refusal). -/
inductive Decoded where
  | instr (i : Instr)
  /-- No row matches: the bits `w`, a halfword zero-extended, go to `ExecOther` under this condition (R86 step 10,
  45_other_instructions.md R140; a Thumb halfword has no condition, so `al`). -/
  | other (c : Cond) (w : Word)
  | refused (r : DecodeRefusal)
  deriving DecidableEq, Repr

/-- ARM state (R86). -/
def decodeArm (w : Word) : Decoded :=
  match Cond.ofBits (bitsAt w 28 4) with
  | none => .refused .condNv
  | some c =>
    match (specialRows ++ generalRows).find? (fun r => r.hits w) with
    | some r => .instr (r.build c w)
    | none => .other c w

/-- Thumb state (R82, R86). -/
def decodeThumb (h : Half) : Decoded :=
  if h &&& 0xFF00#16 = 0xDF00#16 then .instr (.thumbSwi (bitsAt h 0 8))
  else if h &&& 0xF800#16 = 0xF000#16 then .instr (.thumbBlFirst (bitsAt h 0 11))
  else if h &&& 0xF800#16 = 0xF800#16 then .instr (.thumbBlSecond (bitsAt h 0 11))
  else if h = 0x46F7#16 then .instr .thumbMovPcR14
  else .other .al (h.setWidth 32)

/-- An instruction's bits, in the state they belong to (R70, R71). -/
inductive Code where
  | arm (w : Word)
  | thumb (h : Half)
  deriving DecidableEq, Repr

def decode : Code → Decoded
  | .arm w => decodeArm w
  | .thumb h => decodeThumb h

/-- The decoder on bytes in the order of rising addresses, with the bytes left over: two bytes in Thumb
state, four in ARM state (R70, R71), in the byte order of 20_memory.md R52. -/
def decodeBytes (bigEndian thumb : Bool) (bs : List Byte) : Decoded × List Byte :=
  let n := if thumb then 2 else 4
  if bs.length < n then (.refused .tooShort, bs)
  else
    let v := ofBytes bigEndian (bs.take n)
    (decode (if thumb then .thumb (v.setWidth 16) else .arm v), bs.drop n)

/-- The host's question: the instruction read from a table row's bits. The rows have 16 bits (Thumb) or 32
(ARM); the bytes are laid out little-endian, as they would be in memory with `bigEndian = false`. -/
def decodeTableWord (nbits w : Nat) : Option Instr :=
  let thumb : Bool := decide (nbits ≤ 16)
  match (decodeBytes false thumb (toBytes false 4 (BitVec.ofNat 32 w))).1 with
  | .instr i => some i
  | _ => none

/-! ## Encoding -/

/-- A one-bit field. -/
def flagAt (b : Bool) (i : Nat) : Word := place (BitVec.ofBool b) i

/-- R76. -/
def encodeBranch (c : Cond) (l : Bool) (offset24 : BitVec 24) : Word :=
  place c.bits 28 ||| place 0b101#3 25 ||| flagAt l 24 ||| place offset24 0

/-- R77 with I = 0. -/
def encodeTransferImm (c : Cond) (p u b w l : Bool) (rn rd : RegNum) (imm12 : BitVec 12) : Word :=
  place c.bits 28 ||| place 0b01#2 26 ||| flagAt false 25 ||| flagAt p 24 ||| flagAt u 23 ||| flagAt b 22 |||
    flagAt w 21 ||| flagAt l 20 ||| place rn 16 ||| place rd 12 ||| place imm12 0

/-- R77 with I = 1. -/
def encodeTransferReg (c : Cond) (p u b w l : Bool) (rn rd : RegNum) (shiftImm : BitVec 5) (shift : ShiftType)
    (rm : RegNum) : Word :=
  place c.bits 28 ||| place 0b01#2 26 ||| flagAt true 25 ||| flagAt p 24 ||| flagAt u 23 ||| flagAt b 22 |||
    flagAt w 21 ||| flagAt l 20 ||| place rn 16 ||| place rd 12 ||| place shiftImm 7 ||| place shift.bits 5 |||
    place rm 0

/-- R78. -/
def encodeBlock (c : Cond) (p u s w l : Bool) (rn : RegNum) (registerList : BitVec 16) : Word :=
  place c.bits 28 ||| place 0b100#3 25 ||| flagAt p 24 ||| flagAt u 23 ||| flagAt s 22 ||| flagAt w 21 |||
    flagAt l 20 ||| place rn 16 ||| place registerList 0

/-- R79. -/
def encodeSwap (c : Cond) (b : Bool) (rn rd rm : RegNum) : Word :=
  place c.bits 28 ||| place 0b00010#5 23 ||| flagAt b 22 ||| place rn 16 ||| place rd 12 ||| place 0b1001#4 4 |||
    place rm 0

/-- R80, SWI. -/
def encodeSwi (c : Cond) (comment24 : BitVec 24) : Word :=
  place c.bits 28 ||| place 0b1111#4 24 ||| place comment24 0

/-- R83: cond 011, any 20 bits, bit 4 = 1, any 4 bits. -/
def encodeUdef (c : Cond) (anyA : BitVec 20) (anyB : BitVec 4) : Word :=
  place c.bits 28 ||| place 0b011#3 25 ||| place anyA 5 ||| flagAt true 4 ||| place anyB 0

/-- R80, CDP. -/
def encodeCdp (c : Cond) (cpOpc crn crd cpNum : BitVec 4) (cp : BitVec 3) (crm : BitVec 4) : Word :=
  place c.bits 28 ||| place 0b1110#4 24 ||| place cpOpc 20 ||| place crn 16 ||| place crd 12 ||| place cpNum 8 |||
    place cp 5 ||| flagAt false 4 ||| place crm 0

/-- R80, MRC (`l` set) and MCR. -/
def encodeCoprocReg (c : Cond) (l : Bool) (cpOpc : BitVec 3) (crn : BitVec 4) (rd : RegNum) (cpNum : BitVec 4)
    (cp : BitVec 3) (crm : BitVec 4) : Word :=
  place c.bits 28 ||| place 0b1110#4 24 ||| place cpOpc 21 ||| flagAt l 20 ||| place crn 16 ||| place rd 12 |||
    place cpNum 8 ||| place cp 5 ||| flagAt true 4 ||| place crm 0

/-- R80, LDC (`l` set) and STC. -/
def encodeCoprocTransfer (c : Cond) (p u n w l : Bool) (rn : RegNum) (crd cpNum : BitVec 4) (offset8 : BitVec 8) : Word :=
  place c.bits 28 ||| place 0b110#3 25 ||| flagAt p 24 ||| flagAt u 23 ||| flagAt n 22 ||| flagAt w 21 |||
    flagAt l 20 ||| place rn 16 ||| place crd 12 ||| place cpNum 8 ||| place offset8 0

/-- R81, MRS. -/
def encodeMrs (c : Cond) (r : Bool) (rd : RegNum) : Word :=
  place c.bits 28 ||| place 0b00010#5 23 ||| flagAt r 22 ||| place 0b001111#6 16 ||| place rd 12

/-- R81, MSR register. -/
def encodeMsrReg (c : Cond) (r : Bool) (fieldMask : BitVec 4) (rm : RegNum) : Word :=
  place c.bits 28 ||| place 0b00010#5 23 ||| flagAt r 22 ||| place 0b10#2 20 ||| place fieldMask 16 |||
    place 0b1111#4 12 ||| place rm 0

/-- R81, MSR immediate. -/
def encodeMsrImm (c : Cond) (r : Bool) (fieldMask rot : BitVec 4) (imm8 : BitVec 8) : Word :=
  place c.bits 28 ||| place 0b00110#5 23 ||| flagAt r 22 ||| place 0b10#2 20 ||| place fieldMask 16 |||
    place 0b1111#4 12 ||| place rot 8 ||| place imm8 0

/-- R74 with I = 0 and the unshifted register of R75. -/
def encodeDataReg (c : Cond) (opcode : BitVec 4) (s : Bool) (rn rd rm : RegNum) : Word :=
  place c.bits 28 ||| flagAt false 25 ||| place opcode 21 ||| flagAt s 20 ||| place rn 16 ||| place rd 12 |||
    place rm 0

/-- R74 with I = 1 and the immediate of R75. -/
def encodeDataImm (c : Cond) (opcode : BitVec 4) (s : Bool) (rn rd rot : BitVec 4) (imm8 : BitVec 8) : Word :=
  place c.bits 28 ||| flagAt true 25 ||| place opcode 21 ||| flagAt s 20 ||| place rn 16 ||| place rd 12 |||
    place rot 8 ||| place imm8 0

/-- The opcodes of R74. -/
def opcodeSub : BitVec 4 := 0b0010#4
def opcodeMov : BitVec 4 := 0b1101#4

/-- The bits of an instruction. The five special-case rows are encoded as the source's spelling says (R93
to R96, R114). -/
def encode : Instr → Code
  | .b c off => .arm (encodeBranch c false off)
  | .bl c off => .arm (encodeBranch c true off)
  | .swi c n => .arm (encodeSwi c n)
  | .udef c a b => .arm (encodeUdef c a b)
  | .ldrImmPre c u w rn rd imm => .arm (encodeTransferImm c true u false w true rn rd imm)
  | .ldrImmPost c u rn rd imm => .arm (encodeTransferImm c false u false false true rn rd imm)
  | .ldrRegPre c u w rn rd n t rm => .arm (encodeTransferReg c true u false w true rn rd n t rm)
  | .ldrRegPost c u rn rd n t rm => .arm (encodeTransferReg c false u false false true rn rd n t rm)
  | .ldrbImmPre c u w rn rd imm => .arm (encodeTransferImm c true u true w true rn rd imm)
  | .ldrbImmPost c u rn rd imm => .arm (encodeTransferImm c false u true false true rn rd imm)
  | .ldrbRegPre c u w rn rd n t rm => .arm (encodeTransferReg c true u true w true rn rd n t rm)
  | .ldrbRegPost c u rn rd n t rm => .arm (encodeTransferReg c false u true false true rn rd n t rm)
  | .strImmPre c u w rn rd imm => .arm (encodeTransferImm c true u false w false rn rd imm)
  | .strImmPost c u rn rd imm => .arm (encodeTransferImm c false u false false false rn rd imm)
  | .strRegPre c u w rn rd n t rm => .arm (encodeTransferReg c true u false w false rn rd n t rm)
  | .strRegPost c u rn rd n t rm => .arm (encodeTransferReg c false u false false false rn rd n t rm)
  | .strbImmPre c u w rn rd imm => .arm (encodeTransferImm c true u true w false rn rd imm)
  | .strbImmPost c u rn rd imm => .arm (encodeTransferImm c false u true false false rn rd imm)
  | .strbRegPre c u w rn rd n t rm => .arm (encodeTransferReg c true u true w false rn rd n t rm)
  | .strbRegPost c u rn rd n t rm => .arm (encodeTransferReg c false u true false false rn rd n t rm)
  | .ldm c p u s w rn l => .arm (encodeBlock c p u s w true rn l)
  | .stm c p u s w rn l => .arm (encodeBlock c p u s w false rn l)
  | .swp c rn rd rm => .arm (encodeSwap c false rn rd rm)
  | .swpb c rn rd rm => .arm (encodeSwap c true rn rd rm)
  | .cdp c opc crn crd cpNum cp crm => .arm (encodeCdp c opc crn crd cpNum cp crm)
  | .mrc c opc crn rd cpNum cp crm => .arm (encodeCoprocReg c true opc crn rd cpNum cp crm)
  | .mcr c opc crn rd cpNum cp crm => .arm (encodeCoprocReg c false opc crn rd cpNum cp crm)
  | .ldc c p u n w rn crd cpNum off => .arm (encodeCoprocTransfer c p u n w true rn crd cpNum off)
  | .stc c p u n w rn crd cpNum off => .arm (encodeCoprocTransfer c p u n w false rn crd cpNum off)
  | .mrs c r rd => .arm (encodeMrs c r rd)
  | .msrReg c r m rm => .arm (encodeMsrReg c r m rm)
  | .msrImm c r m rot imm => .arm (encodeMsrImm c r m rot imm)
  | .movReg c rn rd rm => .arm (encodeDataReg c opcodeMov false rn rd rm)
  | .movsReg c rn rd rm => .arm (encodeDataReg c opcodeMov true rn rd rm)
  | .movImm c rn rd rot imm => .arm (encodeDataImm c opcodeMov false rn rd rot imm)
  | .movsImm c rn rd rot imm => .arm (encodeDataImm c opcodeMov true rn rd rot imm)
  | .subReg c rn rd rm => .arm (encodeDataReg c opcodeSub false rn rd rm)
  | .subsReg c rn rd rm => .arm (encodeDataReg c opcodeSub true rn rd rm)
  | .subImm c rn rd rot imm => .arm (encodeDataImm c opcodeSub false rn rd rot imm)
  | .subsImm c rn rd rot imm => .arm (encodeDataImm c opcodeSub true rn rd rot imm)
  | .movPcR14 c => .arm (encodeDataReg c opcodeMov false 0#4 15#4 14#4)
  | .movsPcR14 c => .arm (encodeDataReg c opcodeMov true 0#4 15#4 14#4)
  | .subsPcR14Imm4 c => .arm (encodeDataImm c opcodeSub true 14#4 15#4 0#4 4#8)
  | .subsPcR14Imm8 c => .arm (encodeDataImm c opcodeSub true 14#4 15#4 0#4 8#8)
  | .ldrRdR14Minus8 c rd => .arm (encodeTransferImm c true false false false true 14#4 rd 8#12)
  | .thumbSwi imm => .thumb (0b11011111#8 ++ imm)
  | .thumbBlFirst off => .thumb (0b11110#5 ++ off)
  | .thumbBlSecond off => .thumb (0b11111#5 ++ off)
  | .thumbMovPcR14 => .thumb (0b010001#6 ++ 0b10#2 ++ 1#1 ++ 1#1 ++ 0b110#3 ++ 0b111#3)

end Sys2Proof
end

