-- ==== Sys2Proof/Config.lean ====
section
/-! DEFINITION. What is fixed for the machine: the free values, and the values the model names where the
spec gives none. The spec's own parameters (byte order, memory map, coprocessors, end of run) stand in
State as plain data, so that a statement about every state is a statement about every choice of them
(log 1). -/

namespace Sys2Proof.Config

/-- The `draw` of 00_scope.md R8, a word: a free value for each index. The index is the counter
`State.draws`, which every use advances (log 6). -/
opaque freeWord : Nat → Word

/-- The `draw` of 00_scope.md R8, a byte (log 6). -/
opaque freeByte : Nat → Byte

/-- The `draw` of 00_scope.md R8, one bit (log 6). -/
opaque freeBit : Nat → Bool

/-- What every general register holds at `State.reset`. DESIGN CHOICE (log 3), unsafe: the spec gives no
value and 10_state.md R39 forbids zero. -/
def resetRegister : Word := 0x00010000#32

/-- What the CPSR holds at `State.reset`. The low byte is 10_state.md R37; for the other bits R39 forbids zero, and
that each is 1 is DESIGN CHOICE (log 4), unsafe. -/
def resetPsr : Word := 0xFFFFFFD3#32

/-- What every SPSR holds at `State.reset`. DESIGN CHOICE (log 4), unsafe: 10_state.md R39 forbids zero, and each bit is
1, which makes its mode System, a legal one. -/
def resetSpsr : Word := 0xFFFFFFFF#32

/-- What a byte of memory that is not listed reads as. DESIGN CHOICE (log 5), unsafe. -/
def unlistedByte : Byte := 0#8

end Sys2Proof.Config
end

