-- ==== Sys2Proof/Machine/State.lean ====
section
/-! DEFINITION. The state of the machine as plain data, the reasons a step can stop, and the state after
reset (10_state.md). The core's own state is the register file, the pc, the CPSR, the SPSRs and memory; the
spec's parameters and inputs (00_scope.md section 5) are held beside it (log 1, 2). -/

namespace Sys2Proof.Machine

/-! ## Registers -/

/-- The modes an exception enters: those with an SPSR and an r13 and r14 of their own (10_state.md R28). -/
inductive ExcMode where
  | fiq | irq | svc | abt | und
  deriving DecidableEq, Repr

/-- A bank of registers: `none` is the one that User and System mode share (R22). -/
abbrev Bank := Option ExcMode

/-- The 30 physical general registers other than the pc (R21, R22). -/
inductive PhysReg where
  /-- r0 to r7 -/
  | low (i : Fin 8)
  /-- r8 to r12 of every mode but FIQ -/
  | mid (i : Fin 5)
  /-- r8_fiq to r12_fiq -/
  | midFiq (i : Fin 5)
  /-- r13 of a bank -/
  | sp (b : Bank)
  /-- r14 of a bank -/
  | lr (b : Bank)
  deriving DecidableEq, Repr

/-- One register per bank. -/
structure Banked where
  usr : Word
  fiq : Word
  irq : Word
  svc : Word
  abt : Word
  und : Word
  deriving DecidableEq, Repr

structure RegFile where
  low : Vector Word 8
  mid : Vector Word 5
  midFiq : Vector Word 5
  sp : Banked
  lr : Banked
  deriving DecidableEq, Repr

/-- The five saved program status registers (R29). -/
structure SpsrFile where
  fiq : Word
  irq : Word
  svc : Word
  abt : Word
  und : Word
  deriving DecidableEq, Repr

/-! ## Memory -/

/-- Bytes by address, in one canonical form (`Memory.wf`); an address that is not listed reads as
`Config.unlistedByte` (R38, log 5). -/
abbrev Memory := List Host.Cell

/-- The size of one access (20_memory.md R54). -/
inductive Width where
  | byte | half | word
  deriving DecidableEq, Repr

/-! ## The spec's parameters -/

/-- What an address holds (20_memory.md R64, 92_eei_decisions.md D3). -/
inductive RegionKind where
  /-- Ordinary memory. -/
  | memory
  /-- Ordinary memory that is not to be stored to (D16). -/
  | code
  /-- A device: reads answered by an oracle, writes recorded. -/
  | device
  /-- Neither memory nor device. -/
  | nothing
  deriving DecidableEq, Repr

/-- The addresses from `base` up to but not including `base + size`. -/
structure Region where
  base : Nat
  size : Nat
  kind : RegionKind
  deriving DecidableEq, Repr

/-- A set of coprocessor instructions: those whose bits under `mask` are `bits` (43 R130, log 11). -/
structure CoprocPattern where
  mask : Word
  bits : Word
  deriving DecidableEq, Repr

/-! ### `ExecOther` as plain data (45_other_instructions.md R140, R141, log 12)

The parameter is a function of the state, the word `w`, its address `A` and the T bit. It is held as a list of rules
over expressions, which `Machine/Other.lean` evaluates; the first rule that answers the instruction is its outcome. -/

/-- The operations of an expression; a comparison gives 1 or 0. -/
inductive OtherFn where
  | add | sub | mul
  /-- The high word of the unsigned product. -/
  | mulHigh
  | and | or | xor
  /-- Shifts by the low byte of the second operand, 32 and more included; `ror` rotates. -/
  | lsl | lsr | asr | ror
  | eq
  /-- Less than, unsigned and signed. -/
  | ult | slt
  deriving DecidableEq, Repr

/-- A value computed from the arguments of `ExecOther` and from the values its own reads have answered. -/
inductive OtherExpr where
  | const (v : Word)
  /-- `w`, a halfword zero-extended. -/
  | instr
  /-- `A`. -/
  | addr
  /-- `x[n]`, `n` being the low four bits of the operand (00_scope.md R4). -/
  | reg (n : OtherExpr)
  /-- A register of any mode. -/
  | phys (q : PhysReg)
  | cpsr
  /-- The SPSR of a mode. -/
  | spsr (m : ExcMode)
  /-- What the access at place `k` read; 0 if it read nothing. -/
  | loaded (k : Nat)
  | op (f : OtherFn) (x y : OtherExpr)
  /-- `x` if the condition is not 0, else `y`. -/
  | ite (c x y : OtherExpr)
  deriving DecidableEq, Repr

/-- A register an instruction writes: by its number in the current mode (15 names none), or of any mode. -/
inductive OtherReg where
  | current (n : OtherExpr)
  | phys (q : PhysReg)
  deriving DecidableEq, Repr

/-- A register written, if the guard is not 0. -/
structure OtherWrite where
  guard : OtherExpr
  reg : OtherReg
  value : OtherExpr
  deriving DecidableEq, Repr

/-- What an access does: a load, with the registers its data goes to, or a store. -/
inductive OtherTransfer where
  | load (writes : List OtherWrite)
  | store (value : OtherExpr)
  deriving DecidableEq, Repr

/-- A data access, made if the guard is not 0. -/
structure OtherAccess where
  guard : OtherExpr
  width : Width
  addr : OtherExpr
  transfer : OtherTransfer
  deriving DecidableEq, Repr

/-- What an instruction does. If every access completes it is `Next(state')`; if one aborts it is
`DataAbort(state')`. -/
structure OtherEffect where
  /-- The base register of the accesses; one that names no register for an instruction without a base. -/
  base : OtherReg
  /-- What write-back leaves in the base register, where it is specified. -/
  writeBack : Option OtherExpr
  /-- After an abort the base holds its original value although write-back is specified (R141 item 4 allows
  either). -/
  restoresBase : Bool
  accesses : List OtherAccess
  /-- Registers written when the instruction completes. -/
  regs : List OtherWrite
  cpsr : OtherExpr
  /-- The SPSR of the current mode, where it is written. -/
  spsr : Option OtherExpr
  pc : OtherExpr
  deriving DecidableEq, Repr

/-- An outcome of `ExecOther` (R140). -/
inductive OtherOutcome where
  | run (e : OtherEffect)
  | undefined
  | refuse (reason : String)
  deriving DecidableEq, Repr

/-- The outcome of the instructions of one state whose bits under `mask` are `bits`, if the guard is not 0. -/
structure OtherRule where
  thumb : Bool
  mask : Word
  bits : Word
  guard : OtherExpr
  outcome : OtherOutcome
  deriving DecidableEq, Repr

/-- The parameters fixed for a run (00_scope.md section 5). No step changes them (log 1). -/
structure Platform where
  /-- R52, D1. -/
  bigEndian : Bool
  /-- `MemMap` (D3): the first region that holds an address says what it is; an address no region holds
  is ordinary memory. -/
  memMap : List Region
  /-- `coprocAccepts` (D14). -/
  coproc : List CoprocPattern
  /-- `ExecOther` (D24); an instruction that no rule answers is refused, the default. -/
  execOther : List OtherRule
  /-- `haltAddr` (D18). -/
  haltAddr : Option Word
  deriving DecidableEq, Repr

/-! ## The spec's inputs -/

/-- The output of an interrupt synchroniser: LOW is a request (10_state.md R35). -/
inductive Level where
  | low | high
  deriving DecidableEq, Repr

/-- The answers of the environment that are still to come, the next one first (log 2). A list that has
run out answers with the spec's default (92_eei_decisions.md, the table of parameters). -/
structure Inputs where
  /-- `resetAsserted`, one per instruction boundary (D10); default false. -/
  reset : List Bool
  /-- `fiqSync`, one per instruction boundary (D8); default HIGH. -/
  fiq : List Level
  /-- `irqSync`, one per instruction boundary (D8); default HIGH. -/
  irq : List Level
  /-- The answers of `abortOracle`, one per memory access (D4); default no abort. -/
  aborts : List Bool
  deriving DecidableEq, Repr

/-- One write to a device (D3, "writes recorded"). -/
structure DeviceWrite where
  addr : Word
  width : Width
  value : Word
  deriving DecidableEq, Repr

/-! ## The state -/

structure State where
  regs : RegFile
  /-- The address of the instruction to execute (00_scope.md R4, 10_state.md R25). -/
  pc : Word
  cpsr : Word
  spsrs : SpsrFile
  mem : Memory
  /-- The writes devices have received, oldest first. -/
  deviceLog : List DeviceWrite
  platform : Platform
  inputs : Inputs
  /-- The MODEL's own field: the index of the next free value (log 6). -/
  draws : Nat
  deriving DecidableEq, Repr

/-! ## Why a step can stop -/

inductive Fault where
  /-- Raised by `step` when the next instruction is at `haltAddr`: the run ends, the state being its end
  state (70_reset_and_hazards.md R207, D18). Safe: the hardware goes on. -/
  | runEnded
  deriving DecidableEq, Repr

/-- The `refuse(...)` of the spec (00_scope.md R8). Every one is safe: the model says nothing of the run
from there on. -/
inductive Refusal where
  /-- Raised by `exec` for an instruction without a meaning. -/
  | notModelled (mnemonic : String)
  /-- Raised by the instruction cycle: condition field 1111 (R73, D13). -/
  | condNv
  /-- Raised by MemRead and MemWrite: a misaligned data access (R53, D2). -/
  | misaligned
  /-- Raised by every write of the pc and by the fetch: a misaligned instruction address (R26, D2). -/
  | misalignedPc
  /-- Raised by every access: neither memory nor device there, and no abort (R64, D3). -/
  | unmapped
  /-- Raised by the fetch: the address is a device's (R64, D3). -/
  | fetchFromDevice
  /-- Raised by MemWrite: the address is in a code region (R62, D16). -/
  | storeToCode
  /-- Raised by MRS, MSR and the status-restoring returns: the mode has no SPSR (R29, R97, D12). -/
  | noSpsr
  /-- Raised by MSR and the status-restoring returns: an illegal mode number for the CPSR (R28, D11). -/
  | illegalMode
  /-- Raised by MSR: the T bit would change (R136, D23). -/
  | msrChangesT
  /-- Raised by MSR: Rm is 15 (R136). -/
  | msrPc
  /-- Raised by MRS: Rd is 15 (R135). -/
  | mrsPc
  /-- Raised by LDR, LDRB, STR, STRB: write-back with Rn = 15 (R110). -/
  | writeBackToPc
  /-- Raised by LDR, LDRB, STR, STRB: the offset register is 15 (R110). -/
  | offsetPc
  /-- Raised by LDR, LDRB, STR, STRB: write-back with Rm = Rn (R110). -/
  | offsetIsBase
  /-- Raised by LDR, LDRB, STR, STRB: write-back with Rd = Rn (R110). -/
  | transferIsBase
  /-- Raised by LDRB: Rd is 15 (R111). -/
  | ldrbPc
  /-- Raised by STR and STRB: Rd is 15 (R112, `refuse(str_pc)`). -/
  | strPc
  /-- Raised by SWP and SWPB: an operand is register 15 (R115). -/
  | swpPc
  /-- Raised by LDM and STM: Rn is 15 (R117, R118). -/
  | blockBasePc
  /-- Raised by LDM and STM: the register list is empty (R117, R118). -/
  | blockEmptyList
  /-- Raised by LDM with W = 1 and Rn in the list, and by STM with W = 1 and Rn in the list but not its
  lowest register (R117, R118). -/
  | blockBaseInList
  /-- Raised by STM: register 15 is in the list (R118). -/
  | stmPc
  /-- Raised by LDM and STM: S = 1 in User or System mode (R117, R118). -/
  | blockUserBankMode
  /-- Raised by LDM with S = 1, W = 1 and no r15 in the list, and by STM with S = 1 and W = 1 (R117, R118). -/
  | blockUserBankWriteBack
  /-- Raised by CDP, MRC, MCR, LDC, STC that a coprocessor accepts (R130, D14). -/
  | coprocessorSemanticsUnmodelled
  /-- Raised by the default of `ExecOther`, when no rule answers the instruction (R141, D24). -/
  | instructionNotInSpec
  /-- Raised by an `ExecOther` that answers `Refuse(reason)` (R140, R141 item 6). -/
  | execOtherRefused (reason : String)
  /-- Raised when an outcome given for `ExecOther` breaks its contract (R141, log 12). -/
  | execOtherContract
  deriving DecidableEq, Repr

/-! ## Reset -/

/-- Every bank's register at the value the model names (log 3). -/
def Banked.atReset : Banked :=
  { usr := Config.resetRegister, fiq := Config.resetRegister, irq := Config.resetRegister,
    svc := Config.resetRegister, abt := Config.resetRegister, und := Config.resetRegister }

def RegFile.atReset : RegFile :=
  { low := Vector.replicate 8 Config.resetRegister
    mid := Vector.replicate 5 Config.resetRegister
    midFiq := Vector.replicate 5 Config.resetRegister
    sp := .atReset
    lr := .atReset }

def SpsrFile.atReset : SpsrFile :=
  { fiq := Config.resetSpsr, irq := Config.resetSpsr, svc := Config.resetSpsr,
    abt := Config.resetSpsr, und := Config.resetSpsr }

/-- The state after Reset (R37): pc 0, Supervisor mode, I and F set, ARM state. The rest is named in the
log: registers (log 3), the other bits of the CPSR and the SPSRs (log 4), memory (log 5), parameters and
inputs (log 1, 2), the counter of free values (log 6). -/
def State.reset : State where
  regs := .atReset
  pc := 0x00000000#32
  cpsr := Config.resetPsr
  spsrs := .atReset
  mem := []
  deviceLog := []
  platform := { bigEndian := false, memMap := [], coproc := [], execOther := [], haltAddr := none }
  inputs := { reset := [], fiq := [], irq := [], aborts := [] }
  draws := 0

end Sys2Proof.Machine
end

