-- ==== Sys2Proof/Machine/Flags.lean ====
section
/-! DEFINITION. The status registers: their fields, the modes, the condition test and every flag
computation (10_state.md R27 to R32, 30_encoding.md R73, 40_exception_return.md R91, R92). -/

namespace Sys2Proof.Machine

/-! ## Fields of a status register (R27) -/

def psrN (p : Word) : Bool := p.getLsbD 31
def psrZ (p : Word) : Bool := p.getLsbD 30
def psrC (p : Word) : Bool := p.getLsbD 29
def psrV (p : Word) : Bool := p.getLsbD 28
/-- IRQ disabled (R30). -/
def psrI (p : Word) : Bool := p.getLsbD 7
/-- FIQ disabled (R30). -/
def psrF (p : Word) : Bool := p.getLsbD 6
/-- Thumb state (R31). -/
def psrT (p : Word) : Bool := p.getLsbD 5
/-- The mode bits (R28). -/
def psrM (p : Word) : BitVec 5 := p.setWidth 5

/-- `p` with bit `i` set to `b`. -/
def withBit (p : Word) (i : Nat) (b : Bool) : Word :=
  if b then p ||| (1#32 <<< i) else p &&& ~~~(1#32 <<< i)

/-- `p` with the mode bits `m`. -/
def withMode (p : Word) (m : BitVec 5) : Word := (p &&& 0xFFFFFFE0#32) ||| m.setWidth 32

/-- `p` with the four condition flags. -/
def withNZCV (p : Word) (n z c v : Bool) : Word :=
  withBit (withBit (withBit (withBit p 31 n) 30 z) 29 c) 28 v

/-! ## Modes (R28) -/

/-- The seven modes. -/
inductive Mode where
  | usr | fiq | irq | svc | abt | und | sys
  deriving DecidableEq, Repr

def Mode.bits : Mode → BitVec 5
  | .usr => 0b10000#5 | .fiq => 0b10001#5 | .irq => 0b10010#5 | .svc => 0b10011#5
  | .abt => 0b10111#5 | .und => 0b11011#5 | .sys => 0b11111#5

/-- The mode a number names; the other values are illegal. -/
def Mode.ofBits (m : BitVec 5) : Option Mode :=
  if m = 0b10000#5 then some .usr else if m = 0b10001#5 then some .fiq
  else if m = 0b10010#5 then some .irq else if m = 0b10011#5 then some .svc
  else if m = 0b10111#5 then some .abt else if m = 0b11011#5 then some .und
  else if m = 0b11111#5 then some .sys else none

/-- The bank whose registers numbers 8 to 14 name, and whose SPSR "the SPSR" is (R22, R29). -/
def Mode.bank : Mode → Bank
  | .usr | .sys => none
  | .fiq => some .fiq | .irq => some .irq | .svc => some .svc | .abt => some .abt | .und => some .und

/-- The mode whose own bank this is. -/
def ExcMode.mode : ExcMode → Mode
  | .fiq => .fiq | .irq => .irq | .svc => .svc | .abt => .abt | .und => .und

def legalMode (p : Word) : Bool := (Mode.ofBits (psrM p)).isSome

/-- User mode, the one mode that is not privileged (60_exceptions.md R182). -/
def userMode (p : Word) : Bool := psrM p == Mode.usr.bits

/-- The bank in use. With an illegal mode number, which no run reaches, the User bank (log 18). -/
def bankOf (p : Word) : Bank := (Mode.ofBits (psrM p)).elim none Mode.bank

/-! ## Conditions (30_encoding.md R73) -/

def condPassed (c : Cond) (p : Word) : Bool :=
  match c with
  | .eq => psrZ p
  | .ne => !psrZ p
  | .cs => psrC p
  | .cc => !psrC p
  | .mi => psrN p
  | .pl => !psrN p
  | .vs => psrV p
  | .vc => !psrV p
  | .hi => psrC p && !psrZ p
  | .ls => !psrC p || psrZ p
  | .ge => psrN p == psrV p
  | .lt => psrN p != psrV p
  | .gt => !psrZ p && psrN p == psrV p
  | .le => psrZ p || psrN p != psrV p
  | .al => true

/-! ## Flag results -/

/-- MOVS (R91): N and Z from the value, C the shifter carry-out, V unchanged. -/
def movFlags (p value : Word) (carry : Bool) : Word :=
  withNZCV p (value.getLsbD 31) (value == 0#32) carry (psrV p)

/-- C of `a - b`: no borrow (R92). -/
def subCarry (a b : Word) : Bool := decide (b.toNat ≤ a.toNat)

/-- V of `a - b`: signed overflow (R92). -/
def subOverflow (a b : Word) : Bool :=
  a.getLsbD 31 != b.getLsbD 31 && (a - b).getLsbD 31 != a.getLsbD 31

/-- SUBS (R92). -/
def subFlags (p a b : Word) : Word :=
  withNZCV p ((a - b).getLsbD 31) (a - b == 0#32) (subCarry a b) (subOverflow a b)

/-- The bits an MSR's field mask selects (44_status_register_access.md R136). -/
def byteMask (m : BitVec 4) : Word :=
  (if m.getLsbD 0 then 0x000000FF#32 else 0#32) ||| (if m.getLsbD 1 then 0x0000FF00#32 else 0#32) |||
  (if m.getLsbD 2 then 0x00FF0000#32 else 0#32) ||| (if m.getLsbD 3 then 0xFF000000#32 else 0#32)

/-- `old` with the bits of `v` under `mask` (R136). -/
def mergeBits (mask old v : Word) : Word := (old &&& ~~~mask) ||| (v &&& mask)

end Sys2Proof.Machine
end

