-- ==== Sys2Proof/Machine/Ops.lean ====
section
/-! DEFINITION. The shared operations: registers by bank, memory and the three access primitives, writing
the pc, taking an exception and returning from one (10_state.md, 20_memory.md, 60_exceptions.md). -/

namespace Sys2Proof.Machine

/-- How a step, or an instruction, ends. -/
abbrev Result := Host.Outcome State Fault Refusal

/-! ## Physical registers -/

def Banked.get (r : Banked) : Bank → Word
  | none => r.usr
  | some .fiq => r.fiq
  | some .irq => r.irq
  | some .svc => r.svc
  | some .abt => r.abt
  | some .und => r.und

def Banked.set (r : Banked) (b : Bank) (v : Word) : Banked :=
  match b with
  | none => { r with usr := v }
  | some .fiq => { r with fiq := v }
  | some .irq => { r with irq := v }
  | some .svc => { r with svc := v }
  | some .abt => { r with abt := v }
  | some .und => { r with und := v }

def RegFile.get (r : RegFile) : PhysReg → Word
  | .low i => r.low[i]
  | .mid i => r.mid[i]
  | .midFiq i => r.midFiq[i]
  | .sp b => r.sp.get b
  | .lr b => r.lr.get b

def RegFile.set (r : RegFile) (p : PhysReg) (v : Word) : RegFile :=
  match p with
  | .low i => { r with low := r.low.set i v }
  | .mid i => { r with mid := r.mid.set i v }
  | .midFiq i => { r with midFiq := r.midFiq.set i v }
  | .sp b => { r with sp := r.sp.set b v }
  | .lr b => { r with lr := r.lr.set b v }

def SpsrFile.get (r : SpsrFile) : ExcMode → Word
  | .fiq => r.fiq
  | .irq => r.irq
  | .svc => r.svc
  | .abt => r.abt
  | .und => r.und

def SpsrFile.set (r : SpsrFile) (m : ExcMode) (v : Word) : SpsrFile :=
  match m with
  | .fiq => { r with fiq := v }
  | .irq => { r with irq := v }
  | .svc => { r with svc := v }
  | .abt => { r with abt := v }
  | .und => { r with und := v }

/-- The banking map (10_state.md R22): the physical register that number `n` names in a bank; number 15 is
the pc and names none. -/
def physReg (b : Bank) (n : RegNum) : Option PhysReg :=
  if h : n.toNat < 8 then some (.low ⟨n.toNat, h⟩)
  else if h : n.toNat < 13 then
    if b = some .fiq then some (.midFiq ⟨n.toNat - 8, by omega⟩) else some (.mid ⟨n.toNat - 8, by omega⟩)
  else if n.toNat = 13 then some (.sp b)
  else if n.toNat = 14 then some (.lr b)
  else none

/-! ## Registers by number -/

/-- The bank of the current mode. -/
def State.bank (s : State) : Bank := bankOf s.cpsr

/-- Thumb state (R31). -/
def State.thumb (s : State) : Bool := psrT s.cpsr

/-- What register 15 reads as: two instructions ahead (R25). -/
def State.pcOperand (s : State) : Word := s.pc + (if s.thumb then 4#32 else 8#32)

/-- Register `n` of a bank. -/
def State.readBank (s : State) (b : Bank) (n : RegNum) : Word :=
  match physReg b n with
  | some p => s.regs.get p
  | none => s.pcOperand

/-- Writes register `n` of a bank, 0 to 14; number 15 has no register to write here, the pc being written
by `setPc`. -/
def State.writeBank (s : State) (b : Bank) (n : RegNum) (v : Word) : State :=
  match physReg b n with
  | some p => { s with regs := s.regs.set p v }
  | none => s

/-- `x[n]` (00_scope.md R4). -/
def State.readReg (s : State) (n : RegNum) : Word := s.readBank s.bank n

/-- `x[n] <- v` (00_scope.md R4). -/
def State.writeReg (s : State) (n : RegNum) (v : Word) : State := s.writeBank s.bank n v

/-- "The SPSR": that of the current mode, if it has one (R29). -/
def State.spsr? (s : State) : Option Word := s.bank.map s.spsrs.get

/-! ## The pc -/

/-- The size of an instruction in the current state (30_encoding.md R70). -/
def State.instrSize (s : State) : Nat := if s.thumb then 2 else 4

/-- The address after an ARM instruction (R26). -/
def State.advanceArm (s : State) : State := { s with pc := s.pc + 4#32 }

/-- The address after a Thumb instruction (R26). -/
def State.advanceThumb (s : State) : State := { s with pc := s.pc + 2#32 }

/-- `pc <- t` by an instruction (R26): `t` has to be a multiple of the instruction size of the state the
CPSR selects. -/
def setPc (t : Word) (s : State) : Result :=
  if AlignedTo s.instrSize t then .next { s with pc := t } else .refused .misalignedPc

/-- An ARM instruction whose condition fails has no effect but the advance of the pc (30_encoding.md R72). -/
def whenPassed (c : Cond) (s : State) (run : Result) : Result :=
  if condPassed c s.cpsr then run else .next s.advanceArm

/-! ## Memory as data -/

/-- The byte at an address. -/
def Memory.read : Memory → Nat → Byte
  | [], _ => Config.unlistedByte
  | (k, v) :: m, a => if k = a then v else Memory.read m a

/-- The memory with the byte `b` at `a`, in canonical form again. -/
def Memory.write : Memory → Nat → Byte → Memory
  | [], a, b => if b = Config.unlistedByte then [] else [(a, b)]
  | (k, v) :: m, a, b =>
    if a < k then (if b = Config.unlistedByte then (k, v) :: m else (a, b) :: (k, v) :: m)
    else if a = k then (if b = Config.unlistedByte then m else (a, b) :: m)
    else (k, v) :: Memory.write m a b

/-- The canonical form: addresses strictly rising, each of 32 bits, and no entry equal to what an unlisted
address reads as. -/
def Memory.wf (m : Memory) : Bool :=
  decide (m.Pairwise (fun x y => x.1 < y.1)) && m.all (fun x => decide (x.1 < 2 ^ 32) && x.2 != Config.unlistedByte)

/-- The `n` bytes at the addresses from `a` up. -/
def Memory.readList (m : Memory) (a : Nat) : Nat → List Byte
  | 0 => []
  | n + 1 => m.read a :: Memory.readList m (a + 1) n

/-- The memory with the bytes at the addresses from `a` up. -/
def Memory.writeList (m : Memory) (a : Nat) : List Byte → Memory
  | [] => m
  | b :: bs => Memory.writeList (m.write a b) (a + 1) bs

/-! ## The memory map (20_memory.md R64, D3) -/

/-- The bytes of one access (R54). -/
def Width.bytes : Width → Nat
  | .byte => 1
  | .half => 2
  | .word => 4

/-- The low bits of `v` that an access of this width moves. -/
def Width.truncate (w : Width) (v : Word) : Word :=
  match w with
  | .byte => v &&& 0xFF#32
  | .half => v &&& 0xFFFF#32
  | .word => v

/-- What the address holds. -/
def kindAt (map : List Region) (a : Nat) : RegionKind :=
  match map.find? (fun r => decide (r.base ≤ a) && decide (a < r.base + r.size)) with
  | some r => r.kind
  | none => .memory

/-- An access of `w.bytes` bytes at `a` has a byte of this kind. Each byte is what its own region says (log 9). -/
def State.touches (s : State) (k : RegionKind) (w : Width) (a : Word) : Bool :=
  (List.range w.bytes).any (fun i => kindAt s.platform.memMap (a.toNat + i) == k)

/-- The memory with the bytes at the addresses from `a` up, of which only those in ordinary memory are stored: a device
or an address with nothing holds no byte (log 8, 9). -/
def Memory.writeOver (map : List Region) (m : Memory) (a : Nat) : List Byte → Memory
  | [] => m
  | b :: bs => Memory.writeOver map (if kindAt map a = .memory then m.write a b else m) (a + 1) bs

/-! ## The access primitives (20_memory.md R55 to R58) -/

/-- The answer to one access. `abort` and `ok` carry the state after it. -/
inductive Access (α : Type) where
  | ok (v : α) (s : State)
  | abort (s : State)
  | refused (r : Refusal)

/-- The answer of ABORT to the next access (R58). -/
def State.abortNext (s : State) : Bool := s.inputs.aborts.headD false

/-- The state once ABORT has been consulted for an access (R58, log 2). -/
def State.consulted (s : State) : State :=
  { s with inputs := { s.inputs with aborts := s.inputs.aborts.tail } }

/-- `draw` (00_scope.md R8): the state after `n` free values have been used. -/
def State.drew (s : State) (n : Nat) : State := { s with draws := s.draws + n }

/-- The value of an access's bytes in memory, in the byte order of R52. -/
def State.memValue (s : State) (w : Width) (a : Word) : Word :=
  ofBytes s.platform.bigEndian (s.mem.readList a.toNat w.bytes)

/-- The state with the bytes of `v` stored at `a`, in the byte order of R52. -/
def State.storeValue (s : State) (w : Width) (a : Word) (v : Word) : State :=
  { s with mem := s.mem.writeList a.toNat (toBytes s.platform.bigEndian w.bytes v) }

/-- The value of an access that meets a device: of a device each byte is a draw (R60, D3, log 10), of memory and code
what is stored. -/
def State.deviceValue (s : State) (w : Width) (a : Word) : Word :=
  ofBytes s.platform.bigEndian ((List.range w.bytes).map (fun i =>
    if kindAt s.platform.memMap (a.toNat + i) = .device then Config.freeByte (s.draws + i) else s.mem.read (a.toNat + i)))

/-- The state with a write that meets a device: recorded as one write (D3, log 10), and its bytes in ordinary memory
stored (R56). -/
def State.deviceStore (s : State) (w : Width) (a : Word) (v : Word) : State :=
  { s with
    mem := s.mem.writeOver s.platform.memMap a.toNat (toBytes s.platform.bigEndian w.bytes v)
    deviceLog := s.deviceLog ++ [{ addr := a, width := w, value := w.truncate v }] }

/-- Each addressed byte holds a draw (R56, D6). That a device records nothing of such a write is the model's choice
(log 8). -/
def State.scramble (s : State) (w : Width) (a : Word) : State :=
  { s with
    mem := s.mem.writeOver s.platform.memMap a.toNat
      ((List.range w.bytes).map (fun i => Config.freeByte (s.draws + i)))
    draws := s.draws + w.bytes }

/-- `MemRead(addr, n)` (R55, R64). -/
def memRead (w : Width) (a : Word) (s : State) : Access Word :=
  if ¬ AlignedTo w.bytes a then .refused .misaligned
  else if s.abortNext then .abort s.consulted
  else if s.touches .nothing w a then .refused .unmapped
  else if s.touches .device w a then .ok (s.deviceValue w a) (s.consulted.drew w.bytes)
  else .ok (s.memValue w a) s.consulted

/-- `MemWrite(addr, n, v)` (R56, R64). A store into a code region is refused whatever ABORT answers (R62, D16,
log 7). -/
def memWrite (w : Width) (a : Word) (v : Word) (s : State) : Access Unit :=
  if ¬ AlignedTo w.bytes a then .refused .misaligned
  else if s.touches .code w a then .refused .storeToCode
  else if s.abortNext then .abort (s.consulted.scramble w a)
  else if s.touches .nothing w a then .refused .unmapped
  else if s.touches .device w a then .ok () (s.consulted.deviceStore w a v)
  else .ok () (s.consulted.storeValue w a v)

/-- `Fetch(addr, n)` (R57, R64): `abort` is the Prefetch-Abort mark. A fetch from a device is refused whatever ABORT
answers (log 7). -/
def fetch (w : Width) (a : Word) (s : State) : Access Word :=
  if ¬ AlignedTo w.bytes a then .refused .misalignedPc
  else if s.touches .device w a then .refused .fetchFromDevice
  else if s.abortNext then .abort s.consulted
  else if s.touches .nothing w a then .refused .unmapped
  else .ok (s.memValue w a) s.consulted

/-! ## Exceptions (60_exceptions.md) -/

/-- The seven exceptions (R150). -/
inductive Exc where
  | reset | udef | swi | pabt | dabt | irq | fiq
  deriving DecidableEq, Repr

/-- `Vector(E)` (R153). -/
def Exc.vector : Exc → Word
  | .reset => 0x00000000#32
  | .udef => 0x00000004#32
  | .swi => 0x00000008#32
  | .pabt => 0x0000000C#32
  | .dabt => 0x00000010#32
  | .irq => 0x00000018#32
  | .fiq => 0x0000001C#32

/-- `Mode(E)` (R153). -/
def Exc.mode : Exc → ExcMode
  | .reset | .swi => .svc
  | .udef => .und
  | .pabt | .dabt => .abt
  | .irq => .irq
  | .fiq => .fiq

/-- Entry sets F (R153); every entry sets I. -/
def Exc.masksFiq : Exc → Bool
  | .reset | .fiq => true
  | .udef | .swi | .pabt | .dabt | .irq => false

/-- `Offset(E, T)` (R154); Reset saves no address. -/
def Exc.offset (e : Exc) (thumb : Bool) : Option Word :=
  match e with
  | .reset => none
  | .udef | .swi => some (if thumb then 2#32 else 4#32)
  | .pabt | .irq | .fiq => some 4#32
  | .dabt => some 8#32

/-- The CPSR after entry: mode, I, F and T; the other bits keep their values (R152, D9). -/
def entryPsr (e : Exc) (p : Word) : Word :=
  let q := withBit (withMode p e.mode.mode.bits) 7 true
  withBit (if e.masksFiq then withBit q 6 true else q) 5 false

/-- Entry with the return address `link` (R152, steps 1 to 4). -/
def enterException (e : Exc) (link : Word) (s : State) : State :=
  { s with
    regs := s.regs.set (.lr (some e.mode)) link
    spsrs := s.spsrs.set e.mode s.cpsr
    cpsr := entryPsr e s.cpsr
    pc := e.vector }

/-- `TakeReset` in the middle of a run (70_reset_and_hazards.md R195, D10): a register or status field the
rule does not give holds no value, so here a free one (log 19). -/
def takeReset (s : State) : State :=
  let free := fun i => Config.freeWord (s.draws + i)
  { s with
    regs :=
      { low := Vector.ofFn (fun i => free i.val)
        mid := Vector.ofFn (fun i => free (8 + i.val))
        midFiq := Vector.ofFn (fun i => free (13 + i.val))
        sp := { usr := free 18, fiq := free 19, irq := free 20, svc := free 21, abt := free 22, und := free 23 }
        lr := { usr := free 24, fiq := free 25, irq := free 26, svc := free 27, abt := free 28, und := free 29 } }
    spsrs := { fiq := free 30, irq := free 31, svc := free 32, abt := free 33, und := free 34 }
    cpsr := entryPsr .reset (free 35)
    pc := Exc.vector .reset
    draws := s.draws + 36 }

/-- `TakeException(E, A)` (R152). -/
def takeException (e : Exc) (a : Word) (s : State) : State :=
  match e.offset s.thumb with
  | some k => enterException e (a + k) s
  | none => takeReset s

/-- `raise E(A)` by the instruction at the pc (00_scope.md R7). -/
def raise (e : Exc) (s : State) : Result := .next (takeException e s.pc s)

/-- The return from an exception (R157): the CPSR from the SPSR of the handler's mode, all 32 bits, and the
pc to `target`, which has to suit the restored T (40_exception_return.md R90, R97). -/
def exceptionReturn (target : Word) (s : State) : Result :=
  match s.spsr? with
  | none => .refused .noSpsr
  | some p => if legalMode p then setPc target { s with cpsr := p } else .refused .illegalMode

end Sys2Proof.Machine
end

