-- ==== Sys2Proof/Machine/Operands.lean ====
section
/-! DEFINITION. Every operand form: operand 2 of MOV, SUB and MSR (30_encoding.md R75), the addresses of the
single transfers (42_data_transfer.md R110), the register list and the addresses of the block transfers
(R117), branch targets (R76). -/

namespace Sys2Proof.Machine

/-! ## Operand 2 (R75) -/

/-- An operand and the shifter carry-out. -/
structure ShifterOperand where
  value : Word
  carry : Bool
  deriving DecidableEq, Repr

/-- `ROR(zext_32(imm8), 2 * rot)`. -/
def rotatedImm (rot : BitVec 4) (imm8 : BitVec 8) : Word := ror (imm8.setWidth 32) (2 * rot.toNat)

/-- The immediate form: the carry-out is the old C when `rot = 0` and bit 31 of the operand otherwise. -/
def immOperand (rot : BitVec 4) (imm8 : BitVec 8) (s : State) : ShifterOperand :=
  { value := rotatedImm rot imm8
    carry := if rot = 0#4 then psrC s.cpsr else (rotatedImm rot imm8).getLsbD 31 }

/-- The unshifted register form: the carry-out is the old C. -/
def regOperand (rm : RegNum) (s : State) : ShifterOperand :=
  { value := s.readReg rm, carry := psrC s.cpsr }

/-! ## Single transfers (R110) -/

/-- `Shift(v, type, n)` of R110, with the old C for the rotation through the carry. -/
def shiftOffset (v : Word) (t : ShiftType) (n : BitVec 5) (carry : Bool) : Word :=
  match t with
  | .lsl => v <<< n.toNat
  | .lsr => if n = 0#5 then 0#32 else v >>> n.toNat
  | .asr => if n = 0#5 then v.sshiftRight 32 else v.sshiftRight n.toNat
  | .ror => if n = 0#5 then withBit (v >>> 1) 31 carry else ror v n.toNat

/-- The offset of a single transfer (30_encoding.md R77). -/
inductive Offset where
  | imm (imm12 : BitVec 12)
  | reg (shiftImm : BitVec 5) (shift : ShiftType) (rm : RegNum)
  deriving DecidableEq, Repr

/-- The bits P, U, W, the base and the offset of a single transfer (R77). -/
structure Addressing where
  pre : Bool
  up : Bool
  w : Bool
  rn : RegNum
  offset : Offset
  deriving DecidableEq, Repr

/-- "Write-back is specified" (R77, R110). -/
def Addressing.writesBack (a : Addressing) : Bool := !a.pre || a.w

/-- `off` of R110. -/
def Offset.value (o : Offset) (s : State) : Word :=
  match o with
  | .imm imm12 => imm12.setWidth 32
  | .reg n t rm => shiftOffset (s.readReg rm) t n (psrC s.cpsr)

/-- `idx` of R110: what write-back leaves in the base register. -/
def Addressing.index (a : Addressing) (s : State) : Word :=
  if a.up then s.readReg a.rn + a.offset.value s else s.readReg a.rn - a.offset.value s

/-- `addr` of R110. -/
def Addressing.addr (a : Addressing) (s : State) : Word :=
  if a.pre then a.index s else s.readReg a.rn

/-- The offset register, if there is one. -/
def Offset.reg? : Offset → Option RegNum
  | .imm _ => none
  | .reg _ _ rm => some rm

/-- The operands R110 refuses, Rd being the register transferred. -/
def Addressing.refusal? (a : Addressing) (rd : RegNum) : Option Refusal :=
  if a.writesBack ∧ a.rn = 15#4 then some .writeBackToPc
  else if a.offset.reg? = some 15#4 then some .offsetPc
  else if a.writesBack ∧ a.offset.reg? = some a.rn then some .offsetIsBase
  else if a.writesBack ∧ rd = a.rn then some .transferIsBase
  else none

/-- Write-back, where it is specified; `idx` is computed before the access (R110). -/
def State.writeBackIf (s : State) (wb : Bool) (rn : RegNum) (idx : Word) : State :=
  if wb then s.writeReg rn idx else s

/-! ## Block transfers (R117, R118) -/

/-- The registers of a list in ascending order, from number `i` on, `k` numbers long. -/
def registersFrom (list : BitVec 16) (i : Nat) : Nat → List RegNum
  | 0 => []
  | k + 1 =>
    if list.getLsbD i then BitVec.ofNat 4 i :: registersFrom list (i + 1) k else registersFrom list (i + 1) k

/-- The registers of a list, the lowest number first. -/
def registersOf (list : BitVec 16) : List RegNum := registersFrom list 0 16

/-- The bytes a list moves, `4n`. -/
def blockSize (list : BitVec 16) : Word := BitVec.ofNat 32 (4 * (registersOf list).length)

/-- `start` of R117. -/
def blockStart (p u : Bool) (base size : Word) : Word :=
  match p, u with
  | false, true => base
  | true, true => base + 4#32
  | false, false => base - size + 4#32
  | true, false => base - size

/-- `wbval` of R117. -/
def blockFinalBase (u : Bool) (base size : Word) : Word := if u then base + size else base - size

/-- Register 15 is in the list. -/
def listsPc (list : BitVec 16) : Bool := list.getLsbD 15

/-- `Rn` is in the list. -/
def listsReg (list : BitVec 16) (rn : RegNum) : Bool := list.getLsbD rn.toNat

/-! ## Branches (R76) -/

/-- The target of B and BL in ARM state. -/
def branchTarget (s : State) (offset24 : BitVec 24) : Word := s.pc + 8#32 + (offset24.signExtend 32 <<< 2)

end Sys2Proof.Machine
end

