-- ==== Sys2Proof/Machine/Block.lean ====
section
/-! DEFINITION. Block data transfers LDM and STM, with and without a Data Abort (42_data_transfer.md R117 to
R120). -/

namespace Sys2Proof.Machine

/-- A register number with the word loaded for it. -/
abbrev Loaded := List (RegNum × Word)

/-- The reads of an LDM from address `a` up: those that completed, whether one aborted, and the state after.
The reads after the aborting one have no effect and are not made (R119, D7). -/
inductive BlockRead where
  | done (loaded : Loaded) (aborted : Bool) (s : State)
  | refused (r : Refusal)

/-- The result of the read of register `r` put before the results of the later ones. -/
def BlockRead.cons (r : RegNum) (v : Word) : BlockRead → BlockRead
  | .done loaded aborted s => .done ((r, v) :: loaded) aborted s
  | .refused e => .refused e

/-- R117: ascending registers from ascending addresses. -/
def loadBlock : List RegNum → Word → State → BlockRead
  | [], _, s => .done [] false s
  | r :: rs, a, s =>
    match memRead .word a s with
    | .refused e => .refused e
    | .abort t => .done [] true t
    | .ok v t => (loadBlock rs (a + 4#32) t).cons r v

/-- Loaded words into the registers of a bank; register 15 is not written here. -/
def writeLoaded (b : Bank) : Loaded → State → State
  | [], s => s
  | (r, v) :: rest, s => writeLoaded b rest (s.writeBank b r v)

/-- Each word still to be stored after an aborting STM access holds a draw (R120, D7). The spec does not say what
that is for a word whose bytes are not ordinary memory; the model's choice: a word with a byte in a code region is
refused, as for every store (R62, log 7), and a byte of a device or of an address with nothing holds no draw, nothing is
recorded for the device, and nothing is refused (log 8). -/
def scrambleBlock : List RegNum → Word → State → Access Unit
  | [], _, s => .ok () s
  | _ :: rs, a, s =>
    if s.touches .code .word a then .refused .storeToCode
    else scrambleBlock rs (a + 4#32) (s.scramble .word a)

/-- R118, R120: the stores of an STM from address `a` up, `abort` if one aborted. -/
def storeBlock (b : Bank) : List RegNum → Word → State → Access Unit
  | [], _, s => .ok () s
  | r :: rs, a, s =>
    match memWrite .word a (s.readBank b r) s with
    | .refused e => .refused e
    | .abort t =>
      match scrambleBlock rs (a + 4#32) t with
      | .ok () u | .abort u => .abort u
      | .refused e => .refused e
    | .ok () t => storeBlock b rs (a + 4#32) t

/-- The operands R117 refuses; `bank` is that of the current mode. -/
def ldmRefusal? (s w : Bool) (rn : RegNum) (list : BitVec 16) (bank : Bank) : Option Refusal :=
  if rn = 15#4 then some .blockBasePc
  else if list = 0#16 then some .blockEmptyList
  else if w ∧ listsReg list rn then some .blockBaseInList
  else if s ∧ bank = none then some .blockUserBankMode
  else if s ∧ w ∧ ¬ listsPc list then some .blockUserBankWriteBack
  else none

/-- The operands R118 refuses. -/
def stmRefusal? (s w : Bool) (rn : RegNum) (list : BitVec 16) (bank : Bank) : Option Refusal :=
  if rn = 15#4 then some .blockBasePc
  else if list = 0#16 then some .blockEmptyList
  else if listsPc list then some .stmPc
  else if w ∧ listsReg list rn ∧ (registersOf list).head? ≠ some rn then some .blockBaseInList
  else if s ∧ bank = none then some .blockUserBankMode
  else if s ∧ w then some .blockUserBankWriteBack
  else none

/-- The bank an LDM loads: the User bank when S = 1 and r15 is not listed (R117). -/
def ldmBank (s : Bool) (list : BitVec 16) (bank : Bank) : Bank :=
  if s ∧ ¬ listsPc list then none else bank

/-- The bank an STM stores from: the User bank when S = 1 (R118). -/
def stmBank (s : Bool) (bank : Bank) : Bank := if s then none else bank

/-- The transfers of an LDM and their effect (R117), and what an abort leaves (R119): the registers before
the aborting access loaded, the base at its written-back or original value, r15 and the CPSR untouched. -/
def loadMultiple (p u s w : Bool) (rn : RegNum) (list : BitVec 16) (st : State) : Result :=
  let base := st.readReg rn
  let final := blockFinalBase u base (blockSize list)
  let bank := ldmBank s list st.bank
  match loadBlock (registersOf list) (blockStart p u base (blockSize list)) st with
  | .refused r => .refused r
  | .done loaded true t =>
    raise .dabt ((writeLoaded bank loaded t).writeReg rn (if w then final else base))
  | .done loaded false t =>
    let v := writeLoaded bank loaded (t.writeBackIf w rn final)
    match loaded.lookup 15#4 with
    | some target => if s then exceptionReturn target v else setPc target v
    | none => .next v.advanceArm

/-- The transfers of an STM and their effect (R118), and what an abort leaves (R120). -/
def storeMultiple (p u s w : Bool) (rn : RegNum) (list : BitVec 16) (st : State) : Result :=
  let base := st.readReg rn
  let final := blockFinalBase u base (blockSize list)
  match storeBlock (stmBank s st.bank) (registersOf list) (blockStart p u base (blockSize list)) st with
  | .refused r => .refused r
  | .abort t => raise .dabt (t.writeBackIf w rn final)
  | .ok () t => .next (t.writeBackIf w rn final).advanceArm

/-- R117, R119. -/
def execLdm (c : Cond) (p u s w : Bool) (rn : RegNum) (list : BitVec 16) (st : State) : Result :=
  whenPassed c st
    (match ldmRefusal? s w rn list st.bank with
    | some r => .refused r
    | none => loadMultiple p u s w rn list st)

/-- R118, R120. -/
def execStm (c : Cond) (p u s w : Bool) (rn : RegNum) (list : BitVec 16) (st : State) : Result :=
  whenPassed c st
    (match stmRefusal? s w rn list st.bank with
    | some r => .refused r
    | none => storeMultiple p u s w rn list st)

end Sys2Proof.Machine
end

