-- ==== Sys2Proof/Machine/Branch.lean ====
section
/-! DEFINITION. Branches: B and BL in ARM state, the two halves of BL in Thumb state (41_branch_link.md). -/

namespace Sys2Proof.Machine

/-- R101. -/
def execB (c : Cond) (offset24 : BitVec 24) (s : State) : Result :=
  whenPassed c s (setPc (branchTarget s offset24) s)

/-- R100. -/
def execBl (c : Cond) (offset24 : BitVec 24) (s : State) : Result :=
  whenPassed c s (setPc (branchTarget s offset24) (s.writeReg 14#4 (s.pc + 4#32)))

/-- R102. -/
def execThumbBlFirst (offsetHi : BitVec 11) (s : State) : Result :=
  .next (s.writeReg 14#4 (s.pc + 4#32 + (offsetHi.signExtend 32 <<< 12))).advanceThumb

/-- R103: bit 0 of the link value is a draw (D19). -/
def execThumbBlSecond (offsetLo : BitVec 11) (s : State) : Result :=
  setPc (s.readReg 14#4 + (offsetLo.setWidth 32 <<< 1))
    ((s.writeReg 14#4 (withBit (s.pc + 2#32) 0 (Config.freeBit s.draws))).drew 1)

end Sys2Proof.Machine
end

