-- ==== Sys2Proof/Machine/DataProcessing.lean ====
section
/-! DEFINITION. MOV and SUB with every destination, the exception returns among them
(40_exception_return.md). -/

namespace Sys2Proof.Machine

/-- What MOV and SUB do with their result (R90): a register and, if S, the flags `flags`; or the pc and, if
S, the CPSR from the SPSR. -/
def finishData (setsFlags : Bool) (rd : RegNum) (result flags : Word) (s : State) : Result :=
  if rd = 15#4 then
    if setsFlags then exceptionReturn result s else setPc result s
  else
    let t := (s.writeReg rd result).advanceArm
    .next (if setsFlags then { t with cpsr := flags } else t)

/-- MOV{S} (R90, R91). -/
def movOp (setsFlags : Bool) (rd : RegNum) (op2 : ShifterOperand) (s : State) : Result :=
  finishData setsFlags rd op2.value (movFlags s.cpsr op2.value op2.carry) s

/-- SUB{S} (R90, R92). -/
def subOp (setsFlags : Bool) (rn rd : RegNum) (op2 : ShifterOperand) (s : State) : Result :=
  finishData setsFlags rd (s.readReg rn - op2.value) (subFlags s.cpsr (s.readReg rn) op2.value) s

/-- R91; the field Rn of MOV is ignored (30_encoding.md R74). -/
def execMovReg (c : Cond) (rd rm : RegNum) (s : State) : Result :=
  whenPassed c s (movOp false rd (regOperand rm s) s)

/-- R91. -/
def execMovsReg (c : Cond) (rd rm : RegNum) (s : State) : Result :=
  whenPassed c s (movOp true rd (regOperand rm s) s)

/-- R91. -/
def execMovImm (c : Cond) (rd : RegNum) (rot : BitVec 4) (imm8 : BitVec 8) (s : State) : Result :=
  whenPassed c s (movOp false rd (immOperand rot imm8 s) s)

/-- R91. -/
def execMovsImm (c : Cond) (rd : RegNum) (rot : BitVec 4) (imm8 : BitVec 8) (s : State) : Result :=
  whenPassed c s (movOp true rd (immOperand rot imm8 s) s)

/-- R92. -/
def execSubReg (c : Cond) (rn rd rm : RegNum) (s : State) : Result :=
  whenPassed c s (subOp false rn rd (regOperand rm s) s)

/-- R92. -/
def execSubsReg (c : Cond) (rn rd rm : RegNum) (s : State) : Result :=
  whenPassed c s (subOp true rn rd (regOperand rm s) s)

/-- R92. -/
def execSubImm (c : Cond) (rn rd : RegNum) (rot : BitVec 4) (imm8 : BitVec 8) (s : State) : Result :=
  whenPassed c s (subOp false rn rd (immOperand rot imm8 s) s)

/-- R92. -/
def execSubsImm (c : Cond) (rn rd : RegNum) (rot : BitVec 4) (imm8 : BitVec 8) (s : State) : Result :=
  whenPassed c s (subOp true rn rd (immOperand rot imm8 s) s)

/-- R93, ARM state: the return from a subroutine. -/
def execMovPcR14 (c : Cond) (s : State) : Result :=
  whenPassed c s (movOp false 15#4 (regOperand 14#4 s) s)

/-- R94: the return from the SWI and the Undefined instruction handlers. -/
def execMovsPcR14 (c : Cond) (s : State) : Result :=
  whenPassed c s (movOp true 15#4 (regOperand 14#4 s) s)

/-- R95: the return from the Prefetch Abort, FIQ and IRQ handlers. -/
def execSubsPcR14Imm4 (c : Cond) (s : State) : Result :=
  whenPassed c s (subOp true 14#4 15#4 (immOperand 0#4 4#8 s) s)

/-- R96: the return from the Data Abort handler. -/
def execSubsPcR14Imm8 (c : Cond) (s : State) : Result :=
  whenPassed c s (subOp true 14#4 15#4 (immOperand 0#4 8#8 s) s)

/-- R93, Thumb state: bit 0 of the value is ignored. -/
def execThumbMovPcR14 (s : State) : Result := setPc (withBit (s.readReg 14#4) 0 false) s

end Sys2Proof.Machine
end

