-- ==== Sys2Proof/Machine/System.lean ====
section
/-! DEFINITION. Software interrupt, undefined and coprocessor instructions (43_swi_undefined_coprocessor.md),
and the transfers of the status registers (44_status_register_access.md). -/

namespace Sys2Proof.Machine

/-! ## SWI and the undefined instruction -/

/-- R125. The comment field is ignored by the processor. -/
def execSwi (c : Cond) (s : State) : Result := whenPassed c s (raise .swi s)

/-- R126. -/
def execThumbSwi (s : State) : Result := raise .swi s

/-- R128. -/
def execUdef (c : Cond) (s : State) : Result := whenPassed c s (raise .udef s)

/-! ## Coprocessor instructions (R129, R130) -/

/-- `coprocAccepts(w)`. -/
def coprocAccepts (ps : List CoprocPattern) (w : Word) : Bool := ps.any (fun p => w &&& p.mask == p.bits)

/-- R130: an instruction that no coprocessor accepts is undefined. What an accepted one does is the
coprocessor's, and in no source. -/
def coprocOp (c : Cond) (w : Word) (s : State) : Result :=
  whenPassed c s
    (if coprocAccepts s.platform.coproc w then .refused .coprocessorSemanticsUnmodelled else raise .udef s)

/-- R130. -/
def execCdp (c : Cond) (cpOpc crn crd cpNum : BitVec 4) (cp : BitVec 3) (crm : BitVec 4) (s : State) : Result :=
  coprocOp c (encodeCdp c cpOpc crn crd cpNum cp crm) s

/-- R130. -/
def execMrc (c : Cond) (cpOpc : BitVec 3) (crn : BitVec 4) (rd : RegNum) (cpNum : BitVec 4) (cp : BitVec 3)
    (crm : BitVec 4) (s : State) : Result :=
  coprocOp c (encodeCoprocReg c true cpOpc crn rd cpNum cp crm) s

/-- R130. -/
def execMcr (c : Cond) (cpOpc : BitVec 3) (crn : BitVec 4) (rd : RegNum) (cpNum : BitVec 4) (cp : BitVec 3)
    (crm : BitVec 4) (s : State) : Result :=
  coprocOp c (encodeCoprocReg c false cpOpc crn rd cpNum cp crm) s

/-- R130. -/
def execLdc (c : Cond) (p u n w : Bool) (rn : RegNum) (crd cpNum : BitVec 4) (offset8 : BitVec 8) (s : State) : Result :=
  coprocOp c (encodeCoprocTransfer c p u n w true rn crd cpNum offset8) s

/-- R130. -/
def execStc (c : Cond) (p u n w : Bool) (rn : RegNum) (crd cpNum : BitVec 4) (offset8 : BitVec 8) (s : State) : Result :=
  coprocOp c (encodeCoprocTransfer c p u n w false rn crd cpNum offset8) s

/-! ## Status registers -/

/-- R135, the condition passed. -/
def mrsOp (r : Bool) (rd : RegNum) (s : State) : Result :=
  if rd = 15#4 then .refused .mrsPc
  else if r then
    match s.spsr? with
    | none => .refused .noSpsr
    | some p => .next (s.writeReg rd p).advanceArm
  else .next (s.writeReg rd s.cpsr).advanceArm

/-- R135. -/
def execMrs (c : Cond) (r : Bool) (rd : RegNum) (s : State) : Result := whenPassed c s (mrsOp r rd s)

/-- The bits of the CPSR an MSR may change: in User mode only bits 31:24 (R137). -/
def cpsrWriteMask (fieldMask : BitVec 4) (p : Word) : Word :=
  if userMode p then byteMask fieldMask &&& 0xFF000000#32 else byteMask fieldMask

/-- R136 with R = 0. -/
def msrCpsr (fieldMask : BitVec 4) (v : Word) (s : State) : Result :=
  let new := mergeBits (cpsrWriteMask fieldMask s.cpsr) s.cpsr v
  if psrT new ≠ psrT s.cpsr then .refused .msrChangesT
  else if ¬ legalMode new then .refused .illegalMode
  else .next { s with cpsr := new }.advanceArm

/-- R136 with R = 1. The mode bits written to an SPSR are not tested. -/
def msrSpsr (fieldMask : BitVec 4) (v : Word) (s : State) : Result :=
  match s.bank with
  | none => .refused .noSpsr
  | some m =>
    .next { s with spsrs := s.spsrs.set m (mergeBits (byteMask fieldMask) (s.spsrs.get m) v) }.advanceArm

def msrOp (r : Bool) (fieldMask : BitVec 4) (v : Word) (s : State) : Result :=
  if r then msrSpsr fieldMask v s else msrCpsr fieldMask v s

/-- R136, register form. -/
def execMsrReg (c : Cond) (r : Bool) (fieldMask : BitVec 4) (rm : RegNum) (s : State) : Result :=
  whenPassed c s (if rm = 15#4 then .refused .msrPc else msrOp r fieldMask (s.readReg rm) s)

/-- R136, immediate form. -/
def execMsrImm (c : Cond) (r : Bool) (fieldMask rot : BitVec 4) (imm8 : BitVec 8) (s : State) : Result :=
  whenPassed c s (msrOp r fieldMask (rotatedImm rot imm8) s)

end Sys2Proof.Machine
end

