-- ==== Sys2Proof/Machine/Transfer.lean ====
section
/-! DEFINITION. Single data transfers and swaps, with and without a Data Abort (42_data_transfer.md R110 to
R116). -/

namespace Sys2Proof.Machine

/-! ## LDR and STR -/

/-- LDR and LDRB (R111), and what an abort leaves (R113): the write-back done, Rd untouched. -/
def loadOp (w : Width) (a : Addressing) (rd : RegNum) (s : State) : Result :=
  match memRead w (a.addr s) s with
  | .refused r => .refused r
  | .abort t => raise .dabt (t.writeBackIf a.writesBack a.rn (a.index s))
  | .ok v t =>
    let u := t.writeBackIf a.writesBack a.rn (a.index s)
    if rd = 15#4 then setPc v u else .next (u.writeReg rd v).advanceArm

/-- STR and STRB (R112), and what an abort leaves (R113). -/
def storeOp (w : Width) (a : Addressing) (rd : RegNum) (s : State) : Result :=
  match memWrite w (a.addr s) (s.readReg rd) s with
  | .refused r => .refused r
  | .abort t => raise .dabt (t.writeBackIf a.writesBack a.rn (a.index s))
  | .ok () t => .next (t.writeBackIf a.writesBack a.rn (a.index s)).advanceArm

/-- LDR: condition, the operands R110 refuses, the load. -/
def ldrOp (c : Cond) (a : Addressing) (rd : RegNum) (s : State) : Result :=
  whenPassed c s
    (match a.refusal? rd with
    | some r => .refused r
    | none => loadOp .word a rd s)

/-- LDRB: as LDR; Rd = 15 is refused (R111). -/
def ldrbOp (c : Cond) (a : Addressing) (rd : RegNum) (s : State) : Result :=
  whenPassed c s
    (match a.refusal? rd with
    | some r => .refused r
    | none => if rd = 15#4 then .refused .ldrbPc else loadOp .byte a rd s)

/-- STR and STRB: condition, the operands R110 refuses, Rd = 15 (R112), the store. -/
def strOp (w : Width) (c : Cond) (a : Addressing) (rd : RegNum) (s : State) : Result :=
  whenPassed c s
    (match a.refusal? rd with
    | some r => .refused r
    | none => if rd = 15#4 then .refused .strPc else storeOp w a rd s)

/-- The four forms of an address (30_encoding.md R77). -/
def immPre (u w : Bool) (rn : RegNum) (imm12 : BitVec 12) : Addressing :=
  { pre := true, up := u, w := w, rn := rn, offset := .imm imm12 }

def immPost (u : Bool) (rn : RegNum) (imm12 : BitVec 12) : Addressing :=
  { pre := false, up := u, w := false, rn := rn, offset := .imm imm12 }

def regPre (u w : Bool) (rn : RegNum) (n : BitVec 5) (t : ShiftType) (rm : RegNum) : Addressing :=
  { pre := true, up := u, w := w, rn := rn, offset := .reg n t rm }

def regPost (u : Bool) (rn : RegNum) (n : BitVec 5) (t : ShiftType) (rm : RegNum) : Addressing :=
  { pre := false, up := u, w := false, rn := rn, offset := .reg n t rm }

/-- R111. -/
def execLdrImmPre (c : Cond) (u w : Bool) (rn rd : RegNum) (imm12 : BitVec 12) (s : State) : Result :=
  ldrOp c (immPre u w rn imm12) rd s

/-- R111. -/
def execLdrImmPost (c : Cond) (u : Bool) (rn rd : RegNum) (imm12 : BitVec 12) (s : State) : Result :=
  ldrOp c (immPost u rn imm12) rd s

/-- R111. -/
def execLdrRegPre (c : Cond) (u w : Bool) (rn rd : RegNum) (n : BitVec 5) (t : ShiftType) (rm : RegNum)
    (s : State) : Result :=
  ldrOp c (regPre u w rn n t rm) rd s

/-- R111. -/
def execLdrRegPost (c : Cond) (u : Bool) (rn rd : RegNum) (n : BitVec 5) (t : ShiftType) (rm : RegNum)
    (s : State) : Result :=
  ldrOp c (regPost u rn n t rm) rd s

/-- R111. -/
def execLdrbImmPre (c : Cond) (u w : Bool) (rn rd : RegNum) (imm12 : BitVec 12) (s : State) : Result :=
  ldrbOp c (immPre u w rn imm12) rd s

/-- R111. -/
def execLdrbImmPost (c : Cond) (u : Bool) (rn rd : RegNum) (imm12 : BitVec 12) (s : State) : Result :=
  ldrbOp c (immPost u rn imm12) rd s

/-- R111. -/
def execLdrbRegPre (c : Cond) (u w : Bool) (rn rd : RegNum) (n : BitVec 5) (t : ShiftType) (rm : RegNum)
    (s : State) : Result :=
  ldrbOp c (regPre u w rn n t rm) rd s

/-- R111. -/
def execLdrbRegPost (c : Cond) (u : Bool) (rn rd : RegNum) (n : BitVec 5) (t : ShiftType) (rm : RegNum)
    (s : State) : Result :=
  ldrbOp c (regPost u rn n t rm) rd s

/-- R112. -/
def execStrImmPre (c : Cond) (u w : Bool) (rn rd : RegNum) (imm12 : BitVec 12) (s : State) : Result :=
  strOp .word c (immPre u w rn imm12) rd s

/-- R112. -/
def execStrImmPost (c : Cond) (u : Bool) (rn rd : RegNum) (imm12 : BitVec 12) (s : State) : Result :=
  strOp .word c (immPost u rn imm12) rd s

/-- R112. -/
def execStrRegPre (c : Cond) (u w : Bool) (rn rd : RegNum) (n : BitVec 5) (t : ShiftType) (rm : RegNum)
    (s : State) : Result :=
  strOp .word c (regPre u w rn n t rm) rd s

/-- R112. -/
def execStrRegPost (c : Cond) (u : Bool) (rn rd : RegNum) (n : BitVec 5) (t : ShiftType) (rm : RegNum)
    (s : State) : Result :=
  strOp .word c (regPost u rn n t rm) rd s

/-- R112. -/
def execStrbImmPre (c : Cond) (u w : Bool) (rn rd : RegNum) (imm12 : BitVec 12) (s : State) : Result :=
  strOp .byte c (immPre u w rn imm12) rd s

/-- R112. -/
def execStrbImmPost (c : Cond) (u : Bool) (rn rd : RegNum) (imm12 : BitVec 12) (s : State) : Result :=
  strOp .byte c (immPost u rn imm12) rd s

/-- R112. -/
def execStrbRegPre (c : Cond) (u w : Bool) (rn rd : RegNum) (n : BitVec 5) (t : ShiftType) (rm : RegNum)
    (s : State) : Result :=
  strOp .byte c (regPre u w rn n t rm) rd s

/-- R112. -/
def execStrbRegPost (c : Cond) (u : Bool) (rn rd : RegNum) (n : BitVec 5) (t : ShiftType) (rm : RegNum)
    (s : State) : Result :=
  strOp .byte c (regPost u rn n t rm) rd s

/-- R114: how the Data Abort handler reads the instruction that aborted. -/
def execLdrRdR14Minus8 (c : Cond) (rd : RegNum) (s : State) : Result :=
  ldrOp c (immPre false false 14#4 8#12) rd s

/-! ## SWP -/

/-- SWP and SWPB (R115), and what an abort of either access leaves (R116): no register written. -/
def swapOp (w : Width) (rn rd rm : RegNum) (s : State) : Result :=
  match memRead w (s.readReg rn) s with
  | .refused r => .refused r
  | .abort t => raise .dabt t
  | .ok v t =>
    match memWrite w (s.readReg rn) (s.readReg rm) t with
    | .refused r => .refused r
    | .abort u => raise .dabt u
    | .ok () u => .next (u.writeReg rd v).advanceArm

/-- Condition, register 15 as an operand (R115), the swap. -/
def swpOp (w : Width) (c : Cond) (rn rd rm : RegNum) (s : State) : Result :=
  whenPassed c s
    (if rn = 15#4 ∨ rd = 15#4 ∨ rm = 15#4 then .refused .swpPc else swapOp w rn rd rm s)

/-- R115, R116. -/
def execSwp (c : Cond) (rn rd rm : RegNum) (s : State) : Result := swpOp .word c rn rd rm s

/-- R115, R116. -/
def execSwpb (c : Cond) (rn rd rm : RegNum) (s : State) : Result := swpOp .byte c rn rd rm s

end Sys2Proof.Machine
end

