-- ==== Sys2Proof/Machine/Dispatch.lean ====
section
/-! DEFINITION. The meaning of each instruction, by name. -/

namespace Sys2Proof.Machine

def exec (i : Instr) (s : State) : Host.Outcome State Fault Refusal :=
  match i with
  | .b c off => Sys2Proof.Machine.execB c off s
  | .bl c off => Sys2Proof.Machine.execBl c off s
  | .swi c _ => Sys2Proof.Machine.execSwi c s
  | .udef c _ _ => Sys2Proof.Machine.execUdef c s
  | .ldrImmPre c u w rn rd imm => Sys2Proof.Machine.execLdrImmPre c u w rn rd imm s
  | .ldrImmPost c u rn rd imm => Sys2Proof.Machine.execLdrImmPost c u rn rd imm s
  | .ldrRegPre c u w rn rd n t rm => Sys2Proof.Machine.execLdrRegPre c u w rn rd n t rm s
  | .ldrRegPost c u rn rd n t rm => Sys2Proof.Machine.execLdrRegPost c u rn rd n t rm s
  | .ldrbImmPre c u w rn rd imm => Sys2Proof.Machine.execLdrbImmPre c u w rn rd imm s
  | .ldrbImmPost c u rn rd imm => Sys2Proof.Machine.execLdrbImmPost c u rn rd imm s
  | .ldrbRegPre c u w rn rd n t rm => Sys2Proof.Machine.execLdrbRegPre c u w rn rd n t rm s
  | .ldrbRegPost c u rn rd n t rm => Sys2Proof.Machine.execLdrbRegPost c u rn rd n t rm s
  | .strImmPre c u w rn rd imm => Sys2Proof.Machine.execStrImmPre c u w rn rd imm s
  | .strImmPost c u rn rd imm => Sys2Proof.Machine.execStrImmPost c u rn rd imm s
  | .strRegPre c u w rn rd n t rm => Sys2Proof.Machine.execStrRegPre c u w rn rd n t rm s
  | .strRegPost c u rn rd n t rm => Sys2Proof.Machine.execStrRegPost c u rn rd n t rm s
  | .strbImmPre c u w rn rd imm => Sys2Proof.Machine.execStrbImmPre c u w rn rd imm s
  | .strbImmPost c u rn rd imm => Sys2Proof.Machine.execStrbImmPost c u rn rd imm s
  | .strbRegPre c u w rn rd n t rm => Sys2Proof.Machine.execStrbRegPre c u w rn rd n t rm s
  | .strbRegPost c u rn rd n t rm => Sys2Proof.Machine.execStrbRegPost c u rn rd n t rm s
  | .ldm c p u b w rn list => Sys2Proof.Machine.execLdm c p u b w rn list s
  | .stm c p u b w rn list => Sys2Proof.Machine.execStm c p u b w rn list s
  | .swp c rn rd rm => Sys2Proof.Machine.execSwp c rn rd rm s
  | .swpb c rn rd rm => Sys2Proof.Machine.execSwpb c rn rd rm s
  | .cdp c opc crn crd num cp crm => Sys2Proof.Machine.execCdp c opc crn crd num cp crm s
  | .mrc c opc crn rd num cp crm => Sys2Proof.Machine.execMrc c opc crn rd num cp crm s
  | .mcr c opc crn rd num cp crm => Sys2Proof.Machine.execMcr c opc crn rd num cp crm s
  | .ldc c p u n w rn crd num off => Sys2Proof.Machine.execLdc c p u n w rn crd num off s
  | .stc c p u n w rn crd num off => Sys2Proof.Machine.execStc c p u n w rn crd num off s
  | .mrs c r rd => Sys2Proof.Machine.execMrs c r rd s
  | .msrReg c r m rm => Sys2Proof.Machine.execMsrReg c r m rm s
  | .msrImm c r m rot imm => Sys2Proof.Machine.execMsrImm c r m rot imm s
  | .movReg c _ rd rm => Sys2Proof.Machine.execMovReg c rd rm s
  | .movsReg c _ rd rm => Sys2Proof.Machine.execMovsReg c rd rm s
  | .movImm c _ rd rot imm => Sys2Proof.Machine.execMovImm c rd rot imm s
  | .movsImm c _ rd rot imm => Sys2Proof.Machine.execMovsImm c rd rot imm s
  | .subReg c rn rd rm => Sys2Proof.Machine.execSubReg c rn rd rm s
  | .subsReg c rn rd rm => Sys2Proof.Machine.execSubsReg c rn rd rm s
  | .subImm c rn rd rot imm => Sys2Proof.Machine.execSubImm c rn rd rot imm s
  | .subsImm c rn rd rot imm => Sys2Proof.Machine.execSubsImm c rn rd rot imm s
  | .movPcR14 c => Sys2Proof.Machine.execMovPcR14 c s
  | .movsPcR14 c => Sys2Proof.Machine.execMovsPcR14 c s
  | .subsPcR14Imm4 c => Sys2Proof.Machine.execSubsPcR14Imm4 c s
  | .subsPcR14Imm8 c => Sys2Proof.Machine.execSubsPcR14Imm8 c s
  | .ldrRdR14Minus8 c rd => Sys2Proof.Machine.execLdrRdR14Minus8 c rd s
  | .thumbSwi _ => Sys2Proof.Machine.execThumbSwi s
  | .thumbBlFirst off => Sys2Proof.Machine.execThumbBlFirst off s
  | .thumbBlSecond off => Sys2Proof.Machine.execThumbBlSecond off s
  | .thumbMovPcR14 => Sys2Proof.Machine.execThumbMovPcR14 s

end Sys2Proof.Machine
end

