-- ==== Sys2Proof/Machine/Other.lean ====
section
/-! DEFINITION. `ExecOther`, the parameter that stands for every instruction outside the opcode table
(45_other_instructions.md): the rules of `Platform.execOther` evaluated on the state, the instruction's bits, its address
and the T bit. The contract of R141 holds by the form of an effect or is checked before one counts (log 12). -/

namespace Sys2Proof.Machine

/-! ## Expressions -/

/-- The arguments of `ExecOther` (R140; `A` is the pc of `s`, `T` its T bit), and what the accesses made so far have read,
0 for one that read nothing. -/
structure OtherArgs where
  s : State
  w : Word
  loaded : List Word

def OtherFn.apply (f : OtherFn) (x y : Word) : Word :=
  let n := (y &&& 0xFF#32).toNat
  let ofBool := fun b : Bool => if b then 1#32 else 0#32
  match f with
  | .add => x + y
  | .sub => x - y
  | .mul => x * y
  | .mulHigh => BitVec.ofNat 32 (x.toNat * y.toNat / 2 ^ 32)
  | .and => x &&& y
  | .or => x ||| y
  | .xor => x ^^^ y
  | .lsl => x <<< n
  | .lsr => x >>> n
  | .asr => x.sshiftRight n
  | .ror => x.rotateRight n
  | .eq => ofBool (x == y)
  | .ult => ofBool (x.ult y)
  | .slt => ofBool (x.slt y)

def OtherExpr.eval (c : OtherArgs) : OtherExpr → Word
  | .const v => v
  | .instr => c.w
  | .addr => c.s.pc
  | .reg n => c.s.readReg ((n.eval c).setWidth 4)
  | .phys q => c.s.regs.get q
  | .cpsr => c.s.cpsr
  | .spsr m => c.s.spsrs.get m
  | .loaded k => c.loaded.getD k 0#32
  | .op f x y => f.apply (x.eval c) (y.eval c)
  | .ite b x y => if b.eval c = 0#32 then y.eval c else x.eval c

/-- A guard holds if it is not 0. -/
def OtherExpr.holds (e : OtherExpr) (c : OtherArgs) : Bool := e.eval c != 0#32

/-- The physical register meant; number 15 names none. -/
def OtherReg.resolve (r : OtherReg) (c : OtherArgs) : Option PhysReg :=
  match r with
  | .current n => physReg c.s.bank ((n.eval c).setWidth 4)
  | .phys q => some q

/-! ## Register writes -/

/-- Registers with the values written to them, the first first. -/
abbrev RegWrites := List (PhysReg × Word)

def OtherWrite.result (c : OtherArgs) (x : OtherWrite) : Option (PhysReg × Word) :=
  if x.guard.holds c then (x.reg.resolve c).map (fun q => (q, x.value.eval c)) else none

def writeResults (c : OtherArgs) (xs : List OtherWrite) : RegWrites := xs.filterMap (OtherWrite.result c)

def State.writePhys (s : State) (l : RegWrites) : State :=
  { s with regs := l.foldl (fun r x => r.set x.1 x.2) s.regs }

/-- The SPSR of the current mode. -/
def State.writeSpsr? (s : State) (v : Option Word) : State :=
  match s.bank, v with
  | some m, some p => { s with spsrs := s.spsrs.set m p }
  | _, _ => s

/-- Write-back of a completed instruction. -/
def OtherEffect.baseWritten (e : OtherEffect) (c : OtherArgs) : RegWrites :=
  match e.base.resolve c, e.writeBack with
  | some q, some v => [(q, v.eval c)]
  | _, _ => []

/-- The base after an abort: its written-back or its original value (R141 item 4). -/
def OtherEffect.baseAfterAbort (e : OtherEffect) (c : OtherArgs) : RegWrites :=
  match e.base.resolve c with
  | none => []
  | some q =>
    match e.writeBack with
    | some v => [(q, if e.restoresBase then c.s.regs.get q else v.eval c)]
    | none => [(q, c.s.regs.get q)]

/-! ## Accesses (R141 item 5) -/

/-- How the accesses of an instruction end: all completed, with the registers the loads write and the values read; or one
aborted, with the registers the loads before it write. -/
inductive OtherRun where
  | done (writes : RegWrites) (loaded : List Word) (s : State)
  | aborted (writes : RegWrites) (s : State)
  | refused (r : Refusal)

/-- The registers of a load put before those of the later ones. -/
def OtherRun.cons (ws : RegWrites) : OtherRun → OtherRun
  | .done writes loaded s => .done (ws ++ writes) loaded s
  | .aborted writes s => .aborted (ws ++ writes) s
  | .refused r => .refused r

/-- After a store that aborted, what the stores still to come address holds draws (the pattern of 42_data_transfer.md
R120, D7), as `scrambleBlock` does for STM. -/
def otherScramble (c : OtherArgs) : List OtherAccess → State → OtherRun
  | [], s => .aborted [] s
  | a :: rest, s =>
    match a.transfer with
    | .load _ => otherScramble c rest s
    | .store _ =>
      let at_ := a.addr.eval c
      if ¬ a.guard.holds c then otherScramble c rest s
      else if ¬ AlignedTo a.width.bytes at_ then .refused .misaligned
      else if s.touches .code a.width at_ then .refused .storeToCode
      else otherScramble c rest (s.scramble a.width at_)

/-- Accesses in order, through `MemRead` and `MemWrite`. After a load that aborted none is made (the patterns of
42_data_transfer.md R116 and R119). `st` is the state before the instruction. -/
def otherAccesses (st : State) (w : Word) : List OtherAccess → List Word → State → OtherRun
  | [], loaded, s => .done [] loaded s
  | a :: rest, loaded, s =>
    let c : OtherArgs := ⟨st, w, loaded⟩
    if a.guard.holds c then
      match a.transfer with
      | .load ws =>
        match memRead a.width (a.addr.eval c) s with
        | .refused r => .refused r
        | .abort t => .aborted [] t
        | .ok v t => (otherAccesses st w rest (loaded ++ [v]) t).cons (writeResults ⟨st, w, loaded ++ [v]⟩ ws)
      | .store v =>
        match memWrite a.width (a.addr.eval c) (v.eval c) s with
        | .refused r => .refused r
        | .abort t => otherScramble c rest t
        | .ok () t => otherAccesses st w rest (loaded ++ [0#32]) t
    else otherAccesses st w rest (loaded ++ [0#32]) s

/-! ## The contract (R141) -/

/-- An address an exception enters at (60_exceptions.md R153). -/
def isVector (a : Word) : Bool :=
  [Exc.reset, .udef, .swi, .pabt, .dabt, .irq, .fiq].any (fun e => a == e.vector)

/-- BX, whose encodings the spec does not give. PRESUMED (log 22). -/
def isBx (thumb : Bool) (w : Word) : Bool :=
  if thumb then w &&& 0xFF87#32 == 0x4700#32 else w &&& 0x0FFFFFF0#32 == 0x012FFF10#32

/-- Item 1: no r14 of another mode is written. -/
def writesAllowed (b : Bank) (l : RegWrites) : Bool :=
  l.all (fun x => match x.1 with
    | .lr b' => b' == b
    | _ => true)

/-- Items 1 to 3: no jump to a vector; in User mode no bit of CPSR[7:0] changes but T, and T only by BX; no illegal
mode; no SPSR written in a mode without one. -/
def statusAllowed (s : State) (w cpsr : Word) (spsr : Option Word) (pc : Word) : Bool :=
  (pc == s.pc + BitVec.ofNat 32 s.instrSize || !isVector pc) &&
  (!userMode s.cpsr ||
    (cpsr &&& 0xDF#32 == s.cpsr &&& 0xDF#32 && (psrT cpsr == psrT s.cpsr || isBx s.thumb w))) &&
  legalMode cpsr && (spsr.isNone || s.bank.isSome)

/-! ## The outcome (R140) -/

/-- `DataAbort(state')`: the registers of the loads before the abort and the base, and the Data Abort. -/
def finishAborted (writes : RegWrites) (st t : State) : Result :=
  if writesAllowed st.bank writes then raise .dabt (t.writePhys writes) else .refused .execOtherContract

/-- `Next(state')`. -/
def finishOther (writes : RegWrites) (w cpsr : Word) (spsr : Option Word) (pc : Word) (st t : State) : Result :=
  if writesAllowed st.bank writes && statusAllowed st w cpsr spsr pc then
    setPc pc { (t.writePhys writes).writeSpsr? spsr with cpsr := cpsr }
  else .refused .execOtherContract

def runEffect (e : OtherEffect) (w : Word) (st : State) : Result :=
  let c : OtherArgs := ⟨st, w, []⟩
  match otherAccesses st w e.accesses [] st with
  | .refused r => .refused r
  | .aborted writes t => finishAborted (writes ++ e.baseAfterAbort c) st t
  | .done writes loaded t =>
    let d : OtherArgs := ⟨st, w, loaded⟩
    finishOther (e.baseWritten c ++ writes ++ writeResults d e.regs) w (e.cpsr.eval d) (e.spsr.map (OtherExpr.eval d))
      (e.pc.eval d) st t

def applyOther (o : OtherOutcome) (w : Word) (s : State) : Result :=
  match o with
  | .run e => runEffect e w s
  | .undefined => raise .udef s
  | .refuse reason => .refused (.execOtherRefused reason)

/-- The rule is for the instruction `w` at the pc. -/
def OtherRule.answers (r : OtherRule) (w : Word) (s : State) : Bool :=
  r.thumb == s.thumb && w &&& r.mask == r.bits && r.guard.holds ⟨s, w, []⟩

/-- `ExecOther(state, w, A, T)` and what the cycle does with its outcome (R140); the default refuses (R141). -/
def execOther (w : Word) (s : State) : Result :=
  match s.platform.execOther.find? (fun r => r.answers w s) with
  | some r => applyOther r.outcome w s
  | none => .refused .instructionNotInSpec

end Sys2Proof.Machine
end

