-- ==== Sys2Proof/Machine/Cycle.lean ====
section
/-! DEFINITION. The instruction cycle (60_exceptions.md R178), and where an instruction has to be placed for
the cycle to fetch it. -/

namespace Sys2Proof.Machine

/-! ## The instruction boundary -/

/-- `resetAsserted` at this boundary (R178 step 1). -/
def State.resetNow (s : State) : Bool := s.inputs.reset.headD false

/-- An FIQ is requested and not masked (R160). -/
def State.fiqNow (s : State) : Bool := !psrF s.cpsr && s.inputs.fiq.headD .high == .low

/-- An IRQ is requested and not masked (R163). -/
def State.irqNow (s : State) : Bool := !psrI s.cpsr && s.inputs.irq.headD .high == .low

/-- The state once the three lines have been looked at (log 2). -/
def State.passBoundary (s : State) : State :=
  { s with
    inputs :=
      { s.inputs with
        reset := s.inputs.reset.tail, fiq := s.inputs.fiq.tail, irq := s.inputs.irq.tail } }

/-- The run ends before the instruction at `haltAddr` (R207). -/
def State.halted (s : State) : Bool := s.platform.haltAddr == some s.pc

/-! ## One instruction -/

/-- What the decoder found in an instruction fetched without abort (R178 steps 5 and 7). -/
def runDecoded (d : Decoded) (s : State) : Result :=
  match d with
  | .instr i => exec i s
  | .other c w => whenPassed c s (execOther w s)
  | .refused _ => .refused .condNv

/-- The bits fetched, in the state they belong to (30_encoding.md R71). -/
def fetchedCode (thumb : Bool) (w : Word) : Code := if thumb then .thumb (w.setWidth 16) else .arm w

/-- The width of a fetch (20_memory.md R57). -/
def fetchWidth (thumb : Bool) : Width := if thumb then .half else .word

/-- An instruction whose fetch was aborted (R166, D5): in ARM state the condition of bits nobody knows is
tested, one free bit; if it fails the instruction is skipped. -/
def runAborted (s : State) : Result :=
  if s.thumb then raise .pabt s
  else if Config.freeBit s.draws then raise .pabt (s.drew 1) else .next (s.drew 1).advanceArm

/-- R178 steps 4 to 9. -/
def fetchAndRun (s : State) : Result :=
  match fetch (fetchWidth s.thumb) s.pc s with
  | .refused r => .refused r
  | .abort t => runAborted t
  | .ok w t => runDecoded (decode (fetchedCode s.thumb w)) t

/-- R178, the whole cycle: the end of the run, Reset, FIQ, IRQ, the instruction. -/
def cycle (s : State) : Result :=
  if s.halted then .fault .runEnded
  else if s.resetNow then raise .reset s.passBoundary
  else if s.fiqNow then raise .fiq s.passBoundary
  else if s.irqNow then raise .irq s.passBoundary
  else fetchAndRun s.passBoundary

/-! ## Placing an instruction -/

/-- `s` with an instruction of `nbits` bits stored where the next fetch reads it: at the pc, with the T bit
that selects its decoder (30_encoding.md R71) and the pc a multiple of its size (10_state.md R26). -/
def placeFetchWord (s : State) (nbits w : Nat) : State :=
  let thumb : Bool := decide (nbits ≤ 16)
  let pc := if thumb then s.pc &&& ~~~1#32 else s.pc &&& ~~~3#32
  ({ s with cpsr := withBit s.cpsr 5 thumb, pc := pc }).storeValue (fetchWidth thumb) pc (BitVec.ofNat 32 w)

end Sys2Proof.Machine
end

