-- ==== Sys2Proof/Safety.lean ====
section
/-! DEFINITION. What counts as a sound state and a safe run. -/

namespace Sys2Proof.Machine

/-- The pc suits the state the T bit selects (10_state.md R26). -/
def State.pcAligned (s : State) : Prop := AlignedTo s.instrSize s.pc

/-- The invariant every step keeps: a legal mode (10_state.md R28, D11), a pc that suits the T bit (R26), memory
in its canonical form. -/
structure State.Sound (s : State) : Prop where
  mode : legalMode s.cpsr = true
  pc : s.pcAligned
  mem : Memory.wf s.mem = true

/-- No reset, FIQ or IRQ is taken at the boundary before the next instruction, and the run has not ended: the
step fetches (60_exceptions.md R178 steps 0 to 3). -/
structure State.Quiet (s : State) : Prop where
  halted : s.halted = false
  reset : s.resetNow = false
  fiq : s.fiqNow = false
  irq : s.irqNow = false

/-- The step ends in a next state. -/
def State.Steps (s : State) : Prop := ∃ t, step s = .next t

end Sys2Proof.Machine
end

