-- ==== Sys2Proof/Certificates/Slice0/Obligations.lean ====
section
/-! DEFINITION. The statements about the model, from the numbered rules of spec/, and the words they are made
of. -/

namespace Sys2Proof.Machine

/-! ## Words the statements use -/

/-- Number `n` names the physical register `q` in the mode of `s` (10_state.md R22). -/
def State.names (s : State) (n : RegNum) (q : PhysReg) : Prop := physReg s.bank n = some q

/-- Every byte of memory reads as before, and no device was written. -/
def SameMemory (s t : State) : Prop :=
  (∀ a, Memory.read t.mem a = Memory.read s.mem a) ∧ t.deviceLog = s.deviceLog

/-- Every byte outside the access of width `w` at `a` reads as before, and no device was written. -/
def SameMemoryOutside (w : Width) (a : Word) (s t : State) : Prop :=
  (∀ c, c < a.toNat ∨ a.toNat + w.bytes ≤ c → Memory.read t.mem c = Memory.read s.mem c) ∧
    t.deviceLog = s.deviceLog

/-- Every physical register is as before. -/
def SameRegs (s t : State) : Prop := ∀ q, t.regs.get q = s.regs.get q

/-- The status registers are as before. -/
def SameStatus (s t : State) : Prop := t.cpsr = s.cpsr ∧ t.spsrs = s.spsrs

/-- Register `rd` holds `v`; every other physical register is as before. -/
def OnlyReg (rd : RegNum) (v : Word) (s t : State) : Prop :=
  (∀ q, s.names rd q → t.regs.get q = v) ∧ (∀ q, ¬ s.names rd q → t.regs.get q = s.regs.get q)

/-- The flags of `q` are these, and its other bits are those of `p`. -/
def FlagsOnly (n z c v : Bool) (p q : Word) : Prop :=
  q.getLsbD 31 = n ∧ q.getLsbD 30 = z ∧ q.getLsbD 29 = c ∧ q.getLsbD 28 = v ∧ ∀ j, j < 28 → q.getLsbD j = p.getLsbD j

/-- `t` is `s` after an exception entry, the registers apart (60_exceptions.md R152): the pc at the vector,
the CPSR saved, the mode, I, F and T changed, everything else of the status registers as before. -/
structure EnteredStatus (vector : Word) (m : ExcMode) (setsF : Bool) (s t : State) : Prop where
  pc : t.pc = vector
  saved : t.spsrs.get m = s.cpsr
  otherSpsrs : ∀ n, n ≠ m → t.spsrs.get n = s.spsrs.get n
  mode : t.cpsr.setWidth 5 = m.mode.bits
  irq : t.cpsr.getLsbD 7 = true
  fiq : t.cpsr.getLsbD 6 = (setsF || s.cpsr.getLsbD 6)
  thumb : t.cpsr.getLsbD 5 = false
  rest : ∀ j, 8 ≤ j → t.cpsr.getLsbD j = s.cpsr.getLsbD j

/-- The whole entry: the return address in r14 of the mode entered and no other register changed. -/
structure Entered (vector : Word) (m : ExcMode) (link : Word) (setsF : Bool) (s t : State) : Prop where
  status : EnteredStatus vector m setsF s t
  link : t.regs.get (.lr (some m)) = link
  otherRegs : ∀ q, q ≠ .lr (some m) → t.regs.get q = s.regs.get q
  memory : SameMemory s t

/-- The condition of an ARM instruction. -/
def condOf : Instr → Option Cond
  | .b c _ | .bl c _ | .swi c _ | .udef c _ _ => some c
  | .ldrImmPre c _ _ _ _ _ | .ldrImmPost c _ _ _ _ | .ldrRegPre c _ _ _ _ _ _ _ | .ldrRegPost c _ _ _ _ _ _ => some c
  | .ldrbImmPre c _ _ _ _ _ | .ldrbImmPost c _ _ _ _ | .ldrbRegPre c _ _ _ _ _ _ _ | .ldrbRegPost c _ _ _ _ _ _ => some c
  | .strImmPre c _ _ _ _ _ | .strImmPost c _ _ _ _ | .strRegPre c _ _ _ _ _ _ _ | .strRegPost c _ _ _ _ _ _ => some c
  | .strbImmPre c _ _ _ _ _ | .strbImmPost c _ _ _ _ | .strbRegPre c _ _ _ _ _ _ _ | .strbRegPost c _ _ _ _ _ _ => some c
  | .ldm c _ _ _ _ _ _ | .stm c _ _ _ _ _ _ | .swp c _ _ _ | .swpb c _ _ _ => some c
  | .cdp c _ _ _ _ _ _ | .mrc c _ _ _ _ _ _ | .mcr c _ _ _ _ _ _ | .ldc c _ _ _ _ _ _ _ _ | .stc c _ _ _ _ _ _ _ _ => some c
  | .mrs c _ _ | .msrReg c _ _ _ | .msrImm c _ _ _ _ => some c
  | .movReg c _ _ _ | .movsReg c _ _ _ | .movImm c _ _ _ _ | .movsImm c _ _ _ _ => some c
  | .subReg c _ _ _ | .subsReg c _ _ _ | .subImm c _ _ _ _ | .subsImm c _ _ _ _ => some c
  | .movPcR14 c | .movsPcR14 c | .subsPcR14Imm4 c | .subsPcR14Imm8 c | .ldrRdR14Minus8 c _ => some c
  | .thumbSwi _ | .thumbBlFirst _ | .thumbBlSecond _ | .thumbMovPcR14 => none

/-- A single transfer: its width, condition, address and register. -/
structure TransferForm where
  width : Width
  cond : Cond
  at_ : Addressing
  rd : RegNum

/-- The address of a pre-indexed form (30_encoding.md R77, P = 1). -/
def preForm (u w : Bool) (rn : RegNum) (o : Offset) : Addressing := { pre := true, up := u, w := w, rn := rn, offset := o }

/-- The address of a post-indexed form (R77, P = 0, W = 0). -/
def postForm (u : Bool) (rn : RegNum) (o : Offset) : Addressing := { pre := false, up := u, w := false, rn := rn, offset := o }

/-- LDR and LDRB in all their forms. -/
def loadForm : Instr → Option TransferForm
  | .ldrImmPre c u w rn rd i => some ⟨.word, c, preForm u w rn (.imm i), rd⟩
  | .ldrImmPost c u rn rd i => some ⟨.word, c, postForm u rn (.imm i), rd⟩
  | .ldrRegPre c u w rn rd n t rm => some ⟨.word, c, preForm u w rn (.reg n t rm), rd⟩
  | .ldrRegPost c u rn rd n t rm => some ⟨.word, c, postForm u rn (.reg n t rm), rd⟩
  | .ldrbImmPre c u w rn rd i => some ⟨.byte, c, preForm u w rn (.imm i), rd⟩
  | .ldrbImmPost c u rn rd i => some ⟨.byte, c, postForm u rn (.imm i), rd⟩
  | .ldrbRegPre c u w rn rd n t rm => some ⟨.byte, c, preForm u w rn (.reg n t rm), rd⟩
  | .ldrbRegPost c u rn rd n t rm => some ⟨.byte, c, postForm u rn (.reg n t rm), rd⟩
  | .ldrRdR14Minus8 c rd => some ⟨.word, c, preForm false false 14#4 (.imm 8#12), rd⟩
  | _ => none

/-- STR and STRB in all their forms. -/
def storeForm : Instr → Option TransferForm
  | .strImmPre c u w rn rd i => some ⟨.word, c, preForm u w rn (.imm i), rd⟩
  | .strImmPost c u rn rd i => some ⟨.word, c, postForm u rn (.imm i), rd⟩
  | .strRegPre c u w rn rd n t rm => some ⟨.word, c, preForm u w rn (.reg n t rm), rd⟩
  | .strRegPost c u rn rd n t rm => some ⟨.word, c, postForm u rn (.reg n t rm), rd⟩
  | .strbImmPre c u w rn rd i => some ⟨.byte, c, preForm u w rn (.imm i), rd⟩
  | .strbImmPost c u rn rd i => some ⟨.byte, c, postForm u rn (.imm i), rd⟩
  | .strbRegPre c u w rn rd n t rm => some ⟨.byte, c, preForm u w rn (.reg n t rm), rd⟩
  | .strbRegPost c u rn rd n t rm => some ⟨.byte, c, postForm u rn (.reg n t rm), rd⟩
  | _ => none

/-- Write-back is specified exactly when P = 0 or W = 1 (R77). -/
def WritesBack (a : Addressing) : Prop := a.pre = false ∨ a.w = true

/-- The operands 42_data_transfer.md R110 refuses. -/
def TransferOperandsRefused (a : Addressing) (rd : RegNum) : Prop :=
  (WritesBack a ∧ a.rn = 15#4) ∨ a.offset.reg? = some 15#4 ∨ (WritesBack a ∧ a.offset.reg? = some a.rn) ∨
    (WritesBack a ∧ rd = a.rn)

/-- An aligned access to memory or code that ABORT does not answer. -/
def ReadReady (w : Width) (a : Word) (s : State) : Prop :=
  AlignedTo w.bytes a ∧ s.abortNext = false ∧ s.touches .nothing w a = false ∧ s.touches .device w a = false

/-- An aligned write to ordinary memory that ABORT does not answer. -/
def WriteReady (w : Width) (a : Word) (s : State) : Prop :=
  AlignedTo w.bytes a ∧ s.abortNext = false ∧ s.touches .code w a = false ∧ s.touches .nothing w a = false ∧
    s.touches .device w a = false

/-- An aligned write that meets a device, no code region and no empty address, and that ABORT does not answer. -/
def DeviceWriteReady (w : Width) (a : Word) (s : State) : Prop :=
  AlignedTo w.bytes a ∧ s.abortNext = false ∧ s.touches .code w a = false ∧ s.touches .nothing w a = false ∧
    s.touches .device w a = true

/-- After a write of `v` that met a device: one write recorded, the access's bytes in ordinary memory stored, every other
byte as before (20_memory.md R56, R64; log 9, 10). -/
def DeviceWritten (w : Width) (a v : Word) (s t : State) : Prop :=
  t.deviceLog = s.deviceLog ++ [⟨a, w, w.truncate v⟩] ∧
  (∀ i, i < w.bytes → kindAt s.platform.memMap (a.toNat + i) = .memory →
    Memory.read t.mem (a.toNat + i) = (toBytes s.platform.bigEndian w.bytes v).getD i 0#8) ∧
  ∀ c, c < a.toNat ∨ a.toNat + w.bytes ≤ c ∨ kindAt s.platform.memMap c ≠ .memory →
    Memory.read t.mem c = Memory.read s.mem c

/-- After write-back where it is specified: the base register holds `idx`, every other register is as
before; where it is not, all are. -/
def BaseWrittenBack (a : Addressing) (idx : Word) (s : State) (q : PhysReg) (v : Word) : Prop :=
  (WritesBack a → s.names a.rn q → v = idx) ∧ (¬ (WritesBack a ∧ s.names a.rn q) → v = s.regs.get q)

/-- SWP and SWPB: width, condition, Rn, Rd, Rm. -/
def swapForm : Instr → Option (Width × Cond × RegNum × RegNum × RegNum)
  | .swp c rn rd rm => some (.word, c, rn, rd, rm)
  | .swpb c rn rd rm => some (.byte, c, rn, rd, rm)
  | _ => none

/-- The coprocessor instructions. -/
def isCoprocessor : Instr → Prop
  | .cdp .. | .mrc .. | .mcr .. | .ldc .. | .stc .. => True
  | _ => False

/-- The forms that may store to memory: STR, STRB, STM, SWP, SWPB. -/
def mayStore (i : Instr) : Prop := (storeForm i).isSome ∨ (swapForm i).isSome ∨ ∃ c p u b w rn l, i = .stm c p u b w rn l

/-- The address of the word at place `k` of a block. -/
def blockWord (start : Word) (k : Nat) : Word := start + BitVec.ofNat 32 (4 * k)

/-- The number of registers in a list, `n` of 42_data_transfer.md R117. -/
def blockCount (list : BitVec 16) : Nat := (registersOf list).length

/-- `start` of R117 in its own words. -/
def startOf (p u : Bool) (base : Word) (n : Nat) : Word :=
  if u then (if p then base + 4#32 else base)
  else if p then base - BitVec.ofNat 32 (4 * n) else base - BitVec.ofNat 32 (4 * n) + 4#32

/-- `wbval` of R117 in its own words. -/
def finalOf (u : Bool) (base : Word) (n : Nat) : Word :=
  if u then base + BitVec.ofNat 32 (4 * n) else base - BitVec.ofNat 32 (4 * n)

/-- The first `k` words of a block can be read, from memory, code or devices, and ABORT answers none of those accesses. -/
def BlockReadable (start : Word) (k : Nat) (s : State) : Prop :=
  AlignedTo 4 start ∧ ∀ j, j < k →
    s.inputs.aborts.getD j false = false ∧ s.touches .nothing .word (blockWord start j) = false

/-- The first `k` words of a block can be stored, to memory or devices, and ABORT answers none of those accesses. -/
def BlockWritable (start : Word) (k : Nat) (s : State) : Prop :=
  AlignedTo 4 start ∧ ∀ j, j < k →
    s.inputs.aborts.getD j false = false ∧ s.touches .code .word (blockWord start j) = false ∧
      s.touches .nothing .word (blockWord start j) = false

/-- No byte of the word at place `k` of a block is a device's. -/
def NoDeviceAt (start : Word) (k : Nat) (s : State) : Prop := s.touches .device .word (blockWord start k) = false

/-- What devices record when the registers `rs` of a bank are stored to a block: the words that meet a device, in order. -/
def deviceWrites (s : State) (bank : Bank) (rs : List RegNum) (start : Word) : List DeviceWrite :=
  rs.zipIdx.filterMap fun x =>
    if s.touches .device .word (blockWord start x.2) then some ⟨blockWord start x.2, .word, s.readBank bank x.1⟩ else none

/-- The operands R117 refuses, for an LDM executed in the mode of `st`. -/
def LdmRefused (s w : Bool) (rn : RegNum) (list : BitVec 16) (st : State) : Prop :=
  rn = 15#4 ∨ list = 0#16 ∨ (w = true ∧ list.getLsbD rn.toNat = true) ∨ (s = true ∧ st.bank = none) ∨
    (s = true ∧ w = true ∧ list.getLsbD 15 = false)

/-- The operands R118 refuses, for an STM executed in the mode of `st`. -/
def StmRefused (s w : Bool) (rn : RegNum) (list : BitVec 16) (st : State) : Prop :=
  rn = 15#4 ∨ list = 0#16 ∨ list.getLsbD 15 = true ∨
    (w = true ∧ list.getLsbD rn.toNat = true ∧ ∃ j, j < rn.toNat ∧ list.getLsbD j = true) ∨
    (s = true ∧ st.bank = none) ∨ (s = true ∧ w = true)

/-- A byte of none of the first `n` words of a block, or not of ordinary memory. -/
def OutsideBlock (start : Word) (n : Nat) (s : State) (c : Nat) : Prop :=
  (∀ j, j < n → c < (blockWord start j).toNat ∨ (blockWord start j).toNat + 4 ≤ c) ∨ kindAt s.platform.memMap c ≠ .memory

/-! ### ExecOther (45_other_instructions.md) -/

/-- What a register holds after writes: the last value written to it. -/
def lastWrite (l : RegWrites) (q : PhysReg) (v : Word) : Word := l.foldl (fun v x => if x.1 = q then x.2 else v) v

/-- R141 item 1: no r14 of another mode. -/
def WritesNoOtherLink (s : State) (l : RegWrites) : Prop := ∀ b v, (PhysReg.lr b, v) ∈ l → b = s.bank

/-- R141 items 1 to 3, of a completed instruction: the registers, the CPSR, the SPSR and the pc it leaves. -/
def KeepsContract (s : State) (w : Word) (l : RegWrites) (cpsr : Word) (spsr : Option Word) (pc : Word) : Prop :=
  WritesNoOtherLink s l ∧
  (pc = s.pc + (if s.thumb then 2#32 else 4#32) ∨
    (pc ≠ 0x00#32 ∧ pc ≠ 0x04#32 ∧ pc ≠ 0x08#32 ∧ pc ≠ 0x0C#32 ∧ pc ≠ 0x10#32 ∧ pc ≠ 0x18#32 ∧ pc ≠ 0x1C#32)) ∧
  (s.cpsr.setWidth 5 = 0b10000#5 → ∀ j, j < 8 →
    cpsr.getLsbD j = s.cpsr.getLsbD j ∨ (j = 5 ∧ isBx s.thumb w = true)) ∧
  legalMode cpsr = true ∧ (spsr = none ∨ s.bank ≠ none)

/-- What the accesses of an instruction come to: each is a `MemRead` or a `MemWrite` (R141 item 5), a value read is there
for what follows, an abort ends them. -/
def AccessesArePrimitives (st : State) (w : Word) (a : OtherAccess) (rest : List OtherAccess) (loaded : List Word)
    (s : State) : Prop :=
  let c : OtherArgs := ⟨st, w, loaded⟩
  let run := otherAccesses st w (a :: rest) loaded s
  (a.guard.holds c = false → run = otherAccesses st w rest (loaded ++ [0#32]) s) ∧
  (a.guard.holds c = true →
    (∀ ws, a.transfer = .load ws →
      (∀ v t, memRead a.width (a.addr.eval c) s = .ok v t →
        run = (otherAccesses st w rest (loaded ++ [v]) t).cons (writeResults ⟨st, w, loaded ++ [v]⟩ ws)) ∧
      (∀ t, memRead a.width (a.addr.eval c) s = .abort t → run = .aborted [] t) ∧
      (∀ r, memRead a.width (a.addr.eval c) s = .refused r → run = .refused r)) ∧
    (∀ v, a.transfer = .store v →
      (∀ t, memWrite a.width (a.addr.eval c) (v.eval c) s = .ok () t →
        run = otherAccesses st w rest (loaded ++ [0#32]) t) ∧
      (∀ t, memWrite a.width (a.addr.eval c) (v.eval c) s = .abort t → run = otherScramble c rest t) ∧
      (∀ r, memWrite a.width (a.addr.eval c) (v.eval c) s = .refused r → run = .refused r)))

/-- MOV and MOVS: condition, S, Rd, operand 2 and the shifter carry-out (30_encoding.md R75), read in `s`. -/
def movForm (s : State) : Instr → Option (Cond × Bool × RegNum × Word × Bool)
  | .movReg c _ rd rm => some (c, false, rd, s.readReg rm, s.cpsr.getLsbD 29)
  | .movsReg c _ rd rm => some (c, true, rd, s.readReg rm, s.cpsr.getLsbD 29)
  | .movImm c _ rd rot imm => some (c, false, rd, immValue rot imm, immCarry s rot imm)
  | .movsImm c _ rd rot imm => some (c, true, rd, immValue rot imm, immCarry s rot imm)
  | .movPcR14 c => some (c, false, 15#4, s.readReg 14#4, s.cpsr.getLsbD 29)
  | .movsPcR14 c => some (c, true, 15#4, s.readReg 14#4, s.cpsr.getLsbD 29)
  | _ => none
where
  /-- `ROR(zext_32(imm8), 2 * rot)`. -/
  immValue (rot : BitVec 4) (imm : BitVec 8) : Word := (imm.setWidth 32).rotateRight (2 * rot.toNat)
  /-- The old C when `rot = 0`, bit 31 of the operand otherwise. -/
  immCarry (s : State) (rot : BitVec 4) (imm : BitVec 8) : Bool :=
    if rot = 0#4 then s.cpsr.getLsbD 29 else (immValue rot imm).getLsbD 31

/-- SUB and SUBS: condition, S, Rd, the first operand and operand 2, read in `s`. -/
def subForm (s : State) : Instr → Option (Cond × Bool × RegNum × Word × Word)
  | .subReg c rn rd rm => some (c, false, rd, s.readReg rn, s.readReg rm)
  | .subsReg c rn rd rm => some (c, true, rd, s.readReg rn, s.readReg rm)
  | .subImm c rn rd rot imm => some (c, false, rd, s.readReg rn, movForm.immValue rot imm)
  | .subsImm c rn rd rot imm => some (c, true, rd, s.readReg rn, movForm.immValue rot imm)
  | .subsPcR14Imm4 c => some (c, true, 15#4, s.readReg 14#4, 4#32)
  | .subsPcR14Imm8 c => some (c, true, 15#4, s.readReg 14#4, 8#32)
  | _ => none

/-- A MOV or SUB with the pc as destination (40_exception_return.md R90): condition, S and result. -/
def PcResult (s : State) (i : Instr) (c : Cond) (setsFlags : Bool) (result : Word) : Prop :=
  (∃ carry, movForm s i = some (c, setsFlags, 15#4, result, carry)) ∨
    ∃ a b, subForm s i = some (c, setsFlags, 15#4, a, b) ∧ result = a - b

end Sys2Proof.Machine

open Sys2Proof Sys2Proof.Machine

/-! ## Encoding -/

/-- Decoding an encoded well-formed instruction gives it back (30_encoding.md sections 2, 3 and 5). -/
def Obligations.DecodeEncodeGivesInstruction : Prop :=
  ∀ i : Instr, i.wellFormed = true → decode (encode i) = .instr i

/-- An instruction the decoder answers is well formed, and its encoding is the word it was decoded from: no
bit is dropped (30_encoding.md section 5). -/
def Obligations.DecodedInstructionEncodesBack : Prop :=
  ∀ (x : Code) (i : Instr), decode x = .instr i → i.wellFormed = true ∧ encode i = x

/-- At most one of the general rows of the opcode table matches a word (30_encoding.md section 5). -/
def Obligations.GeneralRowsNeverOverlap : Prop :=
  generalRows.length = 40 ∧
    generalRows.Pairwise (fun r r' => ∀ w : Word, ¬ (w &&& r.mask = r.bits ∧ w &&& r'.mask = r'.bits))

/-- Words the spec writes out decode to the instructions it says they are (30_encoding.md, R91 to R96, R100 to R103, R111, R112,
R114, R115, R117, R118, R125, R126, R128, R135, R136; 95_test_vectors.md V56). -/
def Obligations.WordsOfTheSpecDecode : Prop :=
  decode (.arm 0xE1A00001#32) = .instr (.movReg .al 0#4 0#4 1#4) ∧
  decode (.arm 0xE3B00000#32) = .instr (.movsImm .al 0#4 0#4 0#4 0#8) ∧
  decode (.arm 0xE2400004#32) = .instr (.subImm .al 0#4 0#4 0#4 4#8) ∧
  decode (.arm 0xE0532004#32) = .instr (.subsReg .al 3#4 2#4 4#4) ∧
  decode (.arm 0xE1A0F00E#32) = .instr (.movPcR14 .al) ∧
  decode (.arm 0xE1B0F00E#32) = .instr (.movsPcR14 .al) ∧
  decode (.arm 0xE25EF004#32) = .instr (.subsPcR14Imm4 .al) ∧
  decode (.arm 0xE25EF008#32) = .instr (.subsPcR14Imm8 .al) ∧
  decode (.arm 0xEB00003E#32) = .instr (.bl .al 0x3E#24) ∧
  decode (.arm 0xEA000006#32) = .instr (.b .al 6#24) ∧
  decode (.arm 0xE4910004#32) = .instr (.ldrImmPost .al true 1#4 0#4 4#12) ∧
  decode (.arm 0xE5A10004#32) = .instr (.strImmPre .al true true 1#4 0#4 4#12) ∧
  decode (.arm 0xE51E0008#32) = .instr (.ldrRdR14Minus8 .al 0#4) ∧
  decode (.arm 0xE1010092#32) = .instr (.swp .al 1#4 0#4 2#4) ∧
  decode (.arm 0xE8BD0003#32) = .instr (.ldm .al false true false true 13#4 0x0003#16) ∧
  decode (.arm 0xE92D0003#32) = .instr (.stm .al true false false true 13#4 0x0003#16) ∧
  decode (.arm 0xEF000011#32) = .instr (.swi .al 0x11#24) ∧
  decode (.arm 0xE7F000F0#32) = .instr (.udef .al 0xF8007#20 0#4) ∧
  decode (.arm 0xEE000100#32) = .instr (.cdp .al 0#4 0#4 0#4 1#4 0#3 0#4) ∧
  decode (.arm 0xE10F0000#32) = .instr (.mrs .al false 0#4) ∧
  decode (.arm 0xE16FF000#32) = .instr (.msrReg .al true 0b1111#4 0#4) ∧
  decode (.arm 0xE321F0D3#32) = .instr (.msrImm .al false 0b0001#4 0#4 0xD3#8) ∧
  decode (.thumb 0xDF11#16) = .instr (.thumbSwi 0x11#8) ∧
  decode (.thumb 0xF000#16) = .instr (.thumbBlFirst 0#11) ∧
  decode (.thumb 0xF87E#16) = .instr (.thumbBlSecond 0x7E#11) ∧
  decode (.thumb 0x46F7#16) = .instr .thumbMovPcR14

/-! ## Conditions -/

/-- The condition table (30_encoding.md R73), and 1111 refused: by the decoder, and by a step whose fetch
brings it in ARM state. -/
def Obligations.ConditionTable : Prop :=
  (∀ p : Word,
    let n := p.getLsbD 31
    let z := p.getLsbD 30
    let c := p.getLsbD 29
    let v := p.getLsbD 28
    let holds := fun (f : BitVec 4) (b : Prop) => ∃ k, Cond.ofBits f = some k ∧ (condPassed k p = true ↔ b)
    holds 0b0000#4 (z = true) ∧ holds 0b0001#4 (z = false) ∧ holds 0b0010#4 (c = true) ∧ holds 0b0011#4 (c = false) ∧
    holds 0b0100#4 (n = true) ∧ holds 0b0101#4 (n = false) ∧ holds 0b0110#4 (v = true) ∧ holds 0b0111#4 (v = false) ∧
    holds 0b1000#4 (c = true ∧ z = false) ∧ holds 0b1001#4 (c = false ∨ z = true) ∧
    holds 0b1010#4 (n = v) ∧ holds 0b1011#4 (n ≠ v) ∧
    holds 0b1100#4 (z = false ∧ n = v) ∧ holds 0b1101#4 (z = true ∨ n ≠ v) ∧ holds 0b1110#4 True) ∧
  (∀ w : Word, w.extractLsb' 28 4 = 0b1111#4 → decode (.arm w) = .refused .condNv) ∧
  (∀ s : State, s.Quiet → s.thumb = false → ReadReady .word s.pc s →
    (s.memValue .word s.pc).extractLsb' 28 4 = 0b1111#4 → step s = .refused .condNv)

/-- An ARM instruction whose condition fails does nothing but advance the pc (30_encoding.md R72, 43 R125,
R128). -/
def Obligations.FailedConditionOnlyAdvances : Prop :=
  ∀ (i : Instr) (c : Cond) (s : State), condOf i = some c → condPassed c s.cpsr = false →
    exec i s = .next { s with pc := s.pc + 4#32 }

/-! ## The step -/

/-- A step at which nothing is taken, be it that nothing is requested or that the request is masked (R160, R163),
fetches the instruction at the pc and is `exec` of it; the state it runs in differs from `s` only in the answers of the
environment used up (60_exceptions.md R178). A word outside the table goes, with the fetched bits and their condition, to
`ExecOther` in that state (45_other_instructions.md R140), and only the pc advances if the condition fails (30_encoding.md R72).
A misaligned pc (10_state.md R26), a fetch from a device, and one from an address with nothing that ABORT does not answer
(20_memory.md R64) are refused; that a device is refused whatever ABORT answers is the model's reading (log 7). -/
def Obligations.StepRunsInstructionAtPc : Prop :=
  (∀ s : State, s.Quiet → ReadReady (if s.thumb then .half else .word) s.pc s →
    let word := s.memValue .word s.pc
    let half := (s.memValue .half s.pc).setWidth 16
    let fetched := decode (if s.thumb then .thumb half else .arm word)
    let u : State :=
      { s with
        inputs :=
          { reset := s.inputs.reset.tail, fiq := s.inputs.fiq.tail, irq := s.inputs.irq.tail,
            aborts := s.inputs.aborts.tail } }
    (∀ i, fetched = .instr i → step s = exec i u) ∧
    ∀ c w, fetched = .other c w →
      step s = runDecoded (.other c w) u ∧ (condPassed c s.cpsr = false → step s = .next { u with pc := s.pc + 4#32 }) ∧
      (s.thumb = true → c = .al ∧ w = half.setWidth 32) ∧
      (s.thumb = false → Cond.ofBits (word.extractLsb' 28 4) = some c ∧ w = word)) ∧
  ∀ s : State, s.Quiet →
    let w := if s.thumb then Width.half else .word
    (¬ AlignedTo w.bytes s.pc → step s = .refused .misalignedPc) ∧
    (AlignedTo w.bytes s.pc →
      (s.touches .device w s.pc = true → step s = .refused .fetchFromDevice) ∧
      (s.touches .device w s.pc = false → s.abortNext = false → s.touches .nothing w s.pc = true →
        step s = .refused .unmapped))

/-- The run ends exactly when the next instruction is at `haltAddr`, and a step ends in a fault in no other case
(70_reset_and_hazards.md R207). That the end is a fault is the model's form (log 14). -/
def Obligations.FaultOnlyAtHaltAddress : Prop :=
  ∀ s : State, (∃ r, step s = .fault r) ↔ s.platform.haltAddr = some s.pc

/-- Reset is tested first and wins over everything else (60_exceptions.md R175, R178, 70_reset_and_hazards.md
R195, R196). Of the registers nothing is said: they hold free values (log 19). That memory and the device record are kept is the
model's choice (log 19): the spec calls memory after Reset unspecified (10_state.md R37). -/
def Obligations.ResetWins : Prop :=
  ∀ s : State, s.platform.haltAddr ≠ some s.pc → s.inputs.reset.head? = some true →
    ∃ t, step s = .next t ∧ t.pc = 0x00000000#32 ∧ t.cpsr.setWidth 8 = 0xD3#8 ∧ SameMemory s t ∧ t.platform = s.platform

/-- FIQ at an instruction boundary (60_exceptions.md R160, R153, R154). -/
def Obligations.FiqTakenWhenRequestedAndEnabled : Prop :=
  ∀ s : State, s.platform.haltAddr ≠ some s.pc → s.inputs.reset.head? ≠ some true →
    s.cpsr.getLsbD 6 = false → s.inputs.fiq.head? = some .low →
    ∃ t, step s = .next t ∧ Entered 0x0000001C#32 .fiq (s.pc + 4#32) true s t ∧ t.platform = s.platform

/-- IRQ at an instruction boundary at which no FIQ is taken (60_exceptions.md R163, R153, R154, R179). -/
def Obligations.IrqTakenWhenRequestedAndEnabled : Prop :=
  ∀ s : State, s.platform.haltAddr ≠ some s.pc → s.inputs.reset.head? ≠ some true →
    ¬ (s.cpsr.getLsbD 6 = false ∧ s.inputs.fiq.head? = some .low) →
    s.cpsr.getLsbD 7 = false → s.inputs.irq.head? = some .low →
    ∃ t, step s = .next t ∧ Entered 0x00000018#32 .irq (s.pc + 4#32) false s t ∧ t.platform = s.platform

/-- An instruction whose fetch is aborted: in Thumb state a Prefetch Abort; in ARM state that or, if the
condition of bits nobody knows fails, the instruction skipped and nothing else changed (60_exceptions.md R166, R167).
Which of the two is a free value. -/
def Obligations.AbortedFetchIsTakenOrSkipped : Prop :=
  ∀ s : State, s.Quiet → AlignedTo s.instrSize s.pc →
    s.touches .device (if s.thumb then .half else .word) s.pc = false → s.abortNext = true →
    ∃ t, step s = .next t ∧
      (Entered 0x0000000C#32 .abt (s.pc + 4#32) false s t ∨
        (s.thumb = false ∧ t.pc = s.pc + 4#32 ∧ SameRegs s t ∧ SameStatus s t ∧ SameMemory s t))

/-- The outcomes of `ExecOther` for an instruction outside the table whose condition passes (45_other_instructions.md R140,
R141, R142): the default refuses; Refuse; Undefined; Next, with what its accesses, registers, CPSR, SPSR and pc come to,
within the contract and refused outside it; DataAbort, with the registers loaded before the abort and the base at its
written-back or original value. That the parameter is a list of rules is the model's form (log 12), and so are the words
taken for BX (log 22). -/
def Obligations.ExecOtherOutcomes : Prop :=
  (∀ (st : State) (w : Word) (a : OtherAccess) (rest : List OtherAccess) (loaded : List Word) (s : State),
    AccessesArePrimitives st w a rest loaded s) ∧
  ∀ (s : State) (c : Cond) (w : Word), condPassed c s.cpsr = true →
    let run := runDecoded (.other c w) s
    let before : OtherArgs := ⟨s, w, []⟩
    ((∀ r, r ∈ s.platform.execOther → r.answers w s = false) → run = .refused .instructionNotInSpec) ∧
    ∀ r : OtherRule, s.platform.execOther.find? (fun x => x.answers w s) = some r →
      (∀ reason, r.outcome = .refuse reason → run = .refused (.execOtherRefused reason)) ∧
      (r.outcome = .undefined →
        ∃ t, run = .next t ∧ Entered 0x00000004#32 .und (s.pc + (if s.thumb then 2#32 else 4#32)) false s t) ∧
      ∀ e : OtherEffect, r.outcome = .run e →
        (∀ x, otherAccesses s w e.accesses [] s = .refused x → run = .refused x) ∧
        (∀ ws loaded t, otherAccesses s w e.accesses [] s = .done ws loaded t →
          let after : OtherArgs := ⟨s, w, loaded⟩
          let all := e.baseWritten before ++ ws ++ writeResults after e.regs
          let cpsr := e.cpsr.eval after
          let spsr := e.spsr.map (OtherExpr.eval after)
          let pc := e.pc.eval after
          let size := if cpsr.getLsbD 5 then 2 else 4
          (¬ KeepsContract s w all cpsr spsr pc → run = .refused .execOtherContract) ∧
          (KeepsContract s w all cpsr spsr pc →
            (pc.toNat % size ≠ 0 → run = .refused .misalignedPc) ∧
            (pc.toNat % size = 0 → ∃ u, run = .next u ∧ u.pc = pc ∧ u.cpsr = cpsr ∧ u.mem = t.mem ∧
              u.deviceLog = t.deviceLog ∧ u.platform = s.platform ∧
              (∀ m, u.spsrs.get m = if s.bank = some m then spsr.getD (s.spsrs.get m) else s.spsrs.get m) ∧
              ∀ q, u.regs.get q = lastWrite all q (s.regs.get q)))) ∧
        (∀ ws t, otherAccesses s w e.accesses [] s = .aborted ws t →
          let all := ws ++ e.baseAfterAbort before
          (¬ WritesNoOtherLink s all → run = .refused .execOtherContract) ∧
          (WritesNoOtherLink s all → ∃ u, run = .next u ∧ EnteredStatus 0x00000010#32 .abt false s u ∧
            u.regs.get (.lr (some .abt)) = s.pc + 8#32 ∧ u.mem = t.mem ∧ u.deviceLog = t.deviceLog ∧
            ∀ q, q ≠ .lr (some .abt) →
              (e.base.resolve before = some q →
                u.regs.get q = s.regs.get q ∨ ∃ v, e.writeBack = some v ∧ u.regs.get q = v.eval before) ∧
              (e.base.resolve before ≠ some q → u.regs.get q = lastWrite ws q (s.regs.get q))))

/-! ## Exceptions -/

/-- Vectors, modes, interrupt masks and saved addresses of every exception, and what entry leaves alone; the handler
starts in ARM state (60_exceptions.md R152, R153, R154, R155). Of Reset nothing is said about the registers; that it keeps
memory and the device record is the model's choice (log 19). -/
def Obligations.ExceptionEntryTable : Prop :=
  ∀ (a : Word) (s : State),
    let k := if s.thumb then 2#32 else 4#32
    Entered 0x00000004#32 .und (a + k) false s (takeException .udef a s) ∧
    Entered 0x00000008#32 .svc (a + k) false s (takeException .swi a s) ∧
    Entered 0x0000000C#32 .abt (a + 4#32) false s (takeException .pabt a s) ∧
    Entered 0x00000010#32 .abt (a + 8#32) false s (takeException .dabt a s) ∧
    Entered 0x00000018#32 .irq (a + 4#32) false s (takeException .irq a s) ∧
    Entered 0x0000001C#32 .fiq (a + 4#32) true s (takeException .fiq a s) ∧
    (takeException .reset a s).pc = 0x00000000#32 ∧ (takeException .reset a s).cpsr.setWidth 8 = 0xD3#8 ∧
    SameMemory s (takeException .reset a s)

/-- The return instruction of each exception undoes its entry from either state: SWI and Undefined resume at the
next instruction, the others at the same one, with the whole CPSR back (60_exceptions.md R157, R158, 40 R94 to R96). -/
def Obligations.ReturnInstructionUndoesEntry : Prop :=
  ∀ (s : State), legalMode s.cpsr = true → s.pcAligned →
    let back := fun (e : Exc) (i : Instr) (target : Word) =>
      ∃ u, exec i (takeException e s.pc s) = .next u ∧ u.pc = target ∧ u.cpsr = s.cpsr ∧ SameMemory s u ∧
        ∀ q, q ≠ .lr (some e.mode) → u.regs.get q = s.regs.get q
    let following := s.pc + (if s.thumb then 2#32 else 4#32)
    back .swi (.movsPcR14 .al) following ∧ back .udef (.movsPcR14 .al) following ∧
    back .pabt (.subsPcR14Imm4 .al) s.pc ∧ back .irq (.subsPcR14Imm4 .al) s.pc ∧ back .fiq (.subsPcR14Imm4 .al) s.pc ∧
    back .dabt (.subsPcR14Imm8 .al) s.pc

/-- A Data Abort entered while an enabled FIQ is requested: the FIQ is entered before any instruction of the abort
handler, the abort's return information is kept, and the return from the FIQ resumes the abort handler
(60_exceptions.md R177). -/
def Obligations.DataAbortThenFiq : Prop :=
  ∀ (s : State) (a : Word), s.cpsr.getLsbD 6 = false → s.platform.haltAddr ≠ some 0x00000010#32 →
    s.inputs.reset.head? ≠ some true → s.inputs.fiq.head? = some .low →
    let d := takeException .dabt a s
    ∃ t, step d = .next t ∧ t.pc = 0x0000001C#32 ∧
      t.regs.get (.lr (some .fiq)) = 0x00000014#32 ∧ t.spsrs.get .fiq = d.cpsr ∧
      t.regs.get (.lr (some .abt)) = a + 8#32 ∧ t.spsrs.get .abt = s.cpsr ∧
      t.cpsr.setWidth 5 = 0b10001#5 ∧ t.cpsr.getLsbD 7 = true ∧ t.cpsr.getLsbD 6 = true ∧
      ∃ u, exec (.subsPcR14Imm4 .al) t = .next u ∧ u.pc = 0x00000010#32 ∧ u.cpsr = d.cpsr ∧
        u.regs.get (.lr (some .abt)) = a + 8#32 ∧ u.spsrs.get .abt = s.cpsr

/-! ## MOV and SUB -/

/-- MOV and MOVS to a register other than 15 (40_exception_return.md R91): the words the rule writes out, register 15
as an operand, and then value, flags and frame. -/
def Obligations.MovWritesValueAndFlags : Prop :=
  decode (.arm 0xE1A00001#32) = .instr (.movReg .al 0#4 0#4 1#4) ∧
  decode (.arm 0xE3B00000#32) = .instr (.movsImm .al 0#4 0#4 0#4 0#8) ∧
  (∀ s : State, s.thumb = false → s.readReg 15#4 = s.pc + 8#32) ∧
  ∀ (s : State) (i : Instr) (c : Cond) (setsFlags : Bool) (rd : RegNum) (v : Word) (carry : Bool),
    movForm s i = some (c, setsFlags, rd, v, carry) → rd ≠ 15#4 → condPassed c s.cpsr = true →
    ∃ t, exec i s = .next t ∧ t = { s with pc := s.pc + 4#32, regs := t.regs, cpsr := t.cpsr } ∧ OnlyReg rd v s t ∧
      (setsFlags = true → FlagsOnly (v.getLsbD 31) (decide (v = 0#32)) carry (s.cpsr.getLsbD 28) s.cpsr t.cpsr) ∧
      (setsFlags = false → t.cpsr = s.cpsr)

/-- SUB and SUBS to a register other than 15 (40_exception_return.md R92): the words the rule writes out, register 15
as an operand, and then value, flags and frame. -/
def Obligations.SubWritesDifferenceAndFlags : Prop :=
  decode (.arm 0xE2400004#32) = .instr (.subImm .al 0#4 0#4 0#4 4#8) ∧
  decode (.arm 0xE0532004#32) = .instr (.subsReg .al 3#4 2#4 4#4) ∧
  (∀ s : State, s.thumb = false → s.readReg 15#4 = s.pc + 8#32) ∧
  ∀ (s : State) (i : Instr) (c : Cond) (setsFlags : Bool) (rd : RegNum) (a b : Word),
    subForm s i = some (c, setsFlags, rd, a, b) → rd ≠ 15#4 → condPassed c s.cpsr = true →
    ∃ t, exec i s = .next t ∧ t = { s with pc := s.pc + 4#32, regs := t.regs, cpsr := t.cpsr } ∧ OnlyReg rd (a - b) s t ∧
      (setsFlags = true →
        FlagsOnly ((a - b).getLsbD 31) (decide (a - b = 0#32)) (decide (b.toNat ≤ a.toNat))
          (decide (a.getLsbD 31 ≠ b.getLsbD 31 ∧ (a - b).getLsbD 31 ≠ a.getLsbD 31)) s.cpsr t.cpsr) ∧
      (setsFlags = false → t.cpsr = s.cpsr)

/-- The V flag of a subtraction says that the exact signed difference does not fit in 32 bits, and C that the exact
unsigned one does not borrow (40_exception_return.md R92, "signed overflow", "no borrow"). -/
def Obligations.SubFlagsAreExactArithmetic : Prop :=
  ∀ (p a b : Word),
    (psrV (subFlags p a b) = true ↔ (a - b).toInt ≠ a.toInt - b.toInt) ∧
    (psrC (subFlags p a b) = true ↔ ((a - b).toNat : Int) = (a.toNat : Int) - b.toNat) ∧
    (psrN (subFlags p a b) = true ↔ (a - b).toInt < 0) ∧ (psrZ (subFlags p a b) = true ↔ a = b)

/-- MOV and SUB without S to register 15 in ARM state (40_exception_return.md R90, 10_state.md R26): the pc is the
result if it is a multiple of 4, and otherwise the instruction is refused; nothing else changes. -/
def Obligations.PcDestinationWithoutStatus : Prop :=
  ∀ (s : State) (i : Instr) (c : Cond) (result : Word), PcResult s i c false result → condPassed c s.cpsr = true →
    s.thumb = false →
    (result.toNat % 4 = 0 → exec i s = .next { s with pc := result }) ∧
    (result.toNat % 4 ≠ 0 → exec i s = .refused .misalignedPc)

/-- MOV and SUB with S to register 15, the return instructions among them (40_exception_return.md R90, R94 to R97): in
a mode with an SPSR that holds a legal mode, the CPSR becomes the SPSR, all 32 bits, and the pc the result computed
before, if that suits the restored T; every other case is refused. -/
def Obligations.PcDestinationRestoresStatus : Prop :=
  ∀ (s : State) (i : Instr) (c : Cond) (result : Word), PcResult s i c true result → condPassed c s.cpsr = true →
    (s.bank = none → exec i s = .refused .noSpsr) ∧
    ∀ m, s.bank = some m →
      (legalMode (s.spsrs.get m) = false → exec i s = .refused .illegalMode) ∧
      (legalMode (s.spsrs.get m) = true →
        let size := if (s.spsrs.get m).getLsbD 5 then 2 else 4
        (result.toNat % size = 0 → exec i s = .next { s with cpsr := s.spsrs.get m, pc := result }) ∧
        (result.toNat % size ≠ 0 → exec i s = .refused .misalignedPc))

/-- `MOV PC, R14` in both states (40_exception_return.md R93): in Thumb state bit 0 of the value is ignored; nothing
but the pc changes. The words of both states decode to it. -/
def Obligations.SubroutineReturn : Prop :=
  decode (.arm 0xE1A0F00E#32) = .instr (.movPcR14 .al) ∧ decode (.thumb 0x46F7#16) = .instr .thumbMovPcR14 ∧
  ∀ s : State,
    (s.thumb = false → condPassed .al s.cpsr = true ∧
      ((s.readReg 14#4).toNat % 4 = 0 → exec (.movPcR14 .al) s = .next { s with pc := s.readReg 14#4 }) ∧
      ((s.readReg 14#4).toNat % 4 ≠ 0 → exec (.movPcR14 .al) s = .refused .misalignedPc)) ∧
    (s.thumb = true → ∃ t, exec .thumbMovPcR14 s = .next t ∧ t = { s with pc := t.pc } ∧
      t.pc.getLsbD 0 = false ∧ ∀ j, 1 ≤ j → t.pc.getLsbD j = (s.readReg 14#4).getLsbD j)

/-! ## Branches -/

/-- B and BL in ARM state (41_branch_link.md R100, R101): the words the rules write out, the target, the link of BL, and
nothing else. -/
def Obligations.BranchAndLink : Prop :=
  decode (.arm 0xEB00003E#32) = .instr (.bl .al 0x3E#24) ∧ decode (.arm 0xEA000006#32) = .instr (.b .al 6#24) ∧
  ∀ (s : State) (c : Cond) (off : BitVec 24), condPassed c s.cpsr = true → s.thumb = false → s.pcAligned →
    let target := s.pc + 8#32 + BitVec.ofInt 32 (4 * off.toInt)
    exec (.b c off) s = .next { s with pc := target } ∧
    ∃ t, exec (.bl c off) s = .next t ∧ t = { s with pc := target, regs := t.regs } ∧ OnlyReg 14#4 (s.pc + 4#32) s t

/-- The two halves of BL in Thumb state (41_branch_link.md R102, R103): the intermediate value, the target, the link
but for its bit 0, which is a free value; a target that is odd is refused (10_state.md R26). -/
def Obligations.ThumbBranchAndLink : Prop :=
  decode (.thumb 0xF000#16) = .instr (.thumbBlFirst 0#11) ∧ decode (.thumb 0xF87E#16) = .instr (.thumbBlSecond 0x7E#11) ∧
  ∀ (s : State), s.thumb = true →
    (∀ hi : BitVec 11, ∃ t, exec (.thumbBlFirst hi) s = .next t ∧ t = { s with pc := s.pc + 2#32, regs := t.regs } ∧
      OnlyReg 14#4 (s.pc + 4#32 + BitVec.ofInt 32 (4096 * hi.toInt)) s t) ∧
    (∀ lo : BitVec 11,
      let target := s.readReg 14#4 + BitVec.ofNat 32 (2 * lo.toNat)
      (target.toNat % 2 = 0 → ∃ t, exec (.thumbBlSecond lo) s = .next t ∧
        t = { s with pc := target, regs := t.regs, draws := t.draws } ∧
        (∀ j, 1 ≤ j → (t.readReg 14#4).getLsbD j = (s.pc + 2#32).getLsbD j) ∧
        ∀ q, ¬ s.names 14#4 q → t.regs.get q = s.regs.get q) ∧
      (target.toNat % 2 ≠ 0 → exec (.thumbBlSecond lo) s = .refused .misalignedPc))

/-! ## Single transfers -/

/-- The shifts of a register offset (42_data_transfer.md R110). -/
def Obligations.ShiftedOffsets : Prop :=
  ∀ (v : Word) (n : BitVec 5) (carry : Bool),
    (shiftOffset v .lsl n carry).toNat = v.toNat * 2 ^ n.toNat % 2 ^ 32 ∧
    (shiftOffset v .lsr n carry).toNat = (if n = 0#5 then 0 else v.toNat / 2 ^ n.toNat) ∧
    (shiftOffset v .asr n carry).toInt = v.toInt / 2 ^ (if n = 0#5 then 32 else n.toNat) ∧
    (n = 0#5 → ∀ j, j < 32 →
      (shiftOffset v .ror n carry).getLsbD j = if j = 31 then carry else v.getLsbD (j + 1)) ∧
    (n ≠ 0#5 → ∀ j, j < 32 → (shiftOffset v .ror n carry).getLsbD j = v.getLsbD ((j + n.toNat) % 32))

/-- The address and the written-back value of a single transfer (42_data_transfer.md R110). -/
def Obligations.TransferAddress : Prop :=
  ∀ (a : Addressing) (s : State),
    let off := match a.offset with
      | .imm i => BitVec.ofNat 32 i.toNat
      | .reg n t rm => shiftOffset (s.readReg rm) t n (s.cpsr.getLsbD 29)
    (a.up = true → a.index s = s.readReg a.rn + off) ∧ (a.up = false → a.index s = s.readReg a.rn - off) ∧
    (a.pre = true → a.addr s = a.index s) ∧ (a.pre = false → a.addr s = s.readReg a.rn)

/-- LDR and LDRB to a register other than 15 (42_data_transfer.md R111): the value, the base, and nothing else. -/
def Obligations.LoadWritesRegister : Prop :=
  ∀ (i : Instr) (f : TransferForm) (s : State), loadForm i = some f → condPassed f.cond s.cpsr = true →
    ¬ TransferOperandsRefused f.at_ f.rd → f.rd ≠ 15#4 → ReadReady f.width (f.at_.addr s) s →
    ∃ t, exec i s = .next t ∧ t.pc = s.pc + 4#32 ∧ SameStatus s t ∧ SameMemory s t ∧ t.platform = s.platform ∧
      ∀ q, (s.names f.rd q → t.regs.get q = s.memValue f.width (f.at_.addr s)) ∧
        (¬ s.names f.rd q → BaseWrittenBack f.at_ (f.at_.index s) s q (t.regs.get q))

/-- LDR to register 15 (42_data_transfer.md R111): the pc is the word if it is a multiple of 4, otherwise the
instruction is refused; the CPSR and the state do not change. LDRB to register 15 is refused. Of a word that meets a device, what
the device answers is a free value (log 10), and of one of which only some bytes are a device's the others are memory's: the
model's choice (log 9). -/
def Obligations.LoadToPc : Prop :=
  ∀ (i : Instr) (f : TransferForm) (s : State), loadForm i = some f → condPassed f.cond s.cpsr = true →
    ¬ TransferOperandsRefused f.at_ f.rd → f.rd = 15#4 → s.thumb = false →
    (f.width = .byte → exec i s = .refused .ldrbPc) ∧
    (f.width = .word →
      let a := f.at_.addr s
      AlignedTo 4 a → s.abortNext = false → s.touches .nothing .word a = false →
      ∃ v : Word,
        (s.touches .device .word a = false → v = s.memValue .word a) ∧
        (∀ i, i < 4 → kindAt s.platform.memMap (a.toNat + i) ≠ .device →
          (toBytes s.platform.bigEndian 4 v).getD i 0#8 = Memory.read s.mem (a.toNat + i)) ∧
        (v.toNat % 4 = 0 → ∃ t, exec i s = .next t ∧ t.pc = v ∧ SameStatus s t ∧ SameMemory s t ∧
          t.platform = s.platform ∧ ∀ q, BaseWrittenBack f.at_ (f.at_.index s) s q (t.regs.get q)) ∧
        (v.toNat % 4 ≠ 0 → exec i s = .refused .misalignedPc))

/-- STR and STRB (42_data_transfer.md R112): the bytes stored, every other byte, the base, and nothing else. Rd = 15
is refused. -/
def Obligations.StoreWritesMemory : Prop :=
  ∀ (i : Instr) (f : TransferForm) (s : State), storeForm i = some f → condPassed f.cond s.cpsr = true →
    ¬ TransferOperandsRefused f.at_ f.rd →
    (f.rd = 15#4 → exec i s = .refused .strPc) ∧
    (f.rd ≠ 15#4 → Memory.wf s.mem = true → WriteReady f.width (f.at_.addr s) s →
      ∃ t, exec i s = .next t ∧ t.pc = s.pc + 4#32 ∧ SameStatus s t ∧ t.platform = s.platform ∧
        t.memValue f.width (f.at_.addr s) = f.width.truncate (s.readReg f.rd) ∧
        SameMemoryOutside f.width (f.at_.addr s) s t ∧
        ∀ q, BaseWrittenBack f.at_ (f.at_.index s) s q (t.regs.get q))

/-- Single transfers that meet a device (20_memory.md R60, R64, 92_eei_decisions.md D3): they complete; a store is recorded as
one write; a load leaves every register but its own and the base as before. What a device answers is a free value (log 10).
Of an access of which only some bytes are a device's, the bytes in memory are stored and read as memory: the model's
reading (log 9). -/
def Obligations.DeviceTransfersComplete : Prop :=
  (∀ (i : Instr) (f : TransferForm) (s : State), storeForm i = some f → condPassed f.cond s.cpsr = true →
    ¬ TransferOperandsRefused f.at_ f.rd → f.rd ≠ 15#4 → Memory.wf s.mem = true →
    DeviceWriteReady f.width (f.at_.addr s) s →
    ∃ t, exec i s = .next t ∧ t.pc = s.pc + 4#32 ∧ SameStatus s t ∧
      DeviceWritten f.width (f.at_.addr s) (s.readReg f.rd) s t ∧
      ∀ q, BaseWrittenBack f.at_ (f.at_.index s) s q (t.regs.get q)) ∧
  (∀ (i : Instr) (f : TransferForm) (s : State), loadForm i = some f → condPassed f.cond s.cpsr = true →
    ¬ TransferOperandsRefused f.at_ f.rd → f.rd ≠ 15#4 → AlignedTo f.width.bytes (f.at_.addr s) → s.abortNext = false →
    s.touches .nothing f.width (f.at_.addr s) = false → s.touches .device f.width (f.at_.addr s) = true →
    ∃ t, exec i s = .next t ∧ t.pc = s.pc + 4#32 ∧ SameStatus s t ∧ SameMemory s t ∧
      (∀ q i, s.names f.rd q → i < f.width.bytes → kindAt s.platform.memMap ((f.at_.addr s).toNat + i) ≠ .device →
        (toBytes s.platform.bigEndian f.width.bytes (t.regs.get q)).getD i 0#8 =
          Memory.read s.mem ((f.at_.addr s).toNat + i)) ∧
      ∀ q, ¬ s.names f.rd q → BaseWrittenBack f.at_ (f.at_.index s) s q (t.regs.get q))

/-- LDR, LDRB, STR, STRB answered with ABORT (42_data_transfer.md R113, 60_exceptions.md R168): the base is written back,
the destination of a load is not written, memory changes at most in the bytes a store addressed, and the Data Abort is
entered with `A + 8` saved. A store into a code region is refused whatever ABORT answers: the model's reading (log 7). That
a device records nothing of an aborted store is the model's choice (log 8). -/
def Obligations.AbortedSingleTransfer : Prop :=
  ∀ (i : Instr) (f : TransferForm) (s : State), condPassed f.cond s.cpsr = true → ¬ TransferOperandsRefused f.at_ f.rd →
    AlignedTo f.width.bytes (f.at_.addr s) → s.abortNext = true →
    ((loadForm i = some f ∧ ¬ (f.width = .byte ∧ f.rd = 15#4)) ∨
      (storeForm i = some f ∧ f.rd ≠ 15#4 ∧ s.touches .code f.width (f.at_.addr s) = false)) →
    ∃ t, exec i s = .next t ∧ EnteredStatus 0x00000010#32 .abt false s t ∧
      t.regs.get (.lr (some .abt)) = s.pc + 8#32 ∧
      (∀ q, q ≠ .lr (some .abt) → BaseWrittenBack f.at_ (f.at_.index s) s q (t.regs.get q)) ∧
      (loadForm i = some f → SameMemory s t) ∧ SameMemoryOutside f.width (f.at_.addr s) s t

/-- Single transfers the spec refuses: the operands of 42_data_transfer.md R110, a misaligned address (20_memory.md R53),
a store into a code region (R62), an address with neither memory nor device that ABORT does not answer (R64). Register 15 as Rd
is left out for LDRB, STR and STRB only, which refuse it for itself (R111, R112). That a code region is refused whatever ABORT answers is the model's reading (log 7). -/
def Obligations.RefusedSingleTransfer : Prop :=
  ∀ (i : Instr) (f : TransferForm) (s : State), loadForm i = some f ∨ storeForm i = some f →
    condPassed f.cond s.cpsr = true →
    (TransferOperandsRefused f.at_ f.rd → ∃ r, exec i s = .refused r) ∧
    (¬ TransferOperandsRefused f.at_ f.rd → (f.rd = 15#4 → (loadForm i).isSome ∧ f.width = .word) →
      (¬ AlignedTo f.width.bytes (f.at_.addr s) → exec i s = .refused .misaligned) ∧
      (AlignedTo f.width.bytes (f.at_.addr s) →
        (storeForm i = some f → s.touches .code f.width (f.at_.addr s) = true → exec i s = .refused .storeToCode) ∧
        (s.abortNext = false → s.touches .nothing f.width (f.at_.addr s) = true →
          (storeForm i = some f → s.touches .code f.width (f.at_.addr s) = false) → exec i s = .refused .unmapped)))

/-- `LDR Rd, [R14, #-8]` in Abort mode reads the word at r14_abt - 8 (42_data_transfer.md R114); after a Data Abort that
is the word at the address of the instruction that aborted. -/
def Obligations.HandlerReadsAbortedInstruction : Prop :=
  ∀ (s : State) (a : Word) (c : Cond) (rd : RegNum),
    let h := takeException .dabt a s
    condPassed c h.cpsr = true → rd ≠ 15#4 → ReadReady .word a h →
    ∃ t, exec (.ldrRdR14Minus8 c rd) h = .next t ∧ OnlyReg rd (s.memValue .word a) h t ∧
      t.pc = 0x00000014#32 ∧ SameStatus h t ∧ SameMemory h t

/-! ## Swaps -/

/-- SWP and SWPB (42_data_transfer.md R115): the old value to Rd, the value of Rm to memory, and nothing else; with a device
the swap completes and one write is recorded (20_memory.md R64, D3). Register 15 as an operand, a misaligned address (R53), a
code region (R62) and an address with nothing (R64) are refused. That a code region is refused whatever ABORT answers to the
write is the model's reading (log 7). What a device answers is a free value (log 10), and of an access of which only some bytes
are a device's, those in memory are memory's: the model's choice (log 9). -/
def Obligations.SwapExchanges : Prop :=
  ∀ (i : Instr) (w : Width) (c : Cond) (rn rd rm : RegNum) (s : State), swapForm i = some (w, c, rn, rd, rm) →
    condPassed c s.cpsr = true →
    (rn = 15#4 ∨ rd = 15#4 ∨ rm = 15#4 → exec i s = .refused .swpPc) ∧
    (rn ≠ 15#4 → rd ≠ 15#4 → rm ≠ 15#4 →
      let a := s.readReg rn
      (Memory.wf s.mem = true → WriteReady w a s → s.inputs.aborts.getD 1 false = false →
        ∃ t, exec i s = .next t ∧ t.pc = s.pc + 4#32 ∧ SameStatus s t ∧ t.platform = s.platform ∧
          OnlyReg rd (s.memValue w a) s t ∧
          t.memValue w a = w.truncate (s.readReg rm) ∧ SameMemoryOutside w a s t) ∧
      (Memory.wf s.mem = true → DeviceWriteReady w a s → s.inputs.aborts.getD 1 false = false →
        ∃ t, exec i s = .next t ∧ t.pc = s.pc + 4#32 ∧ SameStatus s t ∧ t.platform = s.platform ∧
          DeviceWritten w a (s.readReg rm) s t ∧ ∀ q, ¬ s.names rd q → t.regs.get q = s.regs.get q) ∧
      (¬ AlignedTo w.bytes a → exec i s = .refused .misaligned) ∧
      (AlignedTo w.bytes a → s.abortNext = false →
        (s.touches .nothing w a = true → exec i s = .refused .unmapped) ∧
        (s.touches .nothing w a = false → s.touches .code w a = true → exec i s = .refused .storeToCode)))

/-- SWP and SWPB with an access aborted (42_data_transfer.md R116): on the read nothing is written; on the write no register
is; in both cases the Data Abort is entered and no register but r14_abt has changed. A store into a code region is refused
whatever ABORT answers: the model's reading (log 7); that a device records nothing of an aborted write is its choice (log 8). -/
def Obligations.AbortedSwap : Prop :=
  ∀ (i : Instr) (w : Width) (c : Cond) (rn rd rm : RegNum) (s : State), swapForm i = some (w, c, rn, rd, rm) →
    condPassed c s.cpsr = true → rn ≠ 15#4 → rd ≠ 15#4 → rm ≠ 15#4 → AlignedTo w.bytes (s.readReg rn) →
    (s.abortNext = true → ∃ t, exec i s = .next t ∧ Entered 0x00000010#32 .abt (s.pc + 8#32) false s t) ∧
    (s.abortNext = false → s.inputs.aborts.getD 1 false = true →
      s.touches .code w (s.readReg rn) = false → s.touches .nothing w (s.readReg rn) = false →
      ∃ t, exec i s = .next t ∧ EnteredStatus 0x00000010#32 .abt false s t ∧
        t.regs.get (.lr (some .abt)) = s.pc + 8#32 ∧
        (∀ q, q ≠ .lr (some .abt) → t.regs.get q = s.regs.get q) ∧ SameMemoryOutside w (s.readReg rn) s t)

/-! ## Block transfers -/

/-- The registers of a list are those whose bits are set, the lowest first (30_encoding.md R78, 42 R117). -/
def Obligations.RegisterListAscends : Prop :=
  ∀ list : BitVec 16,
    (registersOf list).Pairwise (fun r r' => r.toNat < r'.toNat) ∧
    ∀ r : RegNum, r ∈ registersOf list ↔ list.getLsbD r.toNat = true

/-- LDM without r15 in the list (42_data_transfer.md R117): the register at place k of the list gets the word at place k of
the block, in the User bank when S = 1; the base is written back when W = 1; nothing else changes. What a device answers for a
word is a free value (log 10). -/
def Obligations.LoadMultiple : Prop :=
  ∀ (c : Cond) (p u b w : Bool) (rn : RegNum) (list : BitVec 16) (s : State),
    let n := blockCount list
    let start := startOf p u (s.readReg rn) n
    let bank := if b then none else s.bank
    condPassed c s.cpsr = true → ¬ LdmRefused b w rn list s → list.getLsbD 15 = false → BlockReadable start n s →
    ∃ t, exec (.ldm c p u b w rn list) s = .next t ∧ t.pc = s.pc + 4#32 ∧ SameStatus s t ∧ SameMemory s t ∧
      t.platform = s.platform ∧
      (∀ k r q, (registersOf list)[k]? = some r → physReg bank r = some q → NoDeviceAt start k s →
        t.regs.get q = s.memValue .word (blockWord start k)) ∧
      (∀ q, (∀ r, list.getLsbD r.toNat = true → physReg bank r ≠ some q) →
        (w = true → s.names rn q → t.regs.get q = finalOf u (s.readReg rn) n) ∧
        (¬ (w = true ∧ s.names rn q) → t.regs.get q = s.regs.get q))

/-- LDM with r15 in the list (42_data_transfer.md R117): the registers as without; the pc is the last word; with S = 1 the
CPSR comes from the SPSR. A pc that does not suit the T bit is refused (10_state.md R26), as is an SPSR with an illegal mode
(R28). What a device answers for a word, the pc among them, is a free value (log 10). -/
def Obligations.LoadMultipleWithPc : Prop :=
  ∀ (c : Cond) (p u b w : Bool) (rn : RegNum) (list : BitVec 16) (s : State),
    let n := blockCount list
    let start := startOf p u (s.readReg rn) n
    let regsLoaded := fun t : State =>
      (∀ k r q, (registersOf list)[k]? = some r → s.names r q → NoDeviceAt start k s →
        t.regs.get q = s.memValue .word (blockWord start k)) ∧
      (∀ q, (∀ r, list.getLsbD r.toNat = true → ¬ s.names r q) →
        (w = true → s.names rn q → t.regs.get q = finalOf u (s.readReg rn) n) ∧
        (¬ (w = true ∧ s.names rn q) → t.regs.get q = s.regs.get q))
    condPassed c s.cpsr = true → ¬ LdmRefused b w rn list s → list.getLsbD 15 = true → BlockReadable start n s →
    s.thumb = false →
    ∃ target : Word, (NoDeviceAt start (n - 1) s → target = s.memValue .word (blockWord start (n - 1))) ∧
    (b = false → (target.toNat % 4 = 0 → ∃ t, exec (.ldm c p u b w rn list) s = .next t ∧ t.pc = target ∧
        SameStatus s t ∧ SameMemory s t ∧ regsLoaded t) ∧
      (target.toNat % 4 ≠ 0 → exec (.ldm c p u b w rn list) s = .refused .misalignedPc)) ∧
    (∀ m, b = true → s.bank = some m →
      (legalMode (s.spsrs.get m) = false → exec (.ldm c p u b w rn list) s = .refused .illegalMode) ∧
      (legalMode (s.spsrs.get m) = true →
        let size := if (s.spsrs.get m).getLsbD 5 then 2 else 4
        (target.toNat % size = 0 → ∃ t, exec (.ldm c p u b w rn list) s = .next t ∧ t.pc = target ∧
          t.cpsr = s.spsrs.get m ∧ t.spsrs = s.spsrs ∧ SameMemory s t ∧ regsLoaded t) ∧
        (target.toNat % size ≠ 0 → exec (.ldm c p u b w rn list) s = .refused .misalignedPc)))

/-- STM (42_data_transfer.md R118): the register at place k of the list is stored at place k of the block, from the User
bank when S = 1; every byte outside the block is as before; the base is written back when W = 1; nothing else changes. Words
that meet a device are recorded in order (20_memory.md R64, D3); that each is recorded as one whole write, also one of which
only some bytes are a device's, is the model's choice (log 9, 10). -/
def Obligations.StoreMultiple : Prop :=
  ∀ (c : Cond) (p u b w : Bool) (rn : RegNum) (list : BitVec 16) (s : State),
    let n := blockCount list
    let start := startOf p u (s.readReg rn) n
    let bank := if b then none else s.bank
    condPassed c s.cpsr = true → ¬ StmRefused b w rn list s → Memory.wf s.mem = true → BlockWritable start n s →
    ∃ t, exec (.stm c p u b w rn list) s = .next t ∧ t.pc = s.pc + 4#32 ∧ SameStatus s t ∧
      t.deviceLog = s.deviceLog ++ deviceWrites s bank (registersOf list) start ∧ t.platform = s.platform ∧
      (∀ k r, (registersOf list)[k]? = some r → NoDeviceAt start k s →
        t.memValue .word (blockWord start k) = s.readBank bank r) ∧
      (∀ a, OutsideBlock start n s a → Memory.read t.mem a = Memory.read s.mem a) ∧
      (w = true → OnlyReg rn (finalOf u (s.readReg rn) n) s t) ∧ (w = false → SameRegs s t)

/-- LDM whose access at place k is aborted (42_data_transfer.md R119): the registers before k are loaded, those from k on
are not, the base is at its written-back or its original value even if it was among those loaded, memory is as before, and the
Data Abort is entered with `A + 8` saved and the CPSR not restored. That the base restored is the current mode's also when the
User bank is loaded is the model's reading (log 21); what a device answers for a word is a free value (log 10). -/
def Obligations.AbortedLoadMultiple : Prop :=
  ∀ (c : Cond) (p u b w : Bool) (rn : RegNum) (list : BitVec 16) (s : State) (k : Nat),
    let n := blockCount list
    let start := startOf p u (s.readReg rn) n
    let bank := if b = true ∧ list.getLsbD 15 = false then none else s.bank
    condPassed c s.cpsr = true → ¬ LdmRefused b w rn list s → k < n → BlockReadable start k s →
    s.inputs.aborts.getD k false = true →
    ∃ t, exec (.ldm c p u b w rn list) s = .next t ∧ EnteredStatus 0x00000010#32 .abt false s t ∧ SameMemory s t ∧
      t.regs.get (.lr (some .abt)) = s.pc + 8#32 ∧
      ∀ q, q ≠ .lr (some .abt) →
        (s.names rn q → t.regs.get q = if w then finalOf u (s.readReg rn) n else s.readReg rn) ∧
        (¬ s.names rn q →
          (∀ j r, j < k → (registersOf list)[j]? = some r → physReg bank r = some q → NoDeviceAt start j s →
            t.regs.get q = s.memValue .word (blockWord start j)) ∧
          ((∀ j r, j < k → (registersOf list)[j]? = some r → physReg bank r ≠ some q) → t.regs.get q = s.regs.get q))

/-- STM whose access at place k is aborted (42_data_transfer.md R120): the stores before k are performed, no byte of memory
outside the block changes, of the registers only the base, and the Data Abort is entered. What the words of ordinary memory from
place k on hold is free. That a word before k that meets a device is recorded as one whole write, also one of which only some
bytes are the device's, is the model's choice (log 9, 10); that a device records nothing of the words from k on, and that a word there with nothing at its address is not
refused, is the model's choice (log 8), and that a code region among them is refused is its reading (log 7). -/
def Obligations.AbortedStoreMultiple : Prop :=
  ∀ (c : Cond) (p u b w : Bool) (rn : RegNum) (list : BitVec 16) (s : State) (k : Nat),
    let n := blockCount list
    let start := startOf p u (s.readReg rn) n
    let bank := if b then none else s.bank
    condPassed c s.cpsr = true → ¬ StmRefused b w rn list s → Memory.wf s.mem = true → k < n → BlockWritable start k s →
    s.inputs.aborts.getD k false = true →
    (∀ j, j < n → s.touches .code .word (blockWord start j) = false) →
    ∃ t, exec (.stm c p u b w rn list) s = .next t ∧ EnteredStatus 0x00000010#32 .abt false s t ∧
      t.regs.get (.lr (some .abt)) = s.pc + 8#32 ∧
      t.deviceLog = s.deviceLog ++ deviceWrites s bank ((registersOf list).take k) start ∧
      (∀ j r, j < k → (registersOf list)[j]? = some r → NoDeviceAt start j s →
        t.memValue .word (blockWord start j) = s.readBank bank r) ∧
      (∀ a, OutsideBlock start n s a → Memory.read t.mem a = Memory.read s.mem a) ∧
      ∀ q, q ≠ .lr (some .abt) →
        (w = true → s.names rn q → t.regs.get q = finalOf u (s.readReg rn) n) ∧
        (¬ (w = true ∧ s.names rn q) → t.regs.get q = s.regs.get q)

/-- The block transfers the spec refuses: the operands of 42_data_transfer.md R117 and R118, a misaligned block (20_memory.md
R53), an STM that meets a code region (R62), and a block that comes to an address with nothing (R64). That a code region is
refused whatever ABORT answers, also after an abort, is the model's reading (log 7). -/
def Obligations.RefusedBlockTransfer : Prop :=
  ∀ (c : Cond) (p u b w : Bool) (rn : RegNum) (list : BitVec 16) (s : State), condPassed c s.cpsr = true →
    let n := blockCount list
    let start := startOf p u (s.readReg rn) n
    (LdmRefused b w rn list s → ∃ r, exec (.ldm c p u b w rn list) s = .refused r) ∧
    (StmRefused b w rn list s → ∃ r, exec (.stm c p u b w rn list) s = .refused r) ∧
    (¬ LdmRefused b w rn list s → ¬ AlignedTo 4 start → exec (.ldm c p u b w rn list) s = .refused .misaligned) ∧
    (¬ StmRefused b w rn list s → ¬ AlignedTo 4 start → exec (.stm c p u b w rn list) s = .refused .misaligned) ∧
    ∀ k, k < n →
      (¬ LdmRefused b w rn list s → BlockReadable start k s → s.inputs.aborts.getD k false = false →
        s.touches .nothing .word (blockWord start k) = true → exec (.ldm c p u b w rn list) s = .refused .unmapped) ∧
      (¬ StmRefused b w rn list s → Memory.wf s.mem = true → BlockWritable start k s →
        (s.touches .code .word (blockWord start k) = true → exec (.stm c p u b w rn list) s = .refused .storeToCode) ∧
        (s.inputs.aborts.getD k false = false → s.touches .code .word (blockWord start k) = false →
          s.touches .nothing .word (blockWord start k) = true → exec (.stm c p u b w rn list) s = .refused .unmapped) ∧
        (s.inputs.aborts.getD k false = true →
          (∃ j, k ≤ j ∧ j < n ∧ s.touches .code .word (blockWord start j) = true) →
          exec (.stm c p u b w rn list) s = .refused .storeToCode))

/-! ## SWI, undefined and coprocessor instructions -/

/-- SWI in ARM and Thumb state (43_swi_undefined_coprocessor.md R125, R126, 60_exceptions.md R170): the Software interrupt
exception is entered; in ARM state, if the condition fails, nothing happens but the advance of the pc. -/
def Obligations.SoftwareInterrupt : Prop :=
  decode (.arm 0xEF000011#32) = .instr (.swi .al 0x11#24) ∧ decode (.thumb 0xDF11#16) = .instr (.thumbSwi 0x11#8) ∧
  ∀ s : State,
    (∀ (c : Cond) (n : BitVec 24), s.thumb = false → condPassed c s.cpsr = true →
      ∃ t, exec (.swi c n) s = .next t ∧ Entered 0x00000008#32 .svc (s.pc + 4#32) false s t) ∧
    (∀ (c : Cond) (n : BitVec 24), condPassed c s.cpsr = false → exec (.swi c n) s = .next { s with pc := s.pc + 4#32 }) ∧
    (∀ n : BitVec 8, s.thumb = true →
      ∃ t, exec (.thumbSwi n) s = .next t ∧ Entered 0x00000008#32 .svc (s.pc + 2#32) false s t)

/-- The undefined instruction (43_swi_undefined_coprocessor.md R128, 60_exceptions.md R172), in ARM state. -/
def Obligations.UndefinedInstruction : Prop :=
  ∀ (s : State) (c : Cond) (x : BitVec 20) (y : BitVec 4), s.thumb = false → condPassed c s.cpsr = true →
    ∃ t, exec (.udef c x y) s = .next t ∧ Entered 0x00000004#32 .und (s.pc + 4#32) false s t

/-- Coprocessor instructions (43_swi_undefined_coprocessor.md R130): undefined if no coprocessor accepts the word, refused
if one does; by default none accepts any. -/
def Obligations.CoprocessorInstruction : Prop :=
  (∀ w : Word, coprocAccepts State.reset.platform.coproc w = false) ∧
  ∀ (s : State) (i : Instr) (c : Cond) (word : Word), isCoprocessor i → condOf i = some c → encode i = .arm word →
    s.thumb = false → condPassed c s.cpsr = true →
    (coprocAccepts s.platform.coproc word = false →
      ∃ t, exec i s = .next t ∧ Entered 0x00000004#32 .und (s.pc + 4#32) false s t) ∧
    (coprocAccepts s.platform.coproc word = true → exec i s = .refused .coprocessorSemanticsUnmodelled)

/-! ## Status registers -/

/-- MRS (44_status_register_access.md R135): the CPSR in every mode, the SPSR in a mode that has one. -/
def Obligations.ReadStatus : Prop :=
  ∀ (s : State) (c : Cond) (rd : RegNum), condPassed c s.cpsr = true →
    (∀ r, rd = 15#4 → exec (.mrs c r rd) s = .refused .mrsPc) ∧
    (rd ≠ 15#4 →
      (∃ t, exec (.mrs c false rd) s = .next t ∧ t = { s with pc := s.pc + 4#32, regs := t.regs } ∧ OnlyReg rd s.cpsr s t) ∧
      (s.bank = none → exec (.mrs c true rd) s = .refused .noSpsr) ∧
      (∀ m, s.bank = some m → ∃ t, exec (.mrs c true rd) s = .next t ∧
        t = { s with pc := s.pc + 4#32, regs := t.regs } ∧ OnlyReg rd (s.spsrs.get m) s t))

/-- MSR to the CPSR (44_status_register_access.md R136, R137): bit j takes the operand's if the field mask selects its byte
and, in User mode, it is one of bits 31 to 24; a change of T or an illegal mode is refused; nothing else changes. -/
def Obligations.WriteCpsr : Prop :=
  ∀ (s : State) (i : Instr) (c : Cond) (mask : BitVec 4) (v : Word), condPassed c s.cpsr = true →
    ((∃ rm, rm ≠ 15#4 ∧ i = .msrReg c false mask rm ∧ v = s.readReg rm) ∨
      ∃ rot imm, i = .msrImm c false mask rot imm ∧ v = (imm.setWidth 32).rotateRight (2 * rot.toNat)) →
    ∃ new : Word,
      (∀ j, j < 32 → new.getLsbD j =
        if mask.getLsbD (j / 8) = true ∧ (s.cpsr.setWidth 5 = 0b10000#5 → 24 ≤ j) then v.getLsbD j else s.cpsr.getLsbD j) ∧
      (new.getLsbD 5 ≠ s.cpsr.getLsbD 5 → exec i s = .refused .msrChangesT) ∧
      (new.getLsbD 5 = s.cpsr.getLsbD 5 → legalMode new = false → exec i s = .refused .illegalMode) ∧
      (new.getLsbD 5 = s.cpsr.getLsbD 5 → legalMode new = true → exec i s = .next { s with pc := s.pc + 4#32, cpsr := new })

/-- MSR to the SPSR (44_status_register_access.md R136): bit j of the current mode's SPSR takes the operand's if the field
mask selects its byte; nothing else changes; refused in a mode without an SPSR. MSR from register 15 is refused. -/
def Obligations.WriteSpsr : Prop :=
  ∀ (s : State) (i : Instr) (c : Cond) (mask : BitVec 4) (v : Word), condPassed c s.cpsr = true →
    (∀ r, exec (.msrReg c r mask 15#4) s = .refused .msrPc) ∧
    (((∃ rm, rm ≠ 15#4 ∧ i = .msrReg c true mask rm ∧ v = s.readReg rm) ∨
      ∃ rot imm, i = .msrImm c true mask rot imm ∧ v = (imm.setWidth 32).rotateRight (2 * rot.toNat)) →
    (s.bank = none → exec i s = .refused .noSpsr) ∧
    (∀ m, s.bank = some m → ∃ t, exec i s = .next t ∧ t = { s with pc := s.pc + 4#32, spsrs := t.spsrs } ∧
      (∀ j, j < 32 → (t.spsrs.get m).getLsbD j =
        if mask.getLsbD (j / 8) = true then v.getLsbD j else (s.spsrs.get m).getLsbD j) ∧
      ∀ m', m' ≠ m → t.spsrs.get m' = s.spsrs.get m'))

/-! ## Memory -/

/-- Byte order (20_memory.md R52): the byte at each place of a word and the halfword at each even place, for either value of
`bigEndian`. -/
def Obligations.ByteOrder : Prop :=
  ∀ (s : State) (a : Word), AlignedTo 4 a →
    let w := s.memValue .word a
    let byteAt := fun k : Nat => s.memValue .byte (a + BitVec.ofNat 32 k)
    let halfAt := fun k : Nat => s.memValue .half (a + BitVec.ofNat 32 k)
    (s.platform.bigEndian = false →
      (∀ k, k < 4 → byteAt k = (w >>> (8 * k)) &&& 0xFF#32) ∧ halfAt 0 = w &&& 0xFFFF#32 ∧ halfAt 2 = w >>> 16) ∧
    (s.platform.bigEndian = true →
      (∀ k, k < 4 → byteAt k = (w >>> (8 * (3 - k))) &&& 0xFF#32) ∧ halfAt 0 = w >>> 16 ∧ halfAt 2 = w &&& 0xFFFF#32)

/-- Memory in canonical form, which is the model's own (log 5): a byte written is read back and every other byte is as
before (20_memory.md R60), the form is kept, and memories in it that read alike are equal. -/
def Obligations.MemoryIsAMap : Prop :=
  ∀ (m : Memory) (a : Nat) (b : Byte), Memory.wf m = true → a < 2 ^ 32 →
    Memory.wf (Memory.write m a b) = true ∧
    (∀ c, Memory.read (Memory.write m a b) c = if c = a then b else Memory.read m c) ∧
    ∀ m' : Memory, Memory.wf m' = true → (∀ c, Memory.read m' c = Memory.read m c) → m' = m

/-- The forms that store nothing, when they complete, leave every byte of memory and the devices as before (42_data_transfer.md
sections 1 to 3, 40, 41, 43, 44). -/
def Obligations.NonStoringInstructionsKeepMemory : Prop :=
  ∀ (i : Instr) (s t : State), ¬ mayStore i → exec i s = .next t → SameMemory s t

/-! ## The whole machine -/

/-- Every step keeps the state sound: a legal mode, a pc that suits the T bit, memory in canonical form (10_state.md R26,
R28). -/
def Obligations.StepKeepsSoundState : Prop :=
  ∀ s t : State, s.Sound → step s = .next t → t.Sound

/-- The state after reset is sound. -/
def Obligations.ResetStateIsSound : Prop := State.reset.Sound

/-- The values the spec gives for reset (10_state.md R37): pc 0, Supervisor mode, I and F set, ARM state. -/
def Obligations.ResetValues : Prop :=
  State.reset.pc = 0x00000000#32 ∧ State.reset.cpsr.setWidth 5 = 0b10011#5 ∧ State.reset.cpsr.getLsbD 7 = true ∧
    State.reset.cpsr.getLsbD 6 = true ∧ State.reset.cpsr.getLsbD 5 = false

/-- No step changes the spec's parameters (00_scope.md section 5). -/
def Obligations.StepKeepsParameters : Prop :=
  ∀ s t : State, step s = .next t → t.platform = s.platform

/-- A User-mode program leaves User mode, or changes I, F or the mode, only through an exception: after a step from User
mode either the mode, I and F are as before, or an exception was entered (44_status_register_access.md R137, 60_exceptions.md
R182). -/
def Obligations.UserModeIsLeftOnlyByException : Prop :=
  ∀ s t : State, s.cpsr.setWidth 5 = 0b10000#5 → step s = .next t →
    (t.cpsr.setWidth 5 = 0b10000#5 ∧ t.cpsr.getLsbD 7 = s.cpsr.getLsbD 7 ∧ t.cpsr.getLsbD 6 = s.cpsr.getLsbD 6) ∨
    ∃ e : Exc, t.pc = e.vector ∧ t.cpsr.setWidth 5 = e.mode.mode.bits ∧ t.cpsr.getLsbD 7 = true ∧
      t.cpsr.getLsbD 5 = false ∧ (e ≠ .reset → t.spsrs.get e.mode = s.cpsr)

/-- The registers of banks that are not current are kept: an instruction changes a register the current mode cannot
name only if it is an LDM with S = 1, or by entering an exception, whose r14 it then is (10_state.md R22, R23). -/
def Obligations.OtherBanksAreKept : Prop :=
  ∀ (i : Instr) (s t : State) (q : PhysReg), exec i s = .next t → (∀ n, ¬ s.names n q) →
    t.regs.get q = s.regs.get q ∨ (∃ c p u w rn l, i = .ldm c p u true w rn l) ∨
      ∃ e : Exc, q = .lr (some e.mode) ∧ t.pc = e.vector ∧ t.spsrs.get e.mode = s.cpsr

/-- The SPSRs change only by MSR or by an exception entry, which saves the CPSR in the SPSR of the mode it enters and changes
no other (10_state.md R29, 60_exceptions.md R152). -/
def Obligations.SavedStatusFrame : Prop :=
  ∀ (i : Instr) (s t : State), exec i s = .next t →
    t.spsrs = s.spsrs ∨ (∃ c mask rm, i = .msrReg c true mask rm) ∨ (∃ c mask rot imm, i = .msrImm c true mask rot imm) ∨
      ∃ e : Exc, e ≠ .reset ∧ t.pc = e.vector ∧ t.cpsr.setWidth 5 = e.mode.mode.bits ∧
        t.spsrs.get e.mode = s.cpsr ∧ ∀ m, m ≠ e.mode → t.spsrs.get m = s.spsrs.get m

/-- The modes and their numbers (10_state.md R28): seven, and every other number is illegal; the five modes that exceptions
enter have each a bank and an SPSR of their own, User and System mode none (R22, R29). That an illegal number is given the User
bank is the model's choice (log 18). -/
def Obligations.ModeNumbers : Prop :=
  Mode.ofBits 0b10000#5 = some .usr ∧ Mode.ofBits 0b10001#5 = some .fiq ∧ Mode.ofBits 0b10010#5 = some .irq ∧
  Mode.ofBits 0b10011#5 = some .svc ∧ Mode.ofBits 0b10111#5 = some .abt ∧ Mode.ofBits 0b11011#5 = some .und ∧
  Mode.ofBits 0b11111#5 = some .sys ∧
  (∀ m : BitVec 5, m ≠ 0b10000#5 → m ≠ 0b10001#5 → m ≠ 0b10010#5 → m ≠ 0b10011#5 → m ≠ 0b10111#5 → m ≠ 0b11011#5 →
    m ≠ 0b11111#5 → Mode.ofBits m = none) ∧
  ∀ p : Word,
    (psrM p = 0b10001#5 → bankOf p = some .fiq) ∧ (psrM p = 0b10010#5 → bankOf p = some .irq) ∧
    (psrM p = 0b10011#5 → bankOf p = some .svc) ∧ (psrM p = 0b10111#5 → bankOf p = some .abt) ∧
    (psrM p = 0b11011#5 → bankOf p = some .und) ∧
    (bankOf p = none ↔ legalMode p = false ∨ psrM p = 0b10000#5 ∨ psrM p = 0b11111#5)

/-- The banking map (10_state.md R22): numbers 0 to 7 and 15 name the same register in every mode, 8 to 12 another only in FIQ
mode, 13 and 14 one of each bank; different numbers name different registers; there are 30 registers besides the pc. -/
def Obligations.BankingMap : Prop :=
  ∀ (b b' : Bank) (n n' : RegNum),
    (n.toNat < 8 → physReg b n = physReg b' n) ∧
    (8 ≤ n.toNat → n.toNat ≤ 12 → (physReg b n = physReg b' n ↔ (b = some .fiq ↔ b' = some .fiq))) ∧
    (n = 13#4 ∨ n = 14#4 → (physReg b n = physReg b' n ↔ b = b')) ∧
    (physReg b n = none ↔ n = 15#4) ∧
    (physReg b n = physReg b n' → n = n') ∧
    ∀ q : PhysReg, ∃ c k, physReg c k = some q
end

