-- ==== Sys2Proof/Laws/State.lean ====
section
/-! SUPPORT. What each update of the state leaves in each field: one lemma per field per update, so that no
later proof unfolds a record update. -/

namespace Sys2Proof.Machine

/-! ## Writing a register -/

@[simp] theorem State.writeBank_pc (s : State) (b : Bank) (n : RegNum) (v : Word) : (s.writeBank b n v).pc = s.pc := by
  unfold State.writeBank; split <;> rfl
@[simp] theorem State.writeBank_cpsr (s : State) (b : Bank) (n : RegNum) (v : Word) : (s.writeBank b n v).cpsr = s.cpsr := by
  unfold State.writeBank; split <;> rfl
@[simp] theorem State.writeBank_spsrs (s : State) (b : Bank) (n : RegNum) (v : Word) : (s.writeBank b n v).spsrs = s.spsrs := by
  unfold State.writeBank; split <;> rfl
@[simp] theorem State.writeBank_mem (s : State) (b : Bank) (n : RegNum) (v : Word) : (s.writeBank b n v).mem = s.mem := by
  unfold State.writeBank; split <;> rfl
@[simp] theorem State.writeBank_deviceLog (s : State) (b : Bank) (n : RegNum) (v : Word) : (s.writeBank b n v).deviceLog = s.deviceLog := by
  unfold State.writeBank; split <;> rfl
@[simp] theorem State.writeBank_platform (s : State) (b : Bank) (n : RegNum) (v : Word) : (s.writeBank b n v).platform = s.platform := by
  unfold State.writeBank; split <;> rfl
@[simp] theorem State.writeBank_inputs (s : State) (b : Bank) (n : RegNum) (v : Word) : (s.writeBank b n v).inputs = s.inputs := by
  unfold State.writeBank; split <;> rfl
@[simp] theorem State.writeBank_draws (s : State) (b : Bank) (n : RegNum) (v : Word) : (s.writeBank b n v).draws = s.draws := by
  unfold State.writeBank; split <;> rfl
@[simp] theorem State.writeReg_pc (s : State) (n : RegNum) (v : Word) : (s.writeReg n v).pc = s.pc := by
  simp [State.writeReg]
@[simp] theorem State.writeReg_cpsr (s : State) (n : RegNum) (v : Word) : (s.writeReg n v).cpsr = s.cpsr := by
  simp [State.writeReg]
@[simp] theorem State.writeReg_spsrs (s : State) (n : RegNum) (v : Word) : (s.writeReg n v).spsrs = s.spsrs := by
  simp [State.writeReg]
@[simp] theorem State.writeReg_mem (s : State) (n : RegNum) (v : Word) : (s.writeReg n v).mem = s.mem := by
  simp [State.writeReg]
@[simp] theorem State.writeReg_deviceLog (s : State) (n : RegNum) (v : Word) : (s.writeReg n v).deviceLog = s.deviceLog := by
  simp [State.writeReg]
@[simp] theorem State.writeReg_platform (s : State) (n : RegNum) (v : Word) : (s.writeReg n v).platform = s.platform := by
  simp [State.writeReg]
@[simp] theorem State.writeReg_inputs (s : State) (n : RegNum) (v : Word) : (s.writeReg n v).inputs = s.inputs := by
  simp [State.writeReg]
@[simp] theorem State.writeReg_draws (s : State) (n : RegNum) (v : Word) : (s.writeReg n v).draws = s.draws := by
  simp [State.writeReg]
@[simp] theorem State.writeBackIf_pc (s : State) (wb : Bool) (n : RegNum) (v : Word) : (s.writeBackIf wb n v).pc = s.pc := by
  unfold State.writeBackIf; split <;> simp
@[simp] theorem State.writeBackIf_cpsr (s : State) (wb : Bool) (n : RegNum) (v : Word) : (s.writeBackIf wb n v).cpsr = s.cpsr := by
  unfold State.writeBackIf; split <;> simp
@[simp] theorem State.writeBackIf_spsrs (s : State) (wb : Bool) (n : RegNum) (v : Word) : (s.writeBackIf wb n v).spsrs = s.spsrs := by
  unfold State.writeBackIf; split <;> simp
@[simp] theorem State.writeBackIf_mem (s : State) (wb : Bool) (n : RegNum) (v : Word) : (s.writeBackIf wb n v).mem = s.mem := by
  unfold State.writeBackIf; split <;> simp
@[simp] theorem State.writeBackIf_deviceLog (s : State) (wb : Bool) (n : RegNum) (v : Word) : (s.writeBackIf wb n v).deviceLog = s.deviceLog := by
  unfold State.writeBackIf; split <;> simp
@[simp] theorem State.writeBackIf_platform (s : State) (wb : Bool) (n : RegNum) (v : Word) : (s.writeBackIf wb n v).platform = s.platform := by
  unfold State.writeBackIf; split <;> simp
@[simp] theorem State.writeBackIf_inputs (s : State) (wb : Bool) (n : RegNum) (v : Word) : (s.writeBackIf wb n v).inputs = s.inputs := by
  unfold State.writeBackIf; split <;> simp
@[simp] theorem State.writeBackIf_draws (s : State) (wb : Bool) (n : RegNum) (v : Word) : (s.writeBackIf wb n v).draws = s.draws := by
  unfold State.writeBackIf; split <;> simp
@[simp] theorem writeLoaded_pc (b : Bank) (l : Loaded) (s : State) : (writeLoaded b l s).pc = s.pc := by
  induction l generalizing s with
  | nil => rfl
  | cons x xs ih => simp [writeLoaded, ih]
@[simp] theorem writeLoaded_cpsr (b : Bank) (l : Loaded) (s : State) : (writeLoaded b l s).cpsr = s.cpsr := by
  induction l generalizing s with
  | nil => rfl
  | cons x xs ih => simp [writeLoaded, ih]
@[simp] theorem writeLoaded_spsrs (b : Bank) (l : Loaded) (s : State) : (writeLoaded b l s).spsrs = s.spsrs := by
  induction l generalizing s with
  | nil => rfl
  | cons x xs ih => simp [writeLoaded, ih]
@[simp] theorem writeLoaded_mem (b : Bank) (l : Loaded) (s : State) : (writeLoaded b l s).mem = s.mem := by
  induction l generalizing s with
  | nil => rfl
  | cons x xs ih => simp [writeLoaded, ih]
@[simp] theorem writeLoaded_deviceLog (b : Bank) (l : Loaded) (s : State) : (writeLoaded b l s).deviceLog = s.deviceLog := by
  induction l generalizing s with
  | nil => rfl
  | cons x xs ih => simp [writeLoaded, ih]
@[simp] theorem writeLoaded_platform (b : Bank) (l : Loaded) (s : State) : (writeLoaded b l s).platform = s.platform := by
  induction l generalizing s with
  | nil => rfl
  | cons x xs ih => simp [writeLoaded, ih]
@[simp] theorem writeLoaded_inputs (b : Bank) (l : Loaded) (s : State) : (writeLoaded b l s).inputs = s.inputs := by
  induction l generalizing s with
  | nil => rfl
  | cons x xs ih => simp [writeLoaded, ih]
@[simp] theorem writeLoaded_draws (b : Bank) (l : Loaded) (s : State) : (writeLoaded b l s).draws = s.draws := by
  induction l generalizing s with
  | nil => rfl
  | cons x xs ih => simp [writeLoaded, ih]
@[simp] theorem State.writePhys_pc (s : State) (l : RegWrites) : (s.writePhys l).pc = s.pc := rfl
@[simp] theorem State.writePhys_cpsr (s : State) (l : RegWrites) : (s.writePhys l).cpsr = s.cpsr := rfl
@[simp] theorem State.writePhys_spsrs (s : State) (l : RegWrites) : (s.writePhys l).spsrs = s.spsrs := rfl
@[simp] theorem State.writePhys_mem (s : State) (l : RegWrites) : (s.writePhys l).mem = s.mem := rfl
@[simp] theorem State.writePhys_deviceLog (s : State) (l : RegWrites) : (s.writePhys l).deviceLog = s.deviceLog := rfl
@[simp] theorem State.writePhys_platform (s : State) (l : RegWrites) : (s.writePhys l).platform = s.platform := rfl
@[simp] theorem State.writePhys_inputs (s : State) (l : RegWrites) : (s.writePhys l).inputs = s.inputs := rfl
@[simp] theorem State.writePhys_draws (s : State) (l : RegWrites) : (s.writePhys l).draws = s.draws := rfl
@[simp] theorem State.writeSpsr?_regs (s : State) (v : Option Word) : (s.writeSpsr? v).regs = s.regs := by
  unfold State.writeSpsr?; split <;> rfl
@[simp] theorem State.writeSpsr?_pc (s : State) (v : Option Word) : (s.writeSpsr? v).pc = s.pc := by
  unfold State.writeSpsr?; split <;> rfl
@[simp] theorem State.writeSpsr?_cpsr (s : State) (v : Option Word) : (s.writeSpsr? v).cpsr = s.cpsr := by
  unfold State.writeSpsr?; split <;> rfl
@[simp] theorem State.writeSpsr?_mem (s : State) (v : Option Word) : (s.writeSpsr? v).mem = s.mem := by
  unfold State.writeSpsr?; split <;> rfl
@[simp] theorem State.writeSpsr?_deviceLog (s : State) (v : Option Word) : (s.writeSpsr? v).deviceLog = s.deviceLog := by
  unfold State.writeSpsr?; split <;> rfl
@[simp] theorem State.writeSpsr?_platform (s : State) (v : Option Word) : (s.writeSpsr? v).platform = s.platform := by
  unfold State.writeSpsr?; split <;> rfl
@[simp] theorem State.writeSpsr?_inputs (s : State) (v : Option Word) : (s.writeSpsr? v).inputs = s.inputs := by
  unfold State.writeSpsr?; split <;> rfl
@[simp] theorem State.writeSpsr?_draws (s : State) (v : Option Word) : (s.writeSpsr? v).draws = s.draws := by
  unfold State.writeSpsr?; split <;> rfl

/-! ## Advancing the pc -/

@[simp] theorem State.advanceArm_regs (s : State) : s.advanceArm.regs = s.regs := rfl
@[simp] theorem State.advanceArm_pc (s : State) : s.advanceArm.pc = s.pc + 4#32 := rfl
@[simp] theorem State.advanceArm_cpsr (s : State) : s.advanceArm.cpsr = s.cpsr := rfl
@[simp] theorem State.advanceArm_spsrs (s : State) : s.advanceArm.spsrs = s.spsrs := rfl
@[simp] theorem State.advanceArm_mem (s : State) : s.advanceArm.mem = s.mem := rfl
@[simp] theorem State.advanceArm_deviceLog (s : State) : s.advanceArm.deviceLog = s.deviceLog := rfl
@[simp] theorem State.advanceArm_platform (s : State) : s.advanceArm.platform = s.platform := rfl
@[simp] theorem State.advanceArm_inputs (s : State) : s.advanceArm.inputs = s.inputs := rfl
@[simp] theorem State.advanceArm_draws (s : State) : s.advanceArm.draws = s.draws := rfl
@[simp] theorem State.advanceThumb_regs (s : State) : s.advanceThumb.regs = s.regs := rfl
@[simp] theorem State.advanceThumb_pc (s : State) : s.advanceThumb.pc = s.pc + 2#32 := rfl
@[simp] theorem State.advanceThumb_cpsr (s : State) : s.advanceThumb.cpsr = s.cpsr := rfl
@[simp] theorem State.advanceThumb_spsrs (s : State) : s.advanceThumb.spsrs = s.spsrs := rfl
@[simp] theorem State.advanceThumb_mem (s : State) : s.advanceThumb.mem = s.mem := rfl
@[simp] theorem State.advanceThumb_deviceLog (s : State) : s.advanceThumb.deviceLog = s.deviceLog := rfl
@[simp] theorem State.advanceThumb_platform (s : State) : s.advanceThumb.platform = s.platform := rfl
@[simp] theorem State.advanceThumb_inputs (s : State) : s.advanceThumb.inputs = s.inputs := rfl
@[simp] theorem State.advanceThumb_draws (s : State) : s.advanceThumb.draws = s.draws := rfl

/-! ## Consulting ABORT, drawing, passing a boundary -/

@[simp] theorem State.consulted_regs (s : State) : s.consulted.regs = s.regs := rfl
@[simp] theorem State.consulted_pc (s : State) : s.consulted.pc = s.pc := rfl
@[simp] theorem State.consulted_cpsr (s : State) : s.consulted.cpsr = s.cpsr := rfl
@[simp] theorem State.consulted_spsrs (s : State) : s.consulted.spsrs = s.spsrs := rfl
@[simp] theorem State.consulted_mem (s : State) : s.consulted.mem = s.mem := rfl
@[simp] theorem State.consulted_deviceLog (s : State) : s.consulted.deviceLog = s.deviceLog := rfl
@[simp] theorem State.consulted_platform (s : State) : s.consulted.platform = s.platform := rfl
@[simp] theorem State.consulted_draws (s : State) : s.consulted.draws = s.draws := rfl
@[simp] theorem State.consulted_aborts (s : State) : s.consulted.inputs.aborts = s.inputs.aborts.tail := rfl
@[simp] theorem State.drew_regs (s : State) (n : Nat) : (s.drew n).regs = s.regs := rfl
@[simp] theorem State.drew_pc (s : State) (n : Nat) : (s.drew n).pc = s.pc := rfl
@[simp] theorem State.drew_cpsr (s : State) (n : Nat) : (s.drew n).cpsr = s.cpsr := rfl
@[simp] theorem State.drew_spsrs (s : State) (n : Nat) : (s.drew n).spsrs = s.spsrs := rfl
@[simp] theorem State.drew_mem (s : State) (n : Nat) : (s.drew n).mem = s.mem := rfl
@[simp] theorem State.drew_deviceLog (s : State) (n : Nat) : (s.drew n).deviceLog = s.deviceLog := rfl
@[simp] theorem State.drew_platform (s : State) (n : Nat) : (s.drew n).platform = s.platform := rfl
@[simp] theorem State.drew_inputs (s : State) (n : Nat) : (s.drew n).inputs = s.inputs := rfl
@[simp] theorem State.drew_draws (s : State) (n : Nat) : (s.drew n).draws = s.draws + n := rfl
@[simp] theorem State.passBoundary_regs (s : State) : s.passBoundary.regs = s.regs := rfl
@[simp] theorem State.passBoundary_pc (s : State) : s.passBoundary.pc = s.pc := rfl
@[simp] theorem State.passBoundary_cpsr (s : State) : s.passBoundary.cpsr = s.cpsr := rfl
@[simp] theorem State.passBoundary_spsrs (s : State) : s.passBoundary.spsrs = s.spsrs := rfl
@[simp] theorem State.passBoundary_mem (s : State) : s.passBoundary.mem = s.mem := rfl
@[simp] theorem State.passBoundary_deviceLog (s : State) : s.passBoundary.deviceLog = s.deviceLog := rfl
@[simp] theorem State.passBoundary_platform (s : State) : s.passBoundary.platform = s.platform := rfl
@[simp] theorem State.passBoundary_draws (s : State) : s.passBoundary.draws = s.draws := rfl
@[simp] theorem State.passBoundary_reset (s : State) : s.passBoundary.inputs.reset = s.inputs.reset.tail := rfl
@[simp] theorem State.passBoundary_fiq (s : State) : s.passBoundary.inputs.fiq = s.inputs.fiq.tail := rfl
@[simp] theorem State.passBoundary_irq (s : State) : s.passBoundary.inputs.irq = s.inputs.irq.tail := rfl
@[simp] theorem State.passBoundary_aborts (s : State) : s.passBoundary.inputs.aborts = s.inputs.aborts := rfl

/-! ## Storing -/

@[simp] theorem State.storeValue_regs (s : State) (w : Width) (a v : Word) : (s.storeValue w a v).regs = s.regs := rfl
@[simp] theorem State.storeValue_pc (s : State) (w : Width) (a v : Word) : (s.storeValue w a v).pc = s.pc := rfl
@[simp] theorem State.storeValue_cpsr (s : State) (w : Width) (a v : Word) : (s.storeValue w a v).cpsr = s.cpsr := rfl
@[simp] theorem State.storeValue_spsrs (s : State) (w : Width) (a v : Word) : (s.storeValue w a v).spsrs = s.spsrs := rfl
@[simp] theorem State.storeValue_deviceLog (s : State) (w : Width) (a v : Word) : (s.storeValue w a v).deviceLog = s.deviceLog := rfl
@[simp] theorem State.storeValue_platform (s : State) (w : Width) (a v : Word) : (s.storeValue w a v).platform = s.platform := rfl
@[simp] theorem State.storeValue_inputs (s : State) (w : Width) (a v : Word) : (s.storeValue w a v).inputs = s.inputs := rfl
@[simp] theorem State.storeValue_draws (s : State) (w : Width) (a v : Word) : (s.storeValue w a v).draws = s.draws := rfl
@[simp] theorem State.scramble_regs (s : State) (w : Width) (a : Word) : (s.scramble w a).regs = s.regs := rfl
@[simp] theorem State.scramble_pc (s : State) (w : Width) (a : Word) : (s.scramble w a).pc = s.pc := rfl
@[simp] theorem State.scramble_cpsr (s : State) (w : Width) (a : Word) : (s.scramble w a).cpsr = s.cpsr := rfl
@[simp] theorem State.scramble_spsrs (s : State) (w : Width) (a : Word) : (s.scramble w a).spsrs = s.spsrs := rfl
@[simp] theorem State.scramble_deviceLog (s : State) (w : Width) (a : Word) : (s.scramble w a).deviceLog = s.deviceLog := rfl
@[simp] theorem State.scramble_platform (s : State) (w : Width) (a : Word) : (s.scramble w a).platform = s.platform := rfl
@[simp] theorem State.scramble_inputs (s : State) (w : Width) (a : Word) : (s.scramble w a).inputs = s.inputs := rfl
@[simp] theorem State.deviceStore_regs (s : State) (w : Width) (a v : Word) : (s.deviceStore w a v).regs = s.regs := rfl
@[simp] theorem State.deviceStore_pc (s : State) (w : Width) (a v : Word) : (s.deviceStore w a v).pc = s.pc := rfl
@[simp] theorem State.deviceStore_cpsr (s : State) (w : Width) (a v : Word) : (s.deviceStore w a v).cpsr = s.cpsr := rfl
@[simp] theorem State.deviceStore_spsrs (s : State) (w : Width) (a v : Word) : (s.deviceStore w a v).spsrs = s.spsrs := rfl
@[simp] theorem State.deviceStore_platform (s : State) (w : Width) (a v : Word) : (s.deviceStore w a v).platform = s.platform := rfl
@[simp] theorem State.deviceStore_inputs (s : State) (w : Width) (a v : Word) : (s.deviceStore w a v).inputs = s.inputs := rfl
@[simp] theorem State.deviceStore_draws (s : State) (w : Width) (a v : Word) : (s.deviceStore w a v).draws = s.draws := rfl
@[simp] theorem State.deviceStore_deviceLog (s : State) (w : Width) (a v : Word) :
    (s.deviceStore w a v).deviceLog = s.deviceLog ++ [{ addr := a, width := w, value := w.truncate v }] := rfl

/-! ## What an access meets -/

/-- What an access meets is the memory map's, so it is the same in every state of a run. -/
theorem State.touches_congr {s t : State} (h : t.platform = s.platform) (k : RegionKind) (w : Width) (a : Word) :
    t.touches k w a = s.touches k w a := by unfold State.touches; rw [h]
@[simp] theorem State.consulted_touches (s : State) (k : RegionKind) (w : Width) (a : Word) :
    s.consulted.touches k w a = s.touches k w a := State.touches_congr (by simp) k w a
@[simp] theorem State.drew_touches (s : State) (n : Nat) (k : RegionKind) (w : Width) (a : Word) :
    (s.drew n).touches k w a = s.touches k w a := State.touches_congr (by simp) k w a
@[simp] theorem State.passBoundary_touches (s : State) (k : RegionKind) (w : Width) (a : Word) :
    s.passBoundary.touches k w a = s.touches k w a := State.touches_congr (by simp) k w a
@[simp] theorem State.storeValue_touches (s : State) (x : Width) (b v : Word) (k : RegionKind) (w : Width) (a : Word) :
    (s.storeValue x b v).touches k w a = s.touches k w a := State.touches_congr (by simp) k w a
@[simp] theorem State.deviceStore_touches (s : State) (x : Width) (b v : Word) (k : RegionKind) (w : Width) (a : Word) :
    (s.deviceStore x b v).touches k w a = s.touches k w a := State.touches_congr (by simp) k w a
@[simp] theorem State.scramble_touches (s : State) (x : Width) (b : Word) (k : RegionKind) (w : Width) (a : Word) :
    (s.scramble x b).touches k w a = s.touches k w a := State.touches_congr (by simp) k w a
@[simp] theorem State.advanceArm_touches (s : State) (k : RegionKind) (w : Width) (a : Word) :
    s.advanceArm.touches k w a = s.touches k w a := State.touches_congr (by simp) k w a
@[simp] theorem State.writeReg_touches (s : State) (n : RegNum) (v : Word) (k : RegionKind) (w : Width) (a : Word) :
    (s.writeReg n v).touches k w a = s.touches k w a := State.touches_congr (by simp) k w a

/-! ## Taking an exception (60_exceptions.md R152) -/

@[simp] theorem enterException_regs (e : Exc) (link : Word) (s : State) : (enterException e link s).regs = s.regs.set (.lr (some e.mode)) link := rfl
@[simp] theorem enterException_pc (e : Exc) (link : Word) (s : State) : (enterException e link s).pc = e.vector := rfl
@[simp] theorem enterException_cpsr (e : Exc) (link : Word) (s : State) : (enterException e link s).cpsr = entryPsr e s.cpsr := rfl
@[simp] theorem enterException_spsrs (e : Exc) (link : Word) (s : State) : (enterException e link s).spsrs = s.spsrs.set e.mode s.cpsr := rfl
@[simp] theorem enterException_mem (e : Exc) (link : Word) (s : State) : (enterException e link s).mem = s.mem := rfl
@[simp] theorem enterException_deviceLog (e : Exc) (link : Word) (s : State) : (enterException e link s).deviceLog = s.deviceLog := rfl
@[simp] theorem enterException_platform (e : Exc) (link : Word) (s : State) : (enterException e link s).platform = s.platform := rfl
@[simp] theorem enterException_inputs (e : Exc) (link : Word) (s : State) : (enterException e link s).inputs = s.inputs := rfl
@[simp] theorem enterException_draws (e : Exc) (link : Word) (s : State) : (enterException e link s).draws = s.draws := rfl
@[simp] theorem takeReset_mem (s : State) : (takeReset s).mem = s.mem := rfl
@[simp] theorem takeReset_deviceLog (s : State) : (takeReset s).deviceLog = s.deviceLog := rfl
@[simp] theorem takeReset_platform (s : State) : (takeReset s).platform = s.platform := rfl
@[simp] theorem takeReset_inputs (s : State) : (takeReset s).inputs = s.inputs := rfl
@[simp] theorem takeReset_pc (s : State) : (takeReset s).pc = 0#32 := rfl
@[simp] theorem takeReset_cpsr (s : State) : (takeReset s).cpsr = entryPsr .reset (Config.freeWord (s.draws + 35)) := rfl
@[simp] theorem takeReset_draws (s : State) : (takeReset s).draws = s.draws + 36 := rfl
@[simp] theorem takeException_mem (e : Exc) (a : Word) (s : State) : (takeException e a s).mem = s.mem := by
  unfold takeException; split <;> simp
@[simp] theorem takeException_deviceLog (e : Exc) (a : Word) (s : State) : (takeException e a s).deviceLog = s.deviceLog := by
  unfold takeException; split <;> simp
@[simp] theorem takeException_platform (e : Exc) (a : Word) (s : State) : (takeException e a s).platform = s.platform := by
  unfold takeException; split <;> simp
@[simp] theorem takeException_inputs (e : Exc) (a : Word) (s : State) : (takeException e a s).inputs = s.inputs := by
  unfold takeException; split <;> simp
@[simp] theorem takeException_pc (e : Exc) (a : Word) (s : State) : (takeException e a s).pc = e.vector := by
  cases e <;> rfl

end Sys2Proof.Machine
end

