-- ==== Sys2Proof/Laws/Memory.lean ====
section
/-! SUPPORT. Memory as data: a read after a write, the canonical form, and words put together from bytes
(20_memory.md R52, R55, R56). -/

namespace Sys2Proof.Machine

/-! ## Bytes and words -/

@[simp] theorem littleBytes_length (n : Nat) (v : Word) : (littleBytes n v).length = n := by
  induction n generalizing v with
  | zero => rfl
  | succ n ih => simp [littleBytes, ih]

@[simp] theorem toBytes_length (big : Bool) (n : Nat) (v : Word) : (toBytes big n v).length = n := by
  cases big <;> simp [toBytes]

theorem ofLittleBytes_littleBytes_word (v : Word) : ofLittleBytes (littleBytes 4 v) = v := by
  simp only [littleBytes, ofLittleBytes]
  ext i hi
  simp only [BitVec.getElem_or, BitVec.getElem_setWidth, BitVec.getElem_shiftLeft, BitVec.getLsbD_setWidth,
    BitVec.getLsbD_ushiftRight, BitVec.getElem_zero]
  rw [← BitVec.getLsbD_eq_getElem]
  by_cases h1 : i < 8
  · simp [h1]
  by_cases h2 : i < 16
  · simp [h1, show i - 8 < 8 by omega, show 8 + (i - 8) = i by omega, hi]
  by_cases h3 : i < 24
  · simp [h1, show ¬ i - 8 < 8 by omega, show i - 8 - 8 < 8 by omega, show 8 + (8 + (i - 8 - 8)) = i by omega]
  · simp [h1, show ¬ i - 8 < 8 by omega, show ¬ i - 8 - 8 < 8 by omega, show i - 8 - 8 - 8 < 8 by omega,
      show 8 + (8 + (8 + (i - 8 - 8 - 8))) = i by omega]

theorem getLsbD_byteMask : ∀ i : Fin 32, (0xFF#32).getLsbD i = decide (i.val < 8) := by decide

theorem getLsbD_halfMask : ∀ i : Fin 32, (0xFFFF#32).getLsbD i = decide (i.val < 16) := by decide

theorem ofLittleBytes_littleBytes_byte (v : Word) : ofLittleBytes (littleBytes 1 v) = v &&& 0xFF#32 := by
  simp only [littleBytes, ofLittleBytes]
  ext i hi
  have hm := getLsbD_byteMask ⟨i, hi⟩
  simp only [BitVec.getElem_or, BitVec.getElem_setWidth, BitVec.getElem_shiftLeft, BitVec.getLsbD_setWidth,
    BitVec.getElem_zero, BitVec.getElem_and]
  rw [← BitVec.getLsbD_eq_getElem, ← BitVec.getLsbD_eq_getElem, hm]
  by_cases h1 : i < 8 <;> simp [h1]

theorem ofLittleBytes_littleBytes_half (v : Word) : ofLittleBytes (littleBytes 2 v) = v &&& 0xFFFF#32 := by
  simp only [littleBytes, ofLittleBytes]
  ext i hi
  have hm := getLsbD_halfMask ⟨i, hi⟩
  simp only [BitVec.getElem_or, BitVec.getElem_setWidth, BitVec.getElem_shiftLeft, BitVec.getLsbD_setWidth,
    BitVec.getLsbD_ushiftRight, BitVec.getElem_zero, BitVec.getElem_and]
  rw [← BitVec.getLsbD_eq_getElem, ← BitVec.getLsbD_eq_getElem, hm]
  by_cases h1 : i < 8
  · simp [h1, show i < 16 by omega]
  by_cases h2 : i < 16
  · simp [h1, h2, show i - 8 < 8 by omega, show 8 + (i - 8) = i by omega]
  · simp [h1, h2, show ¬ i - 8 < 8 by omega]

/-- What is stored in an access's bytes reads back as the bits the access moves. -/
theorem ofBytes_toBytes (big : Bool) (w : Width) (v : Word) :
    ofBytes big (toBytes big w.bytes v) = w.truncate v := by
  cases big <;> cases w <;>
    simp [ofBytes, toBytes, Width.bytes, Width.truncate, ofLittleBytes_littleBytes_word,
      ofLittleBytes_littleBytes_byte, ofLittleBytes_littleBytes_half]

/-! ## One byte -/

/-- Bytes depend on the bits they hold. -/
theorem littleBytes_congr (n : Nat) {v v' : Word} (h : ∀ i, i < 8 * n → v.getLsbD i = v'.getLsbD i) :
    littleBytes n v = littleBytes n v' := by
  induction n generalizing v v' with
  | zero => rfl
  | succ n ih =>
    simp only [littleBytes]
    congr 1
    · apply BitVec.eq_of_getLsbD_eq
      intro i hi
      simp only [BitVec.getLsbD_setWidth, hi, decide_true, Bool.true_and]
      exact h i (by omega)
    · exact ih fun i hi => by simp only [BitVec.getLsbD_ushiftRight]; exact h _ (by omega)

theorem littleBytes_ofLittleBytes {l : List Byte} (h : l.length ≤ 4) : littleBytes l.length (ofLittleBytes l) = l := by
  induction l with
  | nil => rfl
  | cons b l ih =>
    simp only [List.length_cons] at h
    have h1 : (b.setWidth 32 ||| ofLittleBytes l <<< 8).setWidth 8 = b := by
      apply BitVec.eq_of_getLsbD_eq
      intro i hi
      simp [hi]
    have h2 : littleBytes l.length ((b.setWidth 32 ||| ofLittleBytes l <<< 8) >>> 8) = littleBytes l.length (ofLittleBytes l) :=
      littleBytes_congr _ fun i hi => by
        simp [show 8 + i < 32 by omega, BitVec.getLsbD_eq_getElem (show i < 32 by omega)]
    simp only [List.length_cons, littleBytes, ofLittleBytes, h1, h2, ih (by omega)]

/-- The bytes of the value put together from bytes are those bytes. -/
theorem toBytes_ofBytes (big : Bool) {l : List Byte} (h : l.length ≤ 4) : toBytes big l.length (ofBytes big l) = l := by
  cases big
  · exact littleBytes_ofLittleBytes h
  · simp only [toBytes, ofBytes, if_true]
    rw [← List.length_reverse (as := l), littleBytes_ofLittleBytes (by simpa using h), List.reverse_reverse]

/-- A byte of an access that meets a device, taken back out of its value: memory's, where it is not the device's. -/
theorem State.deviceValue_byte (s : State) (w : Width) (a : Word) {i : Nat} (hi : i < w.bytes)
    (hk : kindAt s.platform.memMap (a.toNat + i) ≠ .device) :
    (toBytes s.platform.bigEndian w.bytes (s.deviceValue w a)).getD i 0#8 = s.mem.read (a.toNat + i) := by
  have hw : w.bytes ≤ 4 := by cases w <;> simp [Width.bytes]
  have := toBytes_ofBytes s.platform.bigEndian (l := (List.range w.bytes).map fun i =>
    if kindAt s.platform.memMap (a.toNat + i) = .device then Config.freeByte (s.draws + i) else s.mem.read (a.toNat + i))
    (by simpa using hw)
  rw [List.length_map, List.length_range] at this
  rw [State.deviceValue, this]
  simp [List.getD_eq_getElem?_getD, hi, hk]

/-- A write leaves every other byte alone, in any memory. -/
theorem Memory.read_write_ne (m : Memory) {a c : Nat} (b : Byte) (h : c ≠ a) :
    Memory.read (Memory.write m a b) c = Memory.read m c := by
  induction m with
  | nil => simp only [Memory.write]; split <;> simp [Memory.read, Ne.symm h]
  | cons x m ih =>
    obtain ⟨k, v⟩ := x
    simp only [Memory.write]
    split
    · split <;> simp [Memory.read, Ne.symm h]
    · split
      · rename_i h1 h2; subst h2; split <;> simp [Memory.read, Ne.symm h]
      · simp [Memory.read, ih]

/-- A byte at an address below every listed one is not listed. -/
theorem Memory.read_of_lt (m : Memory) (a : Nat) (h : ∀ x ∈ m, a < x.1) :
    Memory.read m a = Config.unlistedByte := by
  induction m with
  | nil => rfl
  | cons x m ih =>
    obtain ⟨k, v⟩ := x
    have hk : a < k := h (k, v) (by simp)
    simp only [Memory.read, show k ≠ a by omega, if_false]
    exact ih fun y hy => h y (by simp [hy])

/-- The order half of the canonical form. -/
def Memory.sorted (m : Memory) : Prop := m.Pairwise (fun x y => x.1 < y.1)

theorem Memory.sorted_of_wf {m : Memory} (h : Memory.wf m = true) : m.sorted := by
  simp only [Memory.wf, Bool.and_eq_true, decide_eq_true_eq] at h; exact h.1

/-- A read after a write to the same byte, in a memory in canonical form. -/
theorem Memory.read_write_same {m : Memory} (hm : m.sorted) (a : Nat) (b : Byte) :
    Memory.read (Memory.write m a b) a = b := by
  induction m with
  | nil =>
    simp only [Memory.write]; split
    · rename_i h; simp [Memory.read, h]
    · simp [Memory.read]
  | cons x m ih =>
    obtain ⟨k, v⟩ := x
    obtain ⟨hk, hs⟩ := List.pairwise_cons.mp hm
    simp only [Memory.write]
    split
    · rename_i hlt
      split
      · rename_i hb
        rw [hb]; apply Memory.read_of_lt
        intro y hy
        rcases List.mem_cons.mp hy with rfl | hy
        · exact hlt
        · have := hk y hy; simp only at this; omega
      · simp [Memory.read]
    · split
      · rename_i h1 h2; subst h2
        split
        · rename_i hb; rw [hb]; exact Memory.read_of_lt m a hk
        · simp [Memory.read]
      · rename_i h1 h2
        simp only [Memory.read, show k ≠ a from fun e => h2 e.symm, if_false]
        exact ih hs

/-- The entries a write can leave. -/
theorem Memory.mem_write {m : Memory} {a : Nat} {b : Byte} {x : Host.Cell}
    (hx : x ∈ Memory.write m a b) : (x = (a, b) ∧ b ≠ Config.unlistedByte) ∨ x ∈ m := by
  induction m with
  | nil =>
    simp only [Memory.write] at hx
    split at hx
    · simp at hx
    · rename_i hb; simp at hx; exact .inl ⟨hx, hb⟩
  | cons y m ih =>
    obtain ⟨k, v⟩ := y
    simp only [Memory.write] at hx
    split at hx
    · split at hx
      · exact .inr hx
      · rename_i hb
        rcases List.mem_cons.mp hx with rfl | hx
        · exact .inl ⟨rfl, hb⟩
        · exact .inr hx
    · split at hx
      · split at hx
        · exact .inr (List.mem_cons_of_mem _ hx)
        · rename_i hb
          rcases List.mem_cons.mp hx with rfl | hx
          · exact .inl ⟨rfl, hb⟩
          · exact .inr (List.mem_cons_of_mem _ hx)
      · rcases List.mem_cons.mp hx with rfl | hx
        · exact .inr (by simp)
        · exact (ih hx).imp id (List.mem_cons_of_mem _)

theorem Memory.sorted_write {m : Memory} (hm : m.sorted) (a : Nat) (b : Byte) :
    (Memory.write m a b).sorted := by
  induction m with
  | nil => simp only [Memory.write]; split <;> simp [Memory.sorted]
  | cons x m ih =>
    obtain ⟨k, v⟩ := x
    have hm' := hm
    obtain ⟨hk, hs⟩ := List.pairwise_cons.mp hm
    simp only [Memory.write]
    split
    · rename_i hlt
      split
      · exact hm'
      · refine List.pairwise_cons.mpr ⟨fun y hy => ?_, hm'⟩
        rcases List.mem_cons.mp hy with rfl | hy
        · exact hlt
        · have := hk y hy; simp only at this ⊢; omega
    · split
      · rename_i h1 h2; subst h2
        split
        · exact hs
        · exact List.pairwise_cons.mpr ⟨hk, hs⟩
      · rename_i h1 h2
        refine List.pairwise_cons.mpr ⟨fun y hy => ?_, ih hs⟩
        rcases Memory.mem_write hy with ⟨rfl, _⟩ | hy
        · simp only; omega
        · exact hk y hy

theorem Memory.wf_iff {m : Memory} :
    Memory.wf m = true ↔ m.sorted ∧ ∀ x ∈ m, x.1 < 2 ^ 32 ∧ x.2 ≠ Config.unlistedByte := by
  simp [Memory.wf, Memory.sorted, List.all_eq_true]

/-- A write keeps the canonical form. -/
theorem Memory.wf_write {m : Memory} (hm : Memory.wf m = true) {a : Nat} (ha : a < 2 ^ 32) (b : Byte) :
    Memory.wf (Memory.write m a b) = true := by
  rw [Memory.wf_iff] at hm ⊢
  refine ⟨Memory.sorted_write hm.1 a b, fun x hx => ?_⟩
  rcases Memory.mem_write hx with ⟨rfl, hb⟩ | hx
  · exact ⟨ha, hb⟩
  · exact hm.2 x hx

/-- In canonical form, a byte that is listed is read as it is listed. -/
theorem Memory.read_of_mem {m : Memory} (hm : m.sorted) {x : Host.Cell} (hx : x ∈ m) :
    Memory.read m x.1 = x.2 := by
  induction m with
  | nil => simp at hx
  | cons y m ih =>
    obtain ⟨k, v⟩ := y
    obtain ⟨hk, hs⟩ := List.pairwise_cons.mp hm
    rcases List.mem_cons.mp hx with rfl | hx
    · simp [Memory.read]
    · have := hk x hx
      simp only [Memory.read, show k ≠ x.1 by simp only at this; omega, if_false]
      exact ih hs hx

/-- The form is canonical: memories that read alike are equal. -/
theorem Memory.eq_of_read {m m' : Memory} (hm : Memory.wf m = true) (hm' : Memory.wf m' = true)
    (h : ∀ a, Memory.read m a = Memory.read m' a) : m = m' := by
  induction m generalizing m' with
  | nil =>
    cases m' with
    | nil => rfl
    | cons y m' =>
      obtain ⟨hs, hv⟩ := Memory.wf_iff.mp hm'
      have := Memory.read_of_mem hs (x := y) (by simp)
      rw [← h] at this
      exact absurd this.symm (hv y (by simp)).2
  | cons x m ih =>
    obtain ⟨hs, hv⟩ := Memory.wf_iff.mp hm
    cases m' with
    | nil =>
      have := Memory.read_of_mem hs (x := x) (by simp)
      rw [h] at this
      exact absurd this.symm (hv x (by simp)).2
    | cons y m' =>
      obtain ⟨hs', hv'⟩ := Memory.wf_iff.mp hm'
      obtain ⟨hk, ht⟩ := List.pairwise_cons.mp hs
      obtain ⟨hk', ht'⟩ := List.pairwise_cons.mp hs'
      have hx := Memory.read_of_mem hs (x := x) (by simp)
      have hy := Memory.read_of_mem hs' (x := y) (by simp)
      have hxy : x.1 = y.1 := by
        rcases Nat.lt_trichotomy x.1 y.1 with hlt | he | hlt
        · have := Memory.read_of_lt (y :: m') x.1 (fun z hz => by
            rcases List.mem_cons.mp hz with rfl | hz
            · exact hlt
            · have := hk' z hz; omega)
          rw [← h, hx] at this
          exact absurd this (hv x (by simp)).2
        · exact he
        · have := Memory.read_of_lt (x :: m) y.1 (fun z hz => by
            rcases List.mem_cons.mp hz with rfl | hz
            · exact hlt
            · have := hk z hz; omega)
          rw [h, hy] at this
          exact absurd this (hv' y (by simp)).2
      have he : x = y := Prod.ext hxy (by rw [← hx, ← hy, h, hxy])
      subst he
      congr 1
      apply ih (Memory.wf_iff.mpr ⟨ht, fun z hz => hv z (by simp [hz])⟩)
        (Memory.wf_iff.mpr ⟨ht', fun z hz => hv' z (by simp [hz])⟩)
      intro a
      by_cases ha : a = x.1
      · subst ha
        rw [Memory.read_of_lt m _ hk, Memory.read_of_lt m' _ hk']
      · have := h a
        obtain ⟨k, v⟩ := x
        simpa [Memory.read, show k ≠ a from fun e => ha e.symm] using this

/-! ## Several bytes -/

theorem Memory.read_writeList_outside (bs : List Byte) (m : Memory) {a c : Nat}
    (h : c < a ∨ a + bs.length ≤ c) : Memory.read (Memory.writeList m a bs) c = Memory.read m c := by
  induction bs generalizing m a with
  | nil => rfl
  | cons b bs ih =>
    simp only [List.length_cons] at h
    rw [Memory.writeList, ih _ (by omega), Memory.read_write_ne _ _ (by omega)]

theorem Memory.sorted_writeList (bs : List Byte) {m : Memory} (hm : m.sorted) (a : Nat) :
    (Memory.writeList m a bs).sorted := by
  induction bs generalizing m a with
  | nil => exact hm
  | cons b bs ih => exact ih (Memory.sorted_write hm a b) _

theorem Memory.wf_writeList (bs : List Byte) {m : Memory} (hm : Memory.wf m = true) {a : Nat}
    (ha : a + bs.length ≤ 2 ^ 32) : Memory.wf (Memory.writeList m a bs) = true := by
  induction bs generalizing m a with
  | nil => exact hm
  | cons b bs ih =>
    simp only [List.length_cons] at ha
    exact ih (Memory.wf_write hm (by omega) b) (by omega)

theorem Memory.readList_congr {m m' : Memory} {a n : Nat}
    (h : ∀ c, a ≤ c → c < a + n → Memory.read m c = Memory.read m' c) :
    Memory.readList m a n = Memory.readList m' a n := by
  induction n generalizing a with
  | zero => rfl
  | succ n ih =>
    simp only [Memory.readList]
    rw [h a (by omega) (by omega), ih fun c h1 h2 => h c (by omega) (by omega)]

theorem Memory.readList_writeList (bs : List Byte) {m : Memory} (hm : m.sorted) (a : Nat) :
    Memory.readList (Memory.writeList m a bs) a bs.length = bs := by
  induction bs generalizing m a with
  | nil => rfl
  | cons b bs ih =>
    simp only [List.length_cons, Memory.readList, Memory.writeList]
    rw [Memory.read_writeList_outside _ _ (by omega), Memory.read_write_same hm,
      ih (Memory.sorted_write hm a b)]

/-- A stored value reads back, as far as the access moves it. -/
theorem State.memValue_storeValue {s : State} (hm : s.mem.sorted) (w : Width) (a v : Word) :
    (s.storeValue w a v).memValue w a = w.truncate v := by
  have h := Memory.readList_writeList (toBytes s.platform.bigEndian w.bytes v) hm a.toNat
  rw [toBytes_length] at h
  simp only [State.memValue, State.storeValue, h, ofBytes_toBytes]

/-- An aligned access ends inside the address space. -/
theorem end_of_aligned {w : Width} {a : Word} (h : AlignedTo w.bytes a) : a.toNat + w.bytes ≤ 2 ^ 32 := by
  have := a.isLt
  cases w <;> simp only [AlignedTo, Width.bytes] at * <;> omega

theorem State.storeValue_wf {s : State} (hm : Memory.wf s.mem = true) {w : Width} {a : Word}
    (ha : AlignedTo w.bytes a) (v : Word) : Memory.wf (s.storeValue w a v).mem = true :=
  Memory.wf_writeList _ hm (by rw [toBytes_length]; exact end_of_aligned ha)

theorem State.storeValue_read_outside (s : State) (w : Width) (a v : Word) {c : Nat}
    (h : c < a.toNat ∨ a.toNat + w.bytes ≤ c) : (s.storeValue w a v).mem.read c = s.mem.read c :=
  Memory.read_writeList_outside _ _ (by rw [toBytes_length]; exact h)

/-! ## Bytes stored only where there is ordinary memory (log 8, 9) -/

theorem Memory.read_writeOver_outside (map : List Region) (bs : List Byte) (m : Memory) {a c : Nat}
    (h : c < a ∨ a + bs.length ≤ c) : Memory.read (Memory.writeOver map m a bs) c = Memory.read m c := by
  induction bs generalizing m a with
  | nil => rfl
  | cons b bs ih =>
    simp only [List.length_cons] at h
    rw [Memory.writeOver, ih _ (by omega)]
    split
    · exact Memory.read_write_ne _ _ (by omega)
    · rfl

/-- A byte that is not ordinary memory is not written. -/
theorem Memory.read_writeOver_of_ne (map : List Region) (bs : List Byte) (m : Memory) {a c : Nat}
    (h : kindAt map c ≠ .memory) : Memory.read (Memory.writeOver map m a bs) c = Memory.read m c := by
  induction bs generalizing m a with
  | nil => rfl
  | cons b bs ih =>
    rw [Memory.writeOver, ih]
    split
    · rename_i hk
      exact Memory.read_write_ne _ _ fun e => h (e ▸ hk)
    · rfl

theorem Memory.sorted_writeOver (map : List Region) (bs : List Byte) {m : Memory} (hm : m.sorted) (a : Nat) :
    (Memory.writeOver map m a bs).sorted := by
  induction bs generalizing m a with
  | nil => exact hm
  | cons b bs ih =>
    refine ih ?_ _
    split
    · exact Memory.sorted_write hm a b
    · exact hm

theorem Memory.wf_writeOver (map : List Region) (bs : List Byte) {m : Memory} (hm : Memory.wf m = true) {a : Nat}
    (ha : a + bs.length ≤ 2 ^ 32) : Memory.wf (Memory.writeOver map m a bs) = true := by
  induction bs generalizing m a with
  | nil => exact hm
  | cons b bs ih =>
    simp only [List.length_cons] at ha
    refine ih ?_ (by omega)
    split
    · exact Memory.wf_write hm (by omega) b
    · exact hm

/-- A byte of ordinary memory is the one written. -/
theorem Memory.read_writeOver_of_memory (map : List Region) (bs : List Byte) {m : Memory} (hm : m.sorted) {a i : Nat}
    (hi : i < bs.length) (hk : kindAt map (a + i) = .memory) :
    Memory.read (Memory.writeOver map m a bs) (a + i) = bs.getD i 0#8 := by
  induction bs generalizing m a i with
  | nil => simp at hi
  | cons b bs ih =>
    rw [Memory.writeOver]
    cases i with
    | zero =>
      simp only [Nat.add_zero] at hk ⊢
      rw [Memory.read_writeOver_outside _ _ _ (by omega), if_pos hk, Memory.read_write_same hm]
      rfl
    | succ i =>
      have hs : Memory.sorted (if kindAt map a = .memory then Memory.write m a b else m) := by
        split
        · exact Memory.sorted_write hm a b
        · exact hm
      have := ih hs (a := a + 1) (i := i) (by simpa using hi) (by rw [← hk]; congr 1; omega)
      rw [show a + (i + 1) = a + 1 + i by omega, this]
      rfl

theorem State.scramble_wf {s : State} (hm : Memory.wf s.mem = true) {w : Width} {a : Word}
    (ha : AlignedTo w.bytes a) : Memory.wf (s.scramble w a).mem = true :=
  Memory.wf_writeOver _ _ hm (by simpa using end_of_aligned ha)

theorem State.scramble_read_outside (s : State) (w : Width) (a : Word) {c : Nat}
    (h : c < a.toNat ∨ a.toNat + w.bytes ≤ c) : (s.scramble w a).mem.read c = s.mem.read c :=
  Memory.read_writeOver_outside _ _ _ (by simpa using h)

theorem State.scramble_read_of_ne (s : State) (w : Width) (a : Word) {c : Nat}
    (h : kindAt s.platform.memMap c ≠ .memory) : (s.scramble w a).mem.read c = s.mem.read c :=
  Memory.read_writeOver_of_ne _ _ _ h

theorem State.deviceStore_wf {s : State} (hm : Memory.wf s.mem = true) {w : Width} {a : Word}
    (ha : AlignedTo w.bytes a) (v : Word) : Memory.wf (s.deviceStore w a v).mem = true :=
  Memory.wf_writeOver _ _ hm (by rw [toBytes_length]; exact end_of_aligned ha)

theorem State.deviceStore_read_outside (s : State) (w : Width) (a v : Word) {c : Nat}
    (h : c < a.toNat ∨ a.toNat + w.bytes ≤ c) : (s.deviceStore w a v).mem.read c = s.mem.read c :=
  Memory.read_writeOver_outside _ _ _ (by rw [toBytes_length]; exact h)

theorem State.deviceStore_read_of_ne (s : State) (w : Width) (a v : Word) {c : Nat}
    (h : kindAt s.platform.memMap c ≠ .memory) : (s.deviceStore w a v).mem.read c = s.mem.read c :=
  Memory.read_writeOver_of_ne _ _ _ h

theorem State.deviceStore_read_of_memory {s : State} (hm : s.mem.sorted) (w : Width) (a v : Word) {i : Nat}
    (hi : i < w.bytes) (hk : kindAt s.platform.memMap (a.toNat + i) = .memory) :
    (s.deviceStore w a v).mem.read (a.toNat + i) = (toBytes s.platform.bigEndian w.bytes v).getD i 0#8 :=
  Memory.read_writeOver_of_memory _ _ hm (by rw [toBytes_length]; exact hi) hk

end Sys2Proof.Machine
end

