-- ==== Sys2Proof/Laws/Status.lean ====
section
/-! SUPPORT. The fields of a status register after each of its updates (10_state.md R27, 60_exceptions.md
R152), and the modes (R28). -/

namespace Sys2Proof.Machine

/-! ## Bits -/

theorem getLsbD_withBit (p : Word) (i : Nat) (b : Bool) (j : Nat) (hi : i < 32) :
    (withBit p i b).getLsbD j = if j = i then b else p.getLsbD j := by
  unfold withBit
  by_cases hj : j < 32
  · cases b <;> by_cases h : j = i
    · simp [h]
    · by_cases h1 : j < i
      · simp [h, hj, h1]
      · simp [h, hj, h1, show ¬ (j - i = 0) by omega]
    · simp [h]; omega
    · by_cases h1 : j < i
      · simp [h, hj, h1]
      · simp [h, hj, h1, show ¬ (j - i = 0) by omega]
  · have h : j ≠ i := by omega
    simp only [h, if_false]
    rw [BitVec.getLsbD_of_ge _ _ (by omega), BitVec.getLsbD_of_ge _ _ (by omega)]

theorem getLsbD_modeMask : ∀ i : Fin 32, (0xFFFFFFE0#32).getLsbD i = decide (5 ≤ i.val) := by decide

theorem getLsbD_withMode (p : Word) (m : BitVec 5) (j : Nat) :
    (withMode p m).getLsbD j = if j < 5 then m.getLsbD j else p.getLsbD j := by
  unfold withMode
  by_cases hj : j < 32
  · have hm := getLsbD_modeMask ⟨j, hj⟩
    simp only [BitVec.getLsbD_or, BitVec.getLsbD_and, hm, BitVec.getLsbD_setWidth, hj]
    by_cases h : j < 5
    · simp [h]
    · simp [h]; rw [BitVec.getLsbD_of_ge m j (by omega)]; simp; omega
  · rw [BitVec.getLsbD_of_ge _ _ (by omega), if_neg (by omega), BitVec.getLsbD_of_ge _ _ (by omega)]

/-- The mode bits see only bits 4 to 0. -/
theorem psrM_congr {p q : Word} (h : ∀ j, j < 5 → p.getLsbD j = q.getLsbD j) : psrM p = psrM q := by
  apply BitVec.eq_of_getLsbD_eq
  intro j hj
  simp [psrM, hj, h j hj]

@[simp] theorem psrM_withBit (p : Word) (i : Nat) (b : Bool) (h5 : 5 ≤ i) (hi : i < 32) :
    psrM (withBit p i b) = psrM p :=
  psrM_congr fun j hj => by rw [getLsbD_withBit _ _ _ _ hi, if_neg (by omega)]

@[simp] theorem psrM_withMode (p : Word) (m : BitVec 5) : psrM (withMode p m) = m := by
  apply BitVec.eq_of_getLsbD_eq
  intro j hj
  simp [psrM, hj, getLsbD_withMode]

theorem getLsbD_withNZCV (p : Word) (n z c v : Bool) (j : Nat) :
    (withNZCV p n z c v).getLsbD j =
      if j = 28 then v else if j = 29 then c else if j = 30 then z else if j = 31 then n else p.getLsbD j := by
  simp only [withNZCV, getLsbD_withBit _ _ _ _ (show 28 < 32 by omega),
    getLsbD_withBit _ _ _ _ (show 29 < 32 by omega), getLsbD_withBit _ _ _ _ (show 30 < 32 by omega),
    getLsbD_withBit _ _ _ _ (show 31 < 32 by omega)]

@[simp] theorem psrN_withNZCV (p : Word) (n z c v : Bool) : psrN (withNZCV p n z c v) = n := by
  unfold psrN; rw [getLsbD_withNZCV]; rfl
@[simp] theorem psrZ_withNZCV (p : Word) (n z c v : Bool) : psrZ (withNZCV p n z c v) = z := by
  unfold psrZ; rw [getLsbD_withNZCV]; rfl
@[simp] theorem psrC_withNZCV (p : Word) (n z c v : Bool) : psrC (withNZCV p n z c v) = c := by
  unfold psrC; rw [getLsbD_withNZCV]; rfl
@[simp] theorem psrV_withNZCV (p : Word) (n z c v : Bool) : psrV (withNZCV p n z c v) = v := by
  unfold psrV; rw [getLsbD_withNZCV]; rfl
@[simp] theorem psrT_withNZCV (p : Word) (n z c v : Bool) : psrT (withNZCV p n z c v) = psrT p := by
  unfold psrT; rw [getLsbD_withNZCV]; rfl
@[simp] theorem psrM_withNZCV (p : Word) (n z c v : Bool) : psrM (withNZCV p n z c v) = psrM p :=
  psrM_congr fun j hj => by
    rw [getLsbD_withNZCV, if_neg (by omega), if_neg (by omega), if_neg (by omega), if_neg (by omega)]

/-! ## Modes -/

@[simp] theorem Mode.ofBits_bits (m : Mode) : Mode.ofBits m.bits = some m := by cases m <;> rfl

theorem Mode.bits_of_ofBits {b : BitVec 5} {m : Mode} (h : Mode.ofBits b = some m) : b = m.bits := by
  unfold Mode.ofBits at h
  repeat' split at h
  all_goals first
    | (cases h; assumption)
    | cases h

theorem legalMode_congr {p q : Word} (h : psrM p = psrM q) : legalMode p = legalMode q := by
  simp [legalMode, h]

theorem bankOf_congr {p q : Word} (h : psrM p = psrM q) : bankOf p = bankOf q := by simp [bankOf, h]

/-- A bank with an SPSR belongs to a legal mode. -/
theorem legalMode_of_bankOf {p : Word} {m : ExcMode} (h : bankOf p = some m) : legalMode p = true := by
  unfold bankOf at h
  unfold legalMode
  cases hm : Mode.ofBits (psrM p) with
  | none => simp [hm] at h
  | some x => rfl

/-! ## Entry -/

theorem getLsbD_entryPsr (e : Exc) (p : Word) (j : Nat) :
    (entryPsr e p).getLsbD j =
      if j = 5 then false else if j = 7 then true else if j = 6 then e.masksFiq || p.getLsbD 6
      else if j < 5 then e.mode.mode.bits.getLsbD j else p.getLsbD j := by
  simp only [entryPsr, getLsbD_withBit _ _ _ _ (show 5 < 32 by omega)]
  by_cases h5 : j = 5
  · simp [h5]
  · cases hf : e.masksFiq
    · simp only [h5, if_false, Bool.false_eq_true, getLsbD_withBit _ _ _ _ (show 7 < 32 by omega), getLsbD_withMode]
      by_cases h7 : j = 7
      · simp [h7]
      · by_cases h6 : j = 6
        · simp [h6]
        · simp [h7, h6]
    · simp only [h5, if_false, if_true, getLsbD_withBit _ _ _ _ (show 6 < 32 by omega),
        getLsbD_withBit _ _ _ _ (show 7 < 32 by omega), getLsbD_withMode]
      by_cases h7 : j = 7
      · simp [h7]
      · by_cases h6 : j = 6
        · simp [h6]
        · simp [h7, h6]

@[simp] theorem psrT_entryPsr (e : Exc) (p : Word) : psrT (entryPsr e p) = false := by
  unfold psrT; rw [getLsbD_entryPsr]; rfl
@[simp] theorem psrI_entryPsr (e : Exc) (p : Word) : psrI (entryPsr e p) = true := by
  unfold psrI; rw [getLsbD_entryPsr]; rfl
@[simp] theorem psrF_entryPsr (e : Exc) (p : Word) : psrF (entryPsr e p) = (e.masksFiq || psrF p) := by
  unfold psrF; rw [getLsbD_entryPsr]; rfl
@[simp] theorem psrM_entryPsr (e : Exc) (p : Word) : psrM (entryPsr e p) = e.mode.mode.bits := by
  apply BitVec.eq_of_getLsbD_eq
  intro j hj
  simp only [psrM, BitVec.getLsbD_setWidth, hj, decide_true, Bool.true_and, getLsbD_entryPsr,
    show j ≠ 5 by omega, show j ≠ 6 by omega, show j ≠ 7 by omega, if_false, if_true]
@[simp] theorem legalMode_entryPsr (e : Exc) (p : Word) : legalMode (entryPsr e p) = true := by
  simp [legalMode]
@[simp] theorem bankOf_entryPsr (e : Exc) (p : Word) : bankOf (entryPsr e p) = some e.mode := by
  simp only [bankOf, psrM_entryPsr, Mode.ofBits_bits]; cases e <;> rfl
@[simp] theorem userMode_entryPsr (e : Exc) (p : Word) : userMode (entryPsr e p) = false := by
  simp only [userMode, psrM_entryPsr]; cases e <;> decide

end Sys2Proof.Machine
end

