-- ==== Sys2Proof/Laws/Registers.lean ====
section
/-! SUPPORT. The register file and the banking map (10_state.md R22): a read after a write. -/

namespace Sys2Proof.Machine

theorem Banked.get_set (r : Banked) (b c : Bank) (v : Word) :
    (r.set b v).get c = if c = b then v else r.get c := by
  rcases b with _ | b <;> rcases c with _ | c <;> first
    | rfl
    | (cases b <;> rfl)
    | (cases c <;> rfl)
    | (cases b <;> cases c <;> rfl)

theorem RegFile.get_set (r : RegFile) (p q : PhysReg) (v : Word) :
    (r.set p v).get q = if q = p then v else r.get q := by
  cases p <;> cases q <;> simp [RegFile.set, RegFile.get, Banked.get_set, Vector.getElem_set, Fin.ext_iff, eq_comm]

@[simp] theorem RegFile.get_set_same (r : RegFile) (p : PhysReg) (v : Word) : (r.set p v).get p = v := by
  simp [RegFile.get_set]

theorem RegFile.get_set_ne (r : RegFile) {p q : PhysReg} (v : Word) (h : q ≠ p) :
    (r.set p v).get q = r.get q := by
  simp [RegFile.get_set, h]

theorem SpsrFile.get_set (r : SpsrFile) (m n : ExcMode) (v : Word) :
    (r.set m v).get n = if n = m then v else r.get n := by
  cases m <;> cases n <;> rfl

@[simp] theorem SpsrFile.get_set_same (r : SpsrFile) (m : ExcMode) (v : Word) : (r.set m v).get m = v := by
  simp [SpsrFile.get_set]

/-! ## Numbers -/

theorem physReg_eq_none {b : Bank} {n : RegNum} : physReg b n = none ↔ n = 15#4 := by
  have hn := n.isLt
  rw [← BitVec.toNat_inj]
  unfold physReg
  split
  · simp; omega
  split
  · split <;> simp <;> omega
  split
  · simp; omega
  split
  · simp; omega
  · simp; omega

theorem physReg_pc (b : Bank) : physReg b 15#4 = none := physReg_eq_none.mpr rfl

theorem physReg_lr (b : Bank) : physReg b 14#4 = some (.lr b) := rfl

/-- In one bank different numbers name different registers. -/
theorem physReg_inj {b : Bank} {n m : RegNum} {p : PhysReg} (hn : physReg b n = some p)
    (hm : physReg b m = some p) : n = m := by
  apply BitVec.eq_of_toNat_eq
  unfold physReg at hn hm
  repeat' split at hn
  all_goals repeat' split at hm
  all_goals simp_all
  all_goals first
    | omega
    | (subst hn; simp at hm; omega)
    | (subst hn; simp at hm)

theorem physReg_some {b : Bank} {n : RegNum} (h : n ≠ 15#4) : ∃ p, physReg b n = some p :=
  Option.ne_none_iff_exists'.mp fun hn => h (physReg_eq_none.mp hn)

theorem State.writeBank_of_some {s : State} {b : Bank} {n : RegNum} {p : PhysReg} (v : Word)
    (h : physReg b n = some p) : s.writeBank b n v = { s with regs := s.regs.set p v } := by
  simp [State.writeBank, h]

@[simp] theorem State.writeBank_pcNumber (s : State) (b : Bank) (v : Word) : s.writeBank b 15#4 v = s := by
  simp [State.writeBank, physReg_pc]

/-- The physical registers after a write by number. -/
theorem State.writeBank_get (s : State) (b : Bank) (n : RegNum) (v : Word) (q : PhysReg) :
    (s.writeBank b n v).regs.get q = if physReg b n = some q then v else s.regs.get q := by
  unfold State.writeBank
  cases h : physReg b n with
  | none => simp
  | some p =>
    by_cases hq : q = p
    · subst hq; simp
    · simp [RegFile.get_set_ne _ _ hq, Ne.symm hq]

@[simp] theorem State.writeBank_bank (s : State) (b : Bank) (n : RegNum) (v : Word) :
    (s.writeBank b n v).bank = s.bank := by simp [State.bank]
@[simp] theorem State.writeReg_bank (s : State) (n : RegNum) (v : Word) : (s.writeReg n v).bank = s.bank := by
  simp [State.bank]
@[simp] theorem State.writeReg_thumb (s : State) (n : RegNum) (v : Word) : (s.writeReg n v).thumb = s.thumb := by
  simp [State.thumb]

/-- What register 15 reads as depends on the pc and the T bit. -/
theorem State.pcOperand_congr {s t : State} (hp : t.pc = s.pc) (hc : t.cpsr = s.cpsr) :
    t.pcOperand = s.pcOperand := by
  unfold State.pcOperand State.thumb; rw [hp, hc]

theorem State.writeReg_get (s : State) (n : RegNum) (v : Word) (q : PhysReg) :
    (s.writeReg n v).regs.get q = if physReg s.bank n = some q then v else s.regs.get q :=
  State.writeBank_get s s.bank n v q

/-- `x[n]` after `x[n] <- v`. -/
theorem State.readBank_writeBank_same (s : State) (b : Bank) {n : RegNum} (v : Word) (h : n ≠ 15#4) :
    (s.writeBank b n v).readBank b n = v := by
  obtain ⟨p, hp⟩ := physReg_some (b := b) h
  simp [State.readBank, hp, State.writeBank_get]

/-- `x[m]` after `x[n] <- v`, for another number. -/
theorem State.readBank_writeBank_ne (s : State) (b : Bank) {n m : RegNum} (v : Word) (h : m ≠ n) :
    (s.writeBank b n v).readBank b m = s.readBank b m := by
  simp only [State.readBank]
  cases hm : physReg b m with
  | none => exact State.pcOperand_congr (by simp) (by simp)
  | some q =>
    simp only [State.writeBank_get]
    rw [if_neg]
    intro hn
    exact h (physReg_inj hm hn)

theorem State.readReg_writeReg_same (s : State) {n : RegNum} (v : Word) (h : n ≠ 15#4) :
    (s.writeReg n v).readReg n = v := by
  simp only [State.readReg, State.writeReg_bank]
  exact State.readBank_writeBank_same s s.bank v h

theorem State.readReg_writeReg_ne (s : State) {n m : RegNum} (v : Word) (h : m ≠ n) :
    (s.writeReg n v).readReg m = s.readReg m := by
  simp only [State.readReg, State.writeReg_bank]
  exact State.readBank_writeBank_ne s s.bank v h

/-- Register reads see the register file, the pc and the CPSR alone. -/
theorem State.readBank_congr {s t : State} (hr : t.regs = s.regs) (hp : t.pc = s.pc) (hc : t.cpsr = s.cpsr)
    (b : Bank) (n : RegNum) : t.readBank b n = s.readBank b n := by
  simp [State.readBank, State.pcOperand_congr hp hc, hr]

theorem State.readReg_congr {s t : State} (hr : t.regs = s.regs) (hp : t.pc = s.pc) (hc : t.cpsr = s.cpsr)
    (n : RegNum) : t.readReg n = s.readReg n := by
  simp only [State.readReg, State.bank, hc]
  exact State.readBank_congr hr hp hc _ n

end Sys2Proof.Machine
end

