-- ==== Sys2Proof/Laws/Ops.lean ====
section
/-! SUPPORT. One lemma per shared operation that says everything it can do; provers cite it instead of
unfolding the operation. -/

namespace Sys2Proof.Machine

/-! ## Outcomes -/

theorem next_inj {s t : State} (h : (Host.Outcome.next s : Result) = .next t) : s = t := by cases h; rfl

/-- `setPc` answers next exactly for an address that suits the state (10_state.md R26). -/
theorem setPc_next {t : Word} {s u : State} :
    setPc t s = .next u ↔ AlignedTo s.instrSize t ∧ u = { s with pc := t } := by
  unfold setPc
  by_cases h : AlignedTo s.instrSize t
  · rw [if_pos h]
    exact ⟨fun e => ⟨h, (next_inj e).symm⟩, fun e => by rw [e.2]⟩
  · rw [if_neg h]
    exact ⟨(fun e => by cases e), fun e => absurd e.1 h⟩

theorem setPc_of_aligned {t : Word} {s : State} (h : AlignedTo s.instrSize t) :
    setPc t s = .next { s with pc := t } := setPc_next.mpr ⟨h, rfl⟩

theorem setPc_of_misaligned {t : Word} {s : State} (h : ¬ AlignedTo s.instrSize t) :
    setPc t s = .refused .misalignedPc := by unfold setPc; rw [if_neg h]

theorem whenPassed_pos {c : Cond} {s : State} (run : Result) (h : condPassed c s.cpsr = true) :
    whenPassed c s run = run := by unfold whenPassed; rw [if_pos h]

theorem whenPassed_neg {c : Cond} {s : State} (run : Result) (h : condPassed c s.cpsr = false) :
    whenPassed c s run = .next s.advanceArm := by unfold whenPassed; rw [if_neg (by simp [h])]

/-- An instruction under a condition ran, or was skipped (30_encoding.md R72). -/
theorem whenPassed_next {c : Cond} {s t : State} {run : Result} (h : whenPassed c s run = .next t) :
    (condPassed c s.cpsr = true ∧ run = .next t) ∨ (condPassed c s.cpsr = false ∧ t = s.advanceArm) := by
  cases hc : condPassed c s.cpsr with
  | true => exact .inl ⟨rfl, by rwa [whenPassed_pos run hc] at h⟩
  | false => exact .inr ⟨rfl, by rw [whenPassed_neg run hc] at h; exact (next_inj h).symm⟩

/-! ## The access primitives (20_memory.md R55 to R58) -/

/-- No byte of an access is a device's or has nothing at its address: it reads what is stored. -/
def State.readsMemory (s : State) (w : Width) (a : Word) : Prop :=
  s.touches .nothing w a = false ∧ s.touches .device w a = false

/-- Every byte of an access is ordinary memory. -/
def State.writesMemory (s : State) (w : Width) (a : Word) : Prop :=
  s.touches .code w a = false ∧ s.touches .nothing w a = false ∧ s.touches .device w a = false

theorem memRead_ok {w : Width} {a v : Word} {s t : State} (h : memRead w a s = .ok v t) :
    AlignedTo w.bytes a ∧ s.abortNext = false ∧ s.touches .nothing w a = false ∧
    ((s.touches .device w a = false ∧ v = s.memValue w a ∧ t = s.consulted) ∨
      (s.touches .device w a = true ∧ v = s.deviceValue w a ∧ t = s.consulted.drew w.bytes)) := by
  unfold memRead at h
  split at h
  · cases h
  split at h
  · cases h
  split at h
  · cases h
  rename_i hal hab hn
  refine ⟨by simpa using hal, by simpa using hab, by simpa using hn, ?_⟩
  split at h
  · rename_i hd; cases h; exact .inr ⟨hd, rfl, rfl⟩
  · rename_i hd; cases h; exact .inl ⟨by simpa using hd, rfl, rfl⟩

theorem memRead_abort {w : Width} {a : Word} {s t : State} (h : memRead w a s = .abort t) :
    AlignedTo w.bytes a ∧ s.abortNext = true ∧ t = s.consulted := by
  unfold memRead at h
  split at h
  · cases h
  split at h
  · rename_i hal hab
    cases h; exact ⟨by simpa using hal, hab, rfl⟩
  · repeat' split at h
    all_goals cases h

theorem memRead_of_memory {w : Width} {a : Word} {s : State} (ha : AlignedTo w.bytes a)
    (hab : s.abortNext = false) (hk : s.readsMemory w a) : memRead w a s = .ok (s.memValue w a) s.consulted := by
  unfold memRead
  rw [if_neg (by simpa using ha), if_neg (by simp [hab]), if_neg (by simp [hk.1]), if_neg (by simp [hk.2])]

theorem memRead_of_device {w : Width} {a : Word} {s : State} (ha : AlignedTo w.bytes a)
    (hab : s.abortNext = false) (hn : s.touches .nothing w a = false) (hk : s.touches .device w a = true) :
    memRead w a s = .ok (s.deviceValue w a) (s.consulted.drew w.bytes) := by
  unfold memRead
  rw [if_neg (by simpa using ha), if_neg (by simp [hab]), if_neg (by simp [hn]), if_pos hk]

theorem memRead_of_nothing {w : Width} {a : Word} {s : State} (ha : AlignedTo w.bytes a)
    (hab : s.abortNext = false) (hk : s.touches .nothing w a = true) : memRead w a s = .refused .unmapped := by
  unfold memRead
  rw [if_neg (by simpa using ha), if_neg (by simp [hab]), if_pos hk]

theorem memRead_of_misaligned {w : Width} {a : Word} {s : State} (ha : ¬ AlignedTo w.bytes a) :
    memRead w a s = .refused .misaligned := by
  unfold memRead; rw [if_pos ha]

theorem memRead_of_abort {w : Width} {a : Word} {s : State} (ha : AlignedTo w.bytes a)
    (hab : s.abortNext = true) : memRead w a s = .abort s.consulted := by
  unfold memRead
  rw [if_neg (by simpa using ha), if_pos hab]

theorem memWrite_ok {w : Width} {a v : Word} {s t : State} (h : memWrite w a v s = .ok () t) :
    AlignedTo w.bytes a ∧ s.abortNext = false ∧ s.touches .code w a = false ∧ s.touches .nothing w a = false ∧
    ((s.touches .device w a = false ∧ t = s.consulted.storeValue w a v) ∨
      (s.touches .device w a = true ∧ t = s.consulted.deviceStore w a v)) := by
  unfold memWrite at h
  split at h
  · cases h
  split at h
  · cases h
  split at h
  · cases h
  split at h
  · cases h
  rename_i hal hc hab hn
  refine ⟨by simpa using hal, by simpa using hab, by simpa using hc, by simpa using hn, ?_⟩
  split at h
  · rename_i hd; cases h; exact .inr ⟨hd, rfl⟩
  · rename_i hd; cases h; exact .inl ⟨by simpa using hd, rfl⟩

theorem memWrite_abort {w : Width} {a v : Word} {s t : State} (h : memWrite w a v s = .abort t) :
    AlignedTo w.bytes a ∧ s.abortNext = true ∧ s.touches .code w a = false ∧ t = s.consulted.scramble w a := by
  unfold memWrite at h
  split at h
  · cases h
  split at h
  · cases h
  split at h
  · rename_i hal hc hab
    cases h; exact ⟨by simpa using hal, hab, by simpa using hc, rfl⟩
  · repeat' split at h
    all_goals cases h

theorem memWrite_of_memory {w : Width} {a : Word} (v : Word) {s : State} (ha : AlignedTo w.bytes a)
    (hab : s.abortNext = false) (hk : s.writesMemory w a) :
    memWrite w a v s = .ok () (s.consulted.storeValue w a v) := by
  unfold memWrite
  rw [if_neg (by simpa using ha), if_neg (by simp [hk.1]), if_neg (by simp [hab]), if_neg (by simp [hk.2.1]),
    if_neg (by simp [hk.2.2])]

theorem memWrite_of_device {w : Width} {a : Word} (v : Word) {s : State} (ha : AlignedTo w.bytes a)
    (hab : s.abortNext = false) (hc : s.touches .code w a = false) (hn : s.touches .nothing w a = false)
    (hk : s.touches .device w a = true) : memWrite w a v s = .ok () (s.consulted.deviceStore w a v) := by
  unfold memWrite
  rw [if_neg (by simpa using ha), if_neg (by simp [hc]), if_neg (by simp [hab]), if_neg (by simp [hn]), if_pos hk]

theorem memWrite_of_abort {w : Width} {a : Word} (v : Word) {s : State} (ha : AlignedTo w.bytes a)
    (hab : s.abortNext = true) (hk : s.touches .code w a = false) :
    memWrite w a v s = .abort (s.consulted.scramble w a) := by
  unfold memWrite
  rw [if_neg (by simpa using ha), if_neg (by simp [hk]), if_pos hab]

/-- A store that meets a code region is refused, be it aborted or not (R62, log 7). -/
theorem memWrite_of_code {w : Width} {a : Word} (v : Word) {s : State} (ha : AlignedTo w.bytes a)
    (hk : s.touches .code w a = true) : memWrite w a v s = .refused .storeToCode := by
  unfold memWrite
  rw [if_neg (by simpa using ha), if_pos hk]

theorem memWrite_of_misaligned {w : Width} {a : Word} (v : Word) {s : State} (ha : ¬ AlignedTo w.bytes a) :
    memWrite w a v s = .refused .misaligned := by
  unfold memWrite; rw [if_pos ha]

theorem memWrite_of_nothing {w : Width} {a : Word} (v : Word) {s : State} (ha : AlignedTo w.bytes a)
    (hab : s.abortNext = false) (hc : s.touches .code w a = false) (hk : s.touches .nothing w a = true) :
    memWrite w a v s = .refused .unmapped := by
  unfold memWrite
  rw [if_neg (by simpa using ha), if_neg (by simp [hc]), if_neg (by simp [hab]), if_pos hk]

theorem fetch_ok {w : Width} {a v : Word} {s t : State} (h : fetch w a s = .ok v t) :
    AlignedTo w.bytes a ∧ s.abortNext = false ∧ v = s.memValue w a ∧ t = s.consulted := by
  unfold fetch at h
  repeat' split at h
  all_goals first
    | (rename_i h1 h2 h3 h4; cases h; exact ⟨by simpa using h1, by simpa using h3, rfl, rfl⟩)
    | cases h

theorem fetch_abort {w : Width} {a : Word} {s t : State} (h : fetch w a s = .abort t) :
    AlignedTo w.bytes a ∧ s.abortNext = true ∧ t = s.consulted := by
  unfold fetch at h
  repeat' split at h
  all_goals first
    | (rename_i h1 h2 h3; cases h; exact ⟨by simpa using h1, h3, rfl⟩)
    | cases h

theorem fetch_of_memory {w : Width} {a : Word} {s : State} (ha : AlignedTo w.bytes a)
    (hab : s.abortNext = false) (hk : s.readsMemory w a) : fetch w a s = .ok (s.memValue w a) s.consulted := by
  unfold fetch
  rw [if_neg (by simpa using ha), if_neg (by simp [hk.2]), if_neg (by simp [hab]), if_neg (by simp [hk.1])]

theorem fetch_of_misaligned {w : Width} {a : Word} {s : State} (ha : ¬ AlignedTo w.bytes a) :
    fetch w a s = .refused .misalignedPc := by
  unfold fetch; rw [if_pos ha]

/-- A fetch from a device is refused, be it aborted or not (R64, log 7). -/
theorem fetch_of_device {w : Width} {a : Word} {s : State} (ha : AlignedTo w.bytes a)
    (hk : s.touches .device w a = true) : fetch w a s = .refused .fetchFromDevice := by
  unfold fetch
  rw [if_neg (by simpa using ha), if_pos hk]

theorem fetch_of_abort {w : Width} {a : Word} {s : State} (ha : AlignedTo w.bytes a) (hd : s.touches .device w a = false)
    (hab : s.abortNext = true) : fetch w a s = .abort s.consulted := by
  unfold fetch
  rw [if_neg (by simpa using ha), if_neg (by simp [hd]), if_pos hab]

theorem fetch_of_nothing {w : Width} {a : Word} {s : State} (ha : AlignedTo w.bytes a) (hd : s.touches .device w a = false)
    (hab : s.abortNext = false) (hk : s.touches .nothing w a = true) : fetch w a s = .refused .unmapped := by
  unfold fetch
  rw [if_neg (by simpa using ha), if_neg (by simp [hd]), if_neg (by simp [hab]), if_pos hk]

/-- With no region given, every address is ordinary memory. -/
theorem touches_of_no_map {s : State} (h : s.platform.memMap = []) {k : RegionKind} (hk : k ≠ .memory) (w : Width)
    (a : Word) : s.touches k w a = false := by
  have : ∀ i, (kindAt [] i == k) = false := fun i => by cases k <;> first | rfl | exact absurd rfl hk
  simp [State.touches, h, this]

/-! ## What every access leaves -/

/-- An access leaves registers, pc, status registers and parameters, and keeps memory's form. -/
structure Accessed (s t : State) : Prop where
  regs : t.regs = s.regs
  pc : t.pc = s.pc
  cpsr : t.cpsr = s.cpsr
  spsrs : t.spsrs = s.spsrs
  platform : t.platform = s.platform
  mem : Memory.wf s.mem = true → Memory.wf t.mem = true

theorem Accessed.refl (s : State) : Accessed s s := ⟨rfl, rfl, rfl, rfl, rfl, id⟩

theorem Accessed.trans {s t u : State} (h : Accessed s t) (h' : Accessed t u) : Accessed s u :=
  ⟨h'.regs.trans h.regs, h'.pc.trans h.pc, h'.cpsr.trans h.cpsr, h'.spsrs.trans h.spsrs, h'.platform.trans h.platform,
    fun hm => h'.mem (h.mem hm)⟩

theorem Accessed.touches {s t : State} (h : Accessed s t) (k : RegionKind) (w : Width) (a : Word) :
    t.touches k w a = s.touches k w a := State.touches_congr h.platform k w a

theorem Accessed.readBank {s t : State} (h : Accessed s t) (b : Bank) (n : RegNum) : t.readBank b n = s.readBank b n :=
  State.readBank_congr h.regs h.pc h.cpsr b n

theorem accessed_storeValue (s : State) {w : Width} {a : Word} (ha : AlignedTo w.bytes a) (v : Word) :
    Accessed s (s.storeValue w a v) := ⟨rfl, rfl, rfl, rfl, rfl, fun hm => State.storeValue_wf hm ha v⟩

theorem accessed_deviceStore (s : State) {w : Width} {a : Word} (ha : AlignedTo w.bytes a) (v : Word) :
    Accessed s (s.deviceStore w a v) := ⟨rfl, rfl, rfl, rfl, rfl, fun hm => State.deviceStore_wf hm ha v⟩

theorem accessed_scramble (s : State) {w : Width} {a : Word} (ha : AlignedTo w.bytes a) : Accessed s (s.scramble w a) :=
  ⟨rfl, rfl, rfl, rfl, rfl, fun hm => State.scramble_wf hm ha⟩

theorem accessed_consulted (s : State) : Accessed s s.consulted := ⟨rfl, rfl, rfl, rfl, rfl, id⟩

theorem accessed_memRead_ok {w : Width} {a v : Word} {s t : State} (h : memRead w a s = .ok v t) : Accessed s t := by
  obtain ⟨-, -, -, ⟨-, -, rfl⟩ | ⟨-, -, rfl⟩⟩ := memRead_ok h <;> exact ⟨rfl, rfl, rfl, rfl, rfl, id⟩

theorem accessed_memRead_abort {w : Width} {a : Word} {s t : State} (h : memRead w a s = .abort t) : Accessed s t := by
  obtain ⟨-, -, rfl⟩ := memRead_abort h; exact accessed_consulted s

theorem accessed_memWrite_ok {w : Width} {a v : Word} {s t : State} (h : memWrite w a v s = .ok () t) :
    Accessed s t := by
  obtain ⟨ha, -, -, -, ⟨-, rfl⟩ | ⟨-, rfl⟩⟩ := memWrite_ok h
  · exact (accessed_consulted s).trans (accessed_storeValue _ ha v)
  · exact (accessed_consulted s).trans (accessed_deviceStore _ ha v)

theorem accessed_memWrite_abort {w : Width} {a v : Word} {s t : State} (h : memWrite w a v s = .abort t) :
    Accessed s t := by
  obtain ⟨ha, -, -, rfl⟩ := memWrite_abort h
  exact (accessed_consulted s).trans (accessed_scramble _ ha)

/-! ## Exceptions (60_exceptions.md) -/

/-- Every exception but Reset is the entry of R152 with the offset of R154. -/
theorem takeException_eq {e : Exc} {a k : Word} {s : State} (h : e.offset s.thumb = some k) :
    takeException e a s = enterException e (a + k) s := by
  unfold takeException; rw [h]

theorem takeException_reset (a : Word) (s : State) : takeException .reset a s = takeReset s := rfl

/-- A return from an exception went through a mode with an SPSR that holds a legal mode (R157, R97). -/
theorem exceptionReturn_next {target : Word} {s t : State} (h : exceptionReturn target s = .next t) :
    ∃ m, s.bank = some m ∧ legalMode (s.spsrs.get m) = true ∧
      AlignedTo ({ s with cpsr := s.spsrs.get m } : State).instrSize target ∧
      t = { s with cpsr := s.spsrs.get m, pc := target } := by
  unfold exceptionReturn State.spsr? at h
  cases hb : s.bank with
  | none => simp [hb] at h
  | some m =>
    simp only [hb, Option.map_some] at h
    split at h
    · rename_i hl
      obtain ⟨ha, ht⟩ := setPc_next.mp h
      exact ⟨m, rfl, hl, ha, ht⟩
    · cases h

theorem exceptionReturn_of_legal {target : Word} {s : State} {m : ExcMode} (hb : s.bank = some m)
    (hl : legalMode (s.spsrs.get m) = true)
    (ha : AlignedTo ({ s with cpsr := s.spsrs.get m } : State).instrSize target) :
    exceptionReturn target s = .next { s with cpsr := s.spsrs.get m, pc := target } := by
  unfold exceptionReturn State.spsr?
  simp only [hb, Option.map_some, hl, if_true]
  exact setPc_of_aligned ha

end Sys2Proof.Machine
end

