-- ==== Sys2Proof/Laws/Block.lean ====
section
/-! SUPPORT. Block transfers (42_data_transfer.md R117 to R120): the register list, the sequence of loads and of
stores, with and without an abort, and the loaded words written to their registers. -/

namespace Sys2Proof.Machine

/-! ## The register list -/

theorem mem_registersFrom {list : BitVec 16} {r : RegNum} {k i : Nat} (h : i + k ≤ 16) :
    r ∈ registersFrom list i k ↔ i ≤ r.toNat ∧ r.toNat < i + k ∧ list.getLsbD r.toNat = true := by
  induction k generalizing i with
  | zero => simp [registersFrom]; omega
  | succ k ih =>
    have hi : (BitVec.ofNat 4 i).toNat = i := by simp; omega
    have hr : r = BitVec.ofNat 4 i ↔ r.toNat = i := by
      rw [← BitVec.toNat_inj, hi]
    simp only [registersFrom]
    split
    · rename_i hb
      rw [List.mem_cons, ih (by omega), hr]
      constructor
      · rintro (rfl | ⟨h1, h2, h3⟩)
        · exact ⟨Nat.le_refl _, by omega, hb⟩
        · exact ⟨by omega, by omega, h3⟩
      · rintro ⟨h1, h2, h3⟩
        by_cases he : r.toNat = i
        · exact .inl he
        · exact .inr ⟨by omega, by omega, h3⟩
    · rename_i hb
      rw [ih (by omega)]
      constructor
      · rintro ⟨h1, h2, h3⟩; exact ⟨by omega, by omega, h3⟩
      · rintro ⟨h1, h2, h3⟩
        refine ⟨?_, by omega, h3⟩
        rcases Nat.lt_or_ge i r.toNat with h | h
        · omega
        · exact absurd (by rwa [show i = r.toNat by omega]) hb

/-- The list holds the registers whose bits are set. -/
theorem mem_registersOf {list : BitVec 16} {r : RegNum} :
    r ∈ registersOf list ↔ list.getLsbD r.toNat = true := by
  have := r.isLt
  rw [registersOf, mem_registersFrom (by omega)]
  exact ⟨fun h => h.2.2, fun h => ⟨by omega, by omega, h⟩⟩

theorem pairwise_registersFrom (list : BitVec 16) {k i : Nat} (h : i + k ≤ 16) :
    (registersFrom list i k).Pairwise (fun r r' => r.toNat < r'.toNat) := by
  induction k generalizing i with
  | zero => exact .nil
  | succ k ih =>
    simp only [registersFrom]
    split
    · refine List.pairwise_cons.mpr ⟨fun r hr => ?_, ih (by omega)⟩
      have := ((mem_registersFrom (by omega)).mp hr).1
      simp only [BitVec.toNat_ofNat]; omega
    · exact ih (by omega)

/-- The lowest number comes first. -/
theorem pairwise_registersOf (list : BitVec 16) :
    (registersOf list).Pairwise (fun r r' => r.toNat < r'.toNat) := pairwise_registersFrom list (by omega)

theorem nodup_registersOf (list : BitVec 16) : (registersOf list).Nodup :=
  (pairwise_registersOf list).imp fun h e => by rw [e] at h; omega

theorem length_registersFrom (list : BitVec 16) (i k : Nat) : (registersFrom list i k).length ≤ k := by
  induction k generalizing i with
  | zero => simp [registersFrom]
  | succ k ih => simp only [registersFrom]; have := ih (i + 1); split <;> simp <;> omega

theorem length_registersOf (list : BitVec 16) : (registersOf list).length ≤ 16 := length_registersFrom list 0 16

/-- The list is empty only for the list without a bit. -/
theorem registersOf_eq_nil {list : BitVec 16} (h : registersOf list = []) : list = 0#16 := by
  apply BitVec.eq_of_getLsbD_eq
  intro j hj
  have hm := mem_registersOf (list := list) (r := BitVec.ofNat 4 j)
  rw [h] at hm
  have : (BitVec.ofNat 4 j).toNat = j := by simp; omega
  rw [this] at hm
  simpa using hm

/-! ## Loads -/

theorem step_address (a : Word) (j : Nat) :
    a + 4#32 + BitVec.ofNat 32 (4 * j) = a + BitVec.ofNat 32 (4 * (j + 1)) := by
  apply BitVec.eq_of_toNat_eq; simp; omega

theorem abortNext_eq_getD (s : State) : s.abortNext = s.inputs.aborts.getD 0 false := by
  unfold State.abortNext; cases s.inputs.aborts <;> rfl

theorem getD_tail (l : List Bool) (j : Nat) : l.tail.getD j false = l.getD (j + 1) false := by cases l <;> simp

theorem aligned_succ {a : Word} (h : AlignedTo 4 a) : AlignedTo 4 (a + 4#32) := by
  simp only [AlignedTo, BitVec.toNat_add, BitVec.toNat_ofNat] at *; omega

/-- Each of the first `n` words of a block is answered: no abort, and something at every address. -/
def ReadsComplete (n : Nat) (a : Word) (s : State) : Prop :=
  AlignedTo 4 a ∧ ∀ j, j < n → s.inputs.aborts.getD j false = false ∧
    s.touches .nothing .word (a + BitVec.ofNat 32 (4 * j)) = false

/-- The first read of a block: its value, unless it meets a device, and the state after it. -/
theorem ReadsComplete.head {n : Nat} {a : Word} {s : State} (h : ReadsComplete (n + 1) a s) :
    ∃ v t, memRead .word a s = .ok v t ∧ (s.touches .device .word a = false → v = s.memValue .word a) ∧
      Accessed s t ∧ t.mem = s.mem ∧ t.deviceLog = s.deviceLog ∧ t.inputs.aborts = s.inputs.aborts.tail := by
  obtain ⟨ha, hj⟩ := h
  obtain ⟨h1, h2⟩ := hj 0 (by omega)
  rw [← abortNext_eq_getD] at h1
  simp only [Nat.mul_zero, BitVec.add_zero] at h2
  cases hd : s.touches .device .word a with
  | false =>
    have hr := memRead_of_memory ha h1 ⟨h2, hd⟩
    exact ⟨_, _, hr, fun _ => rfl, accessed_memRead_ok hr, rfl, rfl, rfl⟩
  | true =>
    have hr := memRead_of_device ha h1 h2 hd
    exact ⟨_, _, hr, (fun h => by simp at h), accessed_memRead_ok hr, rfl, rfl, rfl⟩

theorem ReadsComplete.tail {n : Nat} {a : Word} {s t : State} (h : ReadsComplete (n + 1) a s) (ht : Accessed s t)
    (hi : t.inputs.aborts = s.inputs.aborts.tail) : ReadsComplete n (a + 4#32) t := by
  obtain ⟨ha, hj⟩ := h
  refine ⟨aligned_succ ha, fun j hjn => ?_⟩
  obtain ⟨h1, h2⟩ := hj (j + 1) (by omega)
  exact ⟨by rw [hi, getD_tail]; exact h1, by rw [step_address, ht.touches]; exact h2⟩

/-- What the reads of an LDM leave alone: everything but the answers of ABORT and the counter of draws. -/
theorem loadBlock_frame {rs : List RegNum} {a : Word} {s t : State} {l : Loaded} {ab : Bool}
    (h : loadBlock rs a s = .done l ab t) :
    Accessed s t ∧ t.mem = s.mem ∧ t.deviceLog = s.deviceLog ∧ (∀ r v, (r, v) ∈ l → r ∈ rs) := by
  induction rs generalizing a s l with
  | nil => simp only [loadBlock] at h; cases h; exact ⟨.refl _, rfl, rfl, by simp⟩
  | cons r rs ih =>
    rw [loadBlock] at h
    split at h
    · cases h
    · rename_i u hu
      cases h
      have := accessed_memRead_abort hu
      obtain ⟨-, -, rfl⟩ := memRead_abort hu
      exact ⟨this, rfl, rfl, by simp⟩
    · rename_i v u hu
      cases hl : loadBlock rs (a + 4#32) u with
      | refused e => rw [hl] at h; cases h
      | done l' ab' t' =>
        rw [hl] at h
        simp only [BlockRead.cons] at h
        cases h
        obtain ⟨h1, h2, h3, h4⟩ := ih hl
        have hu' : u.mem = s.mem ∧ u.deviceLog = s.deviceLog := by
          obtain ⟨-, -, -, ⟨-, -, rfl⟩ | ⟨-, -, rfl⟩⟩ := memRead_ok hu <;> exact ⟨rfl, rfl⟩
        refine ⟨(accessed_memRead_ok hu).trans h1, h2.trans hu'.1, h3.trans hu'.2, ?_⟩
        intro r' v' hm
        rcases List.mem_cons.mp hm with he | hm
        · cases he; simp
        · exact List.mem_cons_of_mem _ (h4 r' v' hm)

theorem accessed_loadBlock {rs : List RegNum} {a : Word} {s t : State} {l : Loaded} {ab : Bool}
    (h : loadBlock rs a s = .done l ab t) : Accessed s t := (loadBlock_frame h).1

/-- Of the registers `rs` with the words of a block from `a` up: the pair at each place whose word meets no device. -/
def PairsFrom (s : State) (a : Word) (rs : List RegNum) (l : Loaded) : Prop :=
  l.map Prod.fst = rs ∧ ∀ j r, rs[j]? = some r → s.touches .device .word (a + BitVec.ofNat 32 (4 * j)) = false →
    l[j]? = some (r, s.memValue .word (a + BitVec.ofNat 32 (4 * j)))

theorem PairsFrom.cons {s t : State} {a v : Word} {r : RegNum} {rs : List RegNum} {l : Loaded}
    (hv : s.touches .device .word a = false → v = s.memValue .word a) (ht : Accessed s t) (hm : t.mem = s.mem)
    (h : PairsFrom t (a + 4#32) rs l) : PairsFrom s a (r :: rs) ((r, v) :: l) := by
  refine ⟨by simp [h.1], fun j r' hr hd => ?_⟩
  cases j with
  | zero =>
    simp only [List.getElem?_cons_zero, Option.some.injEq] at hr
    simp only [Nat.mul_zero, BitVec.add_zero] at hd ⊢
    rw [← hr, hv hd]; rfl
  | succ j =>
    rw [← step_address] at hd ⊢
    have := h.2 j r' (by simpa using hr) (by rw [ht.touches]; exact hd)
    simpa only [List.getElem?_cons_succ, State.memValue, hm, ht.platform] using this

/-- Every read is answered: the words in order (R117). -/
theorem loadBlock_of_readable {rs : List RegNum} {a : Word} {s : State} (h : ReadsComplete rs.length a s) :
    ∃ l t, loadBlock rs a s = .done l false t ∧ PairsFrom s a rs l := by
  induction rs generalizing a s with
  | nil => exact ⟨[], s, rfl, rfl, by simp⟩
  | cons r rs ih =>
    obtain ⟨v, u, h1, h2, h3, h4, h5, h6⟩ := h.head
    obtain ⟨l, t, h7, h8⟩ := ih (h.tail h3 h6)
    exact ⟨(r, v) :: l, t, by simp only [loadBlock, h1, h7, BlockRead.cons], h8.cons h2 h3 h4⟩

/-- The read at place `k` is the first that aborts: the words before it (R119). -/
theorem loadBlock_of_abort {rs : List RegNum} {a : Word} {s : State} {k : Nat} (hk : k < rs.length)
    (h : ReadsComplete k a s) (hab : s.inputs.aborts.getD k false = true) :
    ∃ l t, loadBlock rs a s = .done l true t ∧ PairsFrom s a (rs.take k) l := by
  induction rs generalizing a s k with
  | nil => simp at hk
  | cons r rs ih =>
    cases k with
    | zero =>
      refine ⟨[], s.consulted, ?_, rfl, by simp⟩
      rw [loadBlock, memRead_of_abort h.1 (by rw [abortNext_eq_getD]; exact hab)]
    | succ k =>
      obtain ⟨v, u, h1, h2, h3, h4, h5, h6⟩ := h.head
      obtain ⟨l, t, h7, h8⟩ := ih (Nat.lt_of_succ_lt_succ hk) (h.tail h3 h6) (by rw [h6, getD_tail]; exact hab)
      exact ⟨(r, v) :: l, t, by simp only [loadBlock, h1, h7, BlockRead.cons], h8.cons h2 h3 h4⟩

/-- The loads of a block that come at place `k` to an address with nothing, which ABORT does not answer, are refused. -/
theorem loadBlock_of_nothing {rs : List RegNum} {a : Word} {s : State} {k : Nat} (hk : k < rs.length)
    (h : ReadsComplete k a s) (hab : s.inputs.aborts.getD k false = false)
    (hn : s.touches .nothing .word (a + BitVec.ofNat 32 (4 * k)) = true) : loadBlock rs a s = .refused .unmapped := by
  induction rs generalizing a s k with
  | nil => simp at hk
  | cons r rs ih =>
    cases k with
    | zero =>
      simp only [Nat.mul_zero, BitVec.add_zero] at hn
      rw [loadBlock, memRead_of_nothing h.1 (by rw [abortNext_eq_getD]; exact hab) hn]
    | succ k =>
      obtain ⟨v, u, h1, -, h3, -, -, h6⟩ := h.head
      simp only [loadBlock, h1, BlockRead.cons,
        ih (Nat.lt_of_succ_lt_succ hk) (h.tail h3 h6) (by rw [h6, getD_tail]; exact hab)
          (by rw [step_address, h3.touches]; exact hn)]

/-- A word written to its register: every key names another register, so it stays. -/
theorem writeLoaded_get_of_mem {b : Bank} {l : Loaded} (hn : (l.map Prod.fst).Nodup) (s : State) {r : RegNum} {v : Word}
    (hm : (r, v) ∈ l) {q : PhysReg} (hq : physReg b r = some q) : (writeLoaded b l s).regs.get q = v := by
  induction l generalizing s with
  | nil => simp at hm
  | cons x l ih =>
    obtain ⟨r', v'⟩ := x
    obtain ⟨hx, hn'⟩ := List.nodup_cons.mp hn
    rw [writeLoaded]
    rcases List.mem_cons.mp hm with he | hm
    · cases he
      have key : ∀ (l : Loaded) (s : State), r ∉ l.map Prod.fst → (writeLoaded b l s).regs.get q = s.regs.get q := by
        intro l
        induction l with
        | nil => intro s _; rfl
        | cons y l ih' =>
          intro s hy
          obtain ⟨r₂, v₂⟩ := y
          simp only [List.map_cons, List.mem_cons, not_or] at hy
          rw [writeLoaded, ih' _ hy.2, State.writeBank_get, if_neg]
          intro h2
          exact hy.1 (physReg_inj hq h2)
      rw [key l _ hx, State.writeBank_get, if_pos hq]
    · exact ih hn' _ hm

/-- A register that no key names keeps its value. -/
theorem writeLoaded_get_of_not {b : Bank} {l : Loaded} (s : State) {q : PhysReg}
    (h : ∀ r v, (r, v) ∈ l → physReg b r ≠ some q) : (writeLoaded b l s).regs.get q = s.regs.get q := by
  induction l generalizing s with
  | nil => rfl
  | cons x l ih =>
    obtain ⟨r', v'⟩ := x
    rw [writeLoaded, ih _ fun r v hm => h r v (List.mem_cons_of_mem _ hm), State.writeBank_get,
      if_neg (h r' v' (by simp))]

/-! ## Stores -/

/-- Each of the first `n` words of a block takes its store: no abort, no code region, and something at every address. -/
def WritesComplete (n : Nat) (a : Word) (s : State) : Prop :=
  AlignedTo 4 a ∧ ∀ j, j < n → s.inputs.aborts.getD j false = false ∧
    s.touches .code .word (a + BitVec.ofNat 32 (4 * j)) = false ∧
    s.touches .nothing .word (a + BitVec.ofNat 32 (4 * j)) = false

/-- The address of the word at place `j` lies `4 * j` above `a`, around the end of the address space. -/
theorem blockAddress_toNat (a : Word) (j : Nat) :
    (a + BitVec.ofNat 32 (4 * j)).toNat = (a.toNat + 4 * j) % 2 ^ 32 := by simp

/-- The words of a block at two different places have no byte in common. -/
theorem block_disjoint (a : Word) {i j : Nat} (hij : i ≠ j) (hi : i < 2 ^ 30) (hj : j < 2 ^ 30) :
    (a + BitVec.ofNat 32 (4 * i)).toNat + 4 ≤ (a + BitVec.ofNat 32 (4 * j)).toNat ∨
      (a + BitVec.ofNat 32 (4 * j)).toNat + 4 ≤ (a + BitVec.ofNat 32 (4 * i)).toNat := by
  have := a.isLt
  rw [blockAddress_toNat, blockAddress_toNat]
  omega

/-- The value of an access whose bytes are as before. -/
theorem memValue_congr {s t : State} (hp : t.platform = s.platform) (w : Width) (a : Word)
    (h : ∀ c, a.toNat ≤ c → c < a.toNat + w.bytes → t.mem.read c = s.mem.read c) :
    t.memValue w a = s.memValue w a := by
  simp only [State.memValue, hp]
  rw [Memory.readList_congr h]

/-- A byte in none of the first `n` words of a block. -/
def OutsideWords (a : Word) (n c : Nat) : Prop :=
  ∀ j, j < n → c < (a + BitVec.ofNat 32 (4 * j)).toNat ∨ (a + BitVec.ofNat 32 (4 * j)).toNat + 4 ≤ c

theorem OutsideWords.head {a : Word} {n c : Nat} (h : OutsideWords a (n + 1) c) : c < a.toNat ∨ a.toNat + 4 ≤ c := by
  simpa using h 0 (by omega)

theorem OutsideWords.tail {a : Word} {n c : Nat} (h : OutsideWords a (n + 1) c) : OutsideWords (a + 4#32) n c := by
  intro j hj
  rw [step_address]
  exact h (j + 1) (by omega)

/-- A byte of the first word of a block lies in none of the later ones. -/
theorem outsideTail_of_head {a : Word} {n c : Nat} (hn : n < 2 ^ 29) (h1 : a.toNat ≤ c)
    (h2 : c < a.toNat + 4) : OutsideWords (a + 4#32) n c := by
  intro j hj
  rw [step_address]
  have := block_disjoint a (i := 0) (j := j + 1) (by omega) (by omega) (by omega)
  simp only [Nat.mul_zero, BitVec.add_zero] at this
  omega

/-- A byte the stores to the first `n` words of a block leave alone: outside them, or not in ordinary memory. -/
def Untouched (s : State) (a : Word) (n c : Nat) : Prop := OutsideWords a n c ∨ kindAt s.platform.memMap c ≠ .memory

theorem Untouched.tail {s t : State} {a : Word} {n c : Nat} (ht : Accessed s t) (h : Untouched s a (n + 1) c) :
    Untouched t (a + 4#32) n c := by
  unfold Untouched at *
  rw [ht.platform]
  exact h.imp OutsideWords.tail id

/-- What devices record of the stores of registers `rs` to the words from `a` up. -/
def writesFrom (s : State) (b : Bank) : List RegNum → Word → List DeviceWrite
  | [], _ => []
  | r :: rs, a =>
    (if s.touches .device .word a then [{ addr := a, width := .word, value := s.readBank b r }] else []) ++
      writesFrom s b rs (a + 4#32)

theorem writesFrom_congr {s t : State} (h : Accessed s t) (b : Bank) (rs : List RegNum) (a : Word) :
    writesFrom t b rs a = writesFrom s b rs a := by
  induction rs generalizing a with
  | nil => rfl
  | cons r rs ih => simp only [writesFrom, ih, h.touches, h.readBank]

/-- The same list, by places. -/
theorem writesFrom_eq_filterMap (s : State) (b : Bank) (rs : List RegNum) (a : Word) :
    writesFrom s b rs a = rs.zipIdx.filterMap (fun x =>
      if s.touches .device .word (a + BitVec.ofNat 32 (4 * x.2)) then
        some { addr := a + BitVec.ofNat 32 (4 * x.2), width := .word, value := s.readBank b x.1 }
      else none) := by
  induction rs generalizing a with
  | nil => rfl
  | cons r rs ih =>
    rw [writesFrom, ih, List.zipIdx_cons', List.filterMap_cons, List.filterMap_map]
    simp only [Nat.mul_zero, BitVec.add_zero, Function.comp_def, step_address]
    by_cases hd : s.touches .device .word a = true <;> simp [hd]

/-- The first store to a block: what it leaves. -/
theorem WritesComplete.head {n : Nat} {a : Word} {s : State} (h : WritesComplete (n + 1) a s) (b : Bank) (r : RegNum)
    (hm : Memory.wf s.mem = true) :
    ∃ t, memWrite .word a (s.readBank b r) s = .ok () t ∧ Accessed s t ∧ t.inputs.aborts = s.inputs.aborts.tail ∧
      t.deviceLog = s.deviceLog ++ writesFrom s b [r] a ∧
      (s.touches .device .word a = false → t.memValue .word a = s.readBank b r) ∧
      ∀ c, Untouched s a 1 c → t.mem.read c = s.mem.read c := by
  obtain ⟨ha, hj⟩ := h
  obtain ⟨h1, h2, h3⟩ := hj 0 (by omega)
  rw [← abortNext_eq_getD] at h1
  simp only [Nat.mul_zero, BitVec.add_zero] at h2 h3
  cases hd : s.touches .device .word a with
  | false =>
    have hw := memWrite_of_memory (s.readBank b r) ha h1 ⟨h2, h3, hd⟩
    refine ⟨_, hw, accessed_memWrite_ok hw, rfl, by simp [writesFrom, hd], fun _ => ?_, fun c hc => ?_⟩
    · exact State.memValue_storeValue (s := s.consulted) (Memory.wf_iff.mp hm).1 .word a _
    · refine State.storeValue_read_outside s.consulted .word a _ ?_
      rcases hc with hc | hc
      · exact hc.head
      · by_contra hin
        have hin' : a.toNat ≤ c ∧ c < a.toNat + 4 := by simp only [Width.bytes] at hin; omega
        have hk : ∀ k, s.touches k .word a = false → kindAt s.platform.memMap c ≠ k := by
          intro k hk e
          simp only [State.touches, List.any_eq_false, List.mem_range, Width.bytes] at hk
          have := hk (c - a.toNat) (by omega)
          rw [show a.toNat + (c - a.toNat) = c by omega, e] at this
          simp at this
        cases hkc : kindAt s.platform.memMap c
        · exact hc hkc
        · exact hk _ h2 hkc
        · exact hk _ hd hkc
        · exact hk _ h3 hkc
  | true =>
    have hw := memWrite_of_device (s.readBank b r) ha h1 h2 h3 hd
    refine ⟨_, hw, accessed_memWrite_ok hw, rfl, by simp [writesFrom, hd, Width.truncate], (fun h => by simp at h),
      fun c hc => ?_⟩
    rcases hc with hc | hc
    · exact State.deviceStore_read_outside s.consulted .word a _ hc.head
    · exact State.deviceStore_read_of_ne s.consulted .word a _ hc

theorem WritesComplete.tail {n : Nat} {a : Word} {s t : State} (h : WritesComplete (n + 1) a s) (ht : Accessed s t)
    (hi : t.inputs.aborts = s.inputs.aborts.tail) : WritesComplete n (a + 4#32) t := by
  obtain ⟨ha, hj⟩ := h
  refine ⟨aligned_succ ha, fun j hjn => ?_⟩
  obtain ⟨h1, h2, h3⟩ := hj (j + 1) (by omega)
  exact ⟨by rw [hi, getD_tail]; exact h1, by rw [step_address, ht.touches]; exact h2,
    by rw [step_address, ht.touches]; exact h3⟩

/-- What the stores of registers `rs` to the words from `a` up leave, `n` being the words of the whole block (R118,
R120). -/
structure Stored (b : Bank) (rs : List RegNum) (a : Word) (n : Nat) (s t : State) : Prop where
  accessed : Accessed s t
  log : t.deviceLog = s.deviceLog ++ writesFrom s b rs a
  words : ∀ k r, rs[k]? = some r → s.touches .device .word (a + BitVec.ofNat 32 (4 * k)) = false →
    t.memValue .word (a + BitVec.ofNat 32 (4 * k)) = s.readBank b r
  others : ∀ c, Untouched s a n c → t.mem.read c = s.mem.read c

/-- A store put before those to the later words of a block. -/
theorem Stored.cons {b : Bank} {r : RegNum} {rs : List RegNum} {a : Word} {n : Nat} {s u t : State} (hn : n < 2 ^ 29)
    (h1 : Accessed s u) (h2 : u.deviceLog = s.deviceLog ++ writesFrom s b [r] a)
    (h3 : s.touches .device .word a = false → u.memValue .word a = s.readBank b r)
    (h4 : ∀ c, Untouched s a 1 c → u.mem.read c = s.mem.read c) (h : Stored b rs (a + 4#32) n u t) :
    Stored b (r :: rs) a (n + 1) s t := by
  refine ⟨h1.trans h.accessed, ?_, fun k r' hr hd => ?_, fun c hc => ?_⟩
  · rw [h.log, h2, writesFrom_congr h1]; simp [writesFrom]
  · cases k with
    | zero =>
      simp only [List.getElem?_cons_zero, Option.some.injEq] at hr
      subst hr
      simp only [Nat.mul_zero, BitVec.add_zero] at hd ⊢
      rw [memValue_congr h.accessed.platform .word a fun c c1 c2 => h.others c (.inl (outsideTail_of_head hn c1 c2)),
        h3 hd]
    | succ k =>
      rw [← step_address] at hd ⊢
      rw [h.words k r' (by simpa using hr) (by rw [h1.touches]; exact hd), h1.readBank]
  · rw [h.others c (hc.tail h1)]
    refine h4 c (hc.imp (fun ho j hj => ?_) id)
    exact ho j (by omega)

/-- Every store is taken: the registers in order, and no other byte (R118). -/
theorem storeBlock_of_writable {b : Bank} {rs : List RegNum} {a : Word} {s : State} (hm : Memory.wf s.mem = true)
    (hl : rs.length < 2 ^ 29) (h : WritesComplete rs.length a s) :
    ∃ t, storeBlock b rs a s = .ok () t ∧ Stored b rs a rs.length s t := by
  induction rs generalizing a s with
  | nil => exact ⟨s, rfl, .refl _, by simp [writesFrom], by simp, fun _ _ => rfl⟩
  | cons r rs ih =>
    simp only [List.length_cons] at hl h
    obtain ⟨u, h1, h2, h3, h4, h5, h6⟩ := h.head b r hm
    obtain ⟨t, h7, h8⟩ := ih (h2.mem hm) (by omega) (h.tail h2 h3)
    exact ⟨t, by simp only [storeBlock, h1, h7], .cons (by omega) h2 h4 h5 h6 h8⟩

/-- The words left over after an abort change, if at all, in ordinary memory only (R120, log 8). -/
theorem scrambleBlock_of_noCode {b : Bank} {rs : List RegNum} {a : Word} {s : State} (ha : AlignedTo 4 a)
    (hk : ∀ j, j < rs.length → s.touches .code .word (a + BitVec.ofNat 32 (4 * j)) = false) :
    ∃ t, scrambleBlock rs a s = .ok () t ∧ Stored b [] a rs.length s t := by
  induction rs generalizing a s with
  | nil => exact ⟨s, rfl, .refl _, by simp [writesFrom], by simp, fun _ _ => rfl⟩
  | cons r rs ih =>
    have h0 := hk 0 (by simp)
    simp only [Nat.mul_zero, BitVec.add_zero] at h0
    have hs := accessed_scramble s (w := .word) ha
    obtain ⟨t, h1, h2⟩ := ih (s := s.scramble .word a) (aligned_succ ha)
      (fun j hj => by rw [step_address, hs.touches]; exact hk (j + 1) (by simpa using hj))
    refine ⟨t, by rw [scrambleBlock, if_neg (by simp [h0])]; exact h1, hs.trans h2.accessed, ?_, by simp, fun c hc => ?_⟩
    · rw [h2.log]; simp [writesFrom]
    · rw [h2.others c (hc.tail hs)]
      rcases hc with hc | hc
      · exact State.scramble_read_outside s .word a hc.head
      · exact State.scramble_read_of_ne s .word a hc

/-- The store at place `k` is the first that aborts (R120): the ones before it are done, and no byte outside the block
changes. -/
theorem storeBlock_of_abort {b : Bank} {rs : List RegNum} {a : Word} {s : State} {k : Nat}
    (hm : Memory.wf s.mem = true) (hl : rs.length < 2 ^ 29) (hk : k < rs.length) (h : WritesComplete k a s)
    (hab : s.inputs.aborts.getD k false = true)
    (hc : ∀ j, j < rs.length → s.touches .code .word (a + BitVec.ofNat 32 (4 * j)) = false) :
    ∃ t, storeBlock b rs a s = .abort t ∧ Stored b (rs.take k) a rs.length s t := by
  induction rs generalizing a s k with
  | nil => simp at hk
  | cons r rs ih =>
    simp only [List.length_cons] at hl hk
    have h0 := hc 0 (by simp)
    simp only [Nat.mul_zero, BitVec.add_zero] at h0
    have hrest : ∀ j, j < rs.length → s.touches .code .word (a + 4#32 + BitVec.ofNat 32 (4 * j)) = false := by
      intro j hj; rw [step_address]; exact hc (j + 1) (by simpa using hj)
    cases k with
    | zero =>
      have hw := memWrite_of_abort (s.readBank b r) h.1 (by rw [abortNext_eq_getD]; exact hab) h0
      have hs := accessed_memWrite_abort hw
      obtain ⟨t, h1, h2⟩ := scrambleBlock_of_noCode (b := b) (rs := rs) (s := s.consulted.scramble .word a)
        (aligned_succ h.1) (fun j hj => by rw [hs.touches]; exact hrest j hj)
      refine ⟨t, by simp only [storeBlock, hw, h1], hs.trans h2.accessed, ?_, by simp, fun c hcc => ?_⟩
      · rw [h2.log]; simp [writesFrom]
      · rw [h2.others c (hcc.tail hs)]
        rcases hcc with hcc | hcc
        · exact State.scramble_read_outside s.consulted .word a hcc.head
        · exact State.scramble_read_of_ne s.consulted .word a hcc
    | succ k =>
      obtain ⟨u, h1, h2, h3, h4, h5, h6⟩ := h.head b r hm
      obtain ⟨t, h7, h8⟩ := ih (h2.mem hm) (by omega) (by omega) (h.tail h2 h3) (by rw [h3, getD_tail]; exact hab)
        (fun j hj => by rw [h2.touches]; exact hrest j hj)
      exact ⟨t, by simp only [storeBlock, h1, h7], .cons (by omega) h2 h4 h5 h6 h8⟩

/-- A code region among the words left over after an abort is refused (R62, log 7). -/
theorem scrambleBlock_of_code {rs : List RegNum} {a : Word} {s : State} (ha : AlignedTo 4 a)
    (h : ∃ j, j < rs.length ∧ s.touches .code .word (a + BitVec.ofNat 32 (4 * j)) = true) :
    scrambleBlock rs a s = .refused .storeToCode := by
  induction rs generalizing a s with
  | nil => obtain ⟨j, hj, -⟩ := h; simp at hj
  | cons r rs ih =>
    rw [scrambleBlock]
    split
    · rfl
    · rename_i hn
      obtain ⟨j, hj, hc⟩ := h
      cases j with
      | zero => simp only [Nat.mul_zero, BitVec.add_zero] at hc; exact absurd hc hn
      | succ j =>
        exact ih (aligned_succ ha)
          ⟨j, by simpa using hj, by rw [step_address, (accessed_scramble s (w := .word) ha).touches]; exact hc⟩

/-- The stores of a block that comes to a refusal at place `k`: a code region there; nothing there; or an abort there with a
code region there or after it. -/
theorem storeBlock_refused {b : Bank} {rs : List RegNum} {a : Word} {s : State} {k : Nat} {e : Refusal}
    (hm : Memory.wf s.mem = true) (hk : k < rs.length) (h : WritesComplete k a s)
    (hr : (s.touches .code .word (a + BitVec.ofNat 32 (4 * k)) = true ∧ e = .storeToCode) ∨
      (s.inputs.aborts.getD k false = false ∧ s.touches .code .word (a + BitVec.ofNat 32 (4 * k)) = false ∧
        s.touches .nothing .word (a + BitVec.ofNat 32 (4 * k)) = true ∧ e = .unmapped) ∨
      (s.inputs.aborts.getD k false = true ∧
        (∃ j, k ≤ j ∧ j < rs.length ∧ s.touches .code .word (a + BitVec.ofNat 32 (4 * j)) = true) ∧ e = .storeToCode)) :
    storeBlock b rs a s = .refused e := by
  induction rs generalizing a s k with
  | nil => simp at hk
  | cons r rs ih =>
    have hal := h.1
    cases k with
    | zero =>
      simp only [Nat.mul_zero, BitVec.add_zero] at hr
      rw [← abortNext_eq_getD] at hr
      rw [storeBlock]
      rcases hr with ⟨h1, rfl⟩ | ⟨h1, h2, h3, rfl⟩ | ⟨h1, ⟨j, -, hj, hc⟩, rfl⟩
      · rw [memWrite_of_code _ hal h1]
      · rw [memWrite_of_nothing _ hal h1 h2 h3]
      · by_cases h0 : s.touches .code .word a = true
        · rw [memWrite_of_code _ hal h0]
        · have hw := memWrite_of_abort (s.readBank b r) hal h1 (by simpa using h0)
          rw [hw]
          cases j with
          | zero => simp only [Nat.mul_zero, BitVec.add_zero] at hc; exact absurd hc h0
          | succ j =>
            simp only
            rw [scrambleBlock_of_code (aligned_succ hal)
              ⟨j, by simpa using hj, by rw [step_address, (accessed_memWrite_abort hw).touches]; exact hc⟩]
    | succ k =>
      obtain ⟨u, h1, h2, h3, -⟩ := h.head b r hm
      simp only [storeBlock, h1]
      refine ih (h2.mem hm) (by simpa using hk) (h.tail h2 h3) ?_
      rw [h3, getD_tail, step_address, h2.touches, h2.touches]
      rcases hr with hr | hr | ⟨hr1, ⟨j, hj1, hj2, hj3⟩, hr2⟩
      · exact .inl hr
      · exact .inr (.inl hr)
      · refine .inr (.inr ⟨hr1, ⟨j - 1, by omega, by simp at hj2; omega, ?_⟩, hr2⟩)
        rw [step_address, h2.touches, show j - 1 + 1 = j by omega]; exact hj3

theorem accessed_scrambleBlock {rs : List RegNum} {a : Word} {s t : State} (ha : AlignedTo 4 a)
    (h : scrambleBlock rs a s = .ok () t ∨ scrambleBlock rs a s = .abort t) : Accessed s t := by
  induction rs generalizing a s with
  | nil => rcases h with h | h <;> cases h; exact .refl _
  | cons r rs ih =>
    simp only [scrambleBlock] at h
    split at h
    · rcases h with h | h <;> cases h
    · exact (accessed_scramble s (w := .word) ha).trans (ih (aligned_succ ha) h)

theorem accessed_storeBlock {b : Bank} {rs : List RegNum} {a : Word} {s t : State}
    (h : storeBlock b rs a s = .ok () t ∨ storeBlock b rs a s = .abort t) : Accessed s t := by
  induction rs generalizing a s with
  | nil => rcases h with h | h <;> cases h; exact .refl _
  | cons r rs ih =>
    simp only [storeBlock] at h
    cases hw : memWrite .word a (s.readBank b r) s with
    | refused e => rw [hw] at h; rcases h with h | h <;> cases h
    | abort u =>
      rw [hw] at h
      simp only at h
      cases hs : scrambleBlock rs (a + 4#32) u with
      | refused e => rw [hs] at h; rcases h with h | h <;> cases h
      | ok v x =>
        rw [hs] at h
        rcases h with h | h <;> cases h
        exact (accessed_memWrite_abort hw).trans
          (accessed_scrambleBlock (aligned_succ (memWrite_abort hw).1) (.inl hs))
      | abort x =>
        rw [hs] at h
        rcases h with h | h <;> cases h
        exact (accessed_memWrite_abort hw).trans
          (accessed_scrambleBlock (aligned_succ (memWrite_abort hw).1) (.inr hs))
    | ok v u =>
      rw [hw] at h
      exact (accessed_memWrite_ok hw).trans (ih h)

end Sys2Proof.Machine
end

