-- ==== Sys2Proof/Laws/Encoding.lean ====
section
/-! SUPPORT. Fields of a word put together by `place` (30_encoding.md): reading one back, and testing fixed
bits under a mask. -/

namespace Sys2Proof

open Machine (place bitsAt)

theorem getLsbD_place {n : Nat} (f : BitVec n) (lo j : Nat) :
    (place f lo).getLsbD j = (decide (j < 32) && decide (lo ≤ j) && f.getLsbD (j - lo)) := by
  simp only [place, BitVec.getLsbD_shiftLeft, BitVec.getLsbD_setWidth]
  by_cases h1 : j < 32
  · by_cases h2 : lo ≤ j
    · simp [h1, h2, show ¬ j < lo by omega, show j - lo < 32 by omega]
    · simp [h2, show j < lo by omega]
  · simp [h1]

theorem bitsAt_or {m : Nat} (v w : BitVec m) (lo n : Nat) :
    bitsAt (v ||| w) lo n = bitsAt v lo n ||| bitsAt w lo n := by
  ext i hi; simp [bitsAt]

/-- A field read where it was placed. -/
theorem bitsAt_place_same {n : Nat} (f : BitVec n) (lo : Nat) (h : lo + n ≤ 32) :
    bitsAt (place f lo) lo n = f := by
  ext i hi
  rw [← BitVec.getLsbD_eq_getElem, bitsAt, BitVec.getLsbD_extractLsb', getLsbD_place]
  simp [hi, show lo + i < 32 by omega]

/-- A field read beside where another was placed. -/
theorem bitsAt_place_disjoint {m : Nat} (f : BitVec m) (l lo n : Nat) (h : l + m ≤ lo ∨ lo + n ≤ l) :
    bitsAt (place f l) lo n = 0#n := by
  ext i hi
  rw [← BitVec.getLsbD_eq_getElem, bitsAt, BitVec.getLsbD_extractLsb', getLsbD_place]
  rcases h with h | h
  · simp [BitVec.getLsbD_of_ge f (lo + i - l) (by omega)]
  · simp [show ¬ l ≤ lo + i by omega]

theorem bitOf_or (v w : Word) (i : Nat) : bitOf (v ||| w) i = (bitOf v i || bitOf w i) := by
  simp [bitOf]

theorem bitOf_flagAt_same (b : Bool) (i : Nat) (h : i < 32) : bitOf (flagAt b i) i = b := by
  rw [bitOf, flagAt, getLsbD_place]; simp [h]

theorem bitOf_place_disjoint {m : Nat} (f : BitVec m) (l i : Nat) (h : l + m ≤ i ∨ i < l) :
    bitOf (place f l) i = false := by
  rw [bitOf, getLsbD_place]
  rcases h with h | h
  · simp [BitVec.getLsbD_of_ge f (i - l) (by omega)]
  · simp [show ¬ l ≤ i by omega]

theorem bitOf_flagAt_other (b : Bool) (l i : Nat) (h : i ≠ l) : bitOf (flagAt b l) i = false :=
  bitOf_place_disjoint _ _ _ (by omega)

theorem bitsAt_flagAt_disjoint (b : Bool) (l lo n : Nat) (h : l < lo ∨ lo + n ≤ l) :
    bitsAt (flagAt b l) lo n = 0#n :=
  bitsAt_place_disjoint _ _ _ _ (by omega)

/-- A field outside a mask does not show under it. -/
theorem place_and_of_outside {m : Nat} (f : BitVec m) (lo : Nat) (mask : Word) (h : mask.extractLsb' lo m = 0#m) :
    place f lo &&& mask = 0#32 := by
  ext i hi
  rw [← BitVec.getLsbD_eq_getElem, BitVec.getLsbD_and, getLsbD_place]
  by_cases h1 : lo ≤ i
  · by_cases h2 : i - lo < m
    · have := congrArg (fun x => x.getLsbD (i - lo)) h
      simp only [BitVec.getLsbD_extractLsb', h2, decide_true, Bool.true_and] at this
      rw [show lo + (i - lo) = i by omega] at this
      simp [this]
    · simp [BitVec.getLsbD_of_ge f (i - lo) (by omega)]
  · simp [h1]

theorem or_and_distrib (a b mask : Word) : (a ||| b) &&& mask = (a &&& mask) ||| (b &&& mask) := by
  ext i hi; simp [Bool.and_or_distrib_right]

@[simp] theorem Cond.ofBits_bits (c : Cond) : Cond.ofBits c.bits = some c := by cases c <;> rfl

@[simp] theorem ShiftType.ofBits_bits (t : ShiftType) : ShiftType.ofBits t.bits = t := by cases t <;> rfl

/-! ## Thumb halfwords -/

/-- The top five bits of a Thumb halfword under their mask. -/
theorem append_and_top5 (k k' : BitVec 5) (x : BitVec 11) :
    ((k ++ x : BitVec 16) &&& 0xF800#16 = (k' ++ 0#11 : BitVec 16)) ↔ k = k' := by
  rw [show (0xF800#16) = (BitVec.allOnes 5 ++ 0#11 : BitVec (5 + 11)) from by decide]
  refine Iff.trans (Eq.congr_left (BitVec.and_append (x₁ := k) (x₂ := BitVec.allOnes 5) (y₁ := x) (y₂ := 0#11))) ?_
  rw [BitVec.and_allOnes, BitVec.and_zero]
  exact BitVec.append_left_inj _
/-- The top eight bits of a Thumb halfword under their mask. -/
theorem append_and_top8 (k k' x : BitVec 8) :
    ((k ++ x : BitVec 16) &&& 0xFF00#16 = (k' ++ 0#8 : BitVec 16)) ↔ k = k' := by
  rw [show (0xFF00#16) = (BitVec.allOnes 8 ++ 0#8 : BitVec (8 + 8)) from by decide]
  refine Iff.trans (Eq.congr_left (BitVec.and_append (x₁ := k) (x₂ := BitVec.allOnes 8) (y₁ := x) (y₂ := 0#8))) ?_
  rw [BitVec.and_allOnes, BitVec.and_zero]
  exact BitVec.append_left_inj _

/-- No halfword of the BL format is one of the SWI format. -/
theorem not_swi_of_top5 {h : Half} {k : BitVec 16} (hk : h &&& 0xF800#16 = k) (hne : k ≠ 0xD800#16) :
    h &&& 0xFF00#16 ≠ 0xDF00#16 := by
  intro hs
  apply hne
  rw [← hk, show (0xF800#16) = 0xFF00#16 &&& 0xF800#16 from by decide, ← BitVec.and_assoc, hs]
  decide

/-! ## Words outside the table -/

/-- A word left to `ExecOther` is given whole, under its condition (30_encoding.md R86). -/
theorem decodeArm_other {w v : Word} {c : Cond} (h : decodeArm w = .other c v) :
    Cond.ofBits (w.extractLsb' 28 4) = some c ∧ v = w := by
  unfold decodeArm at h
  split at h
  · cases h
  · rename_i k hk
    split at h
    · cases h
    · cases h; exact ⟨hk, rfl⟩

theorem decodeThumb_other {x : Half} {v : Word} {c : Cond} (h : decodeThumb x = .other c v) :
    c = .al ∧ v = x.setWidth 32 := by
  unfold decodeThumb at h
  repeat' split at h
  all_goals cases h
  exact ⟨rfl, rfl⟩

end Sys2Proof
end

