-- ==== Sys2Proof/Laws/Exec.lean ====
section
/-! SUPPORT. What an instruction can do to the status registers, the pc, memory's form and the parameters, said once
for each operation and once for `exec`; the whole-machine statements rest on these and unfold no meaning. -/

namespace Sys2Proof.Machine

/-- The CPSR and the SPSRs after an instruction, and where the pc is when that says something: kept but for the flags;
an exception entered; an exception return; MSR. -/
inductive StatusEffect (i : Instr) (s t : State) : Prop where
  | kept (cpsr : ∀ j, j < 28 → t.cpsr.getLsbD j = s.cpsr.getLsbD j) (spsrs : t.spsrs = s.spsrs)
      (pc : t.pc = s.pc + 4#32 ∨ (s.thumb = true → AlignedTo 2 s.pc → AlignedTo 2 t.pc) ∧
        (s.thumb = false → AlignedTo 4 s.pc → AlignedTo 4 t.pc))
  | thumbNext (instr : ∃ x, i = .thumbBlFirst x) (cpsr : t.cpsr = s.cpsr) (spsrs : t.spsrs = s.spsrs) (pc : t.pc = s.pc + 2#32)
  | entered (e : Exc) (notReset : e ≠ .reset) (pc : t.pc = e.vector) (cpsr : t.cpsr = entryPsr e s.cpsr)
      (spsrs : t.spsrs = s.spsrs.set e.mode s.cpsr)
  | returned (m : ExcMode) (bank : s.bank = some m) (legal : legalMode (s.spsrs.get m) = true)
      (cpsr : t.cpsr = s.spsrs.get m) (spsrs : t.spsrs = s.spsrs) (pc : AlignedTo t.instrSize t.pc)
  | msr (mask : BitVec 4) (v : Word) (cpsr : t.cpsr = mergeBits (cpsrWriteMask mask s.cpsr) s.cpsr v)
      (keepsT : psrT t.cpsr = psrT s.cpsr) (legal : legalMode t.cpsr = true) (spsrs : t.spsrs = s.spsrs)
      (pc : t.pc = s.pc + 4#32)
  | msrSpsr (m : ExcMode) (v : Word)
      (instr : (∃ c k rm, i = .msrReg c true k rm) ∨ ∃ c k rot imm, i = .msrImm c true k rot imm) (bank : s.bank = some m) (cpsr : t.cpsr = s.cpsr)
      (spsrs : t.spsrs = s.spsrs.set m v) (pc : t.pc = s.pc + 4#32)

/-- What every completed instruction keeps besides: the parameters, and the canonical form of memory. -/
structure Tame (i : Instr) (s t : State) : Prop where
  status : StatusEffect i s t
  platform : t.platform = s.platform
  mem : Memory.wf s.mem = true → Memory.wf t.mem = true

theorem instrSize_congr {s t : State} (h : t.cpsr = s.cpsr) : t.instrSize = s.instrSize := by
  unfold State.instrSize State.thumb; rw [h]

/-! ## The ends of an instruction -/

/-- The pc moves past an ARM instruction, nothing else of the status. -/
theorem Tame.advanced {i : Instr} {s t : State} (hc : ∀ j, j < 28 → t.cpsr.getLsbD j = s.cpsr.getLsbD j) (hs : t.spsrs = s.spsrs)
    (hp : t.pc = s.pc + 4#32) (hpl : t.platform = s.platform) (hm : Memory.wf s.mem = true → Memory.wf t.mem = true) :
    Tame i s t := ⟨.kept hc hs (.inl hp), hpl, hm⟩

theorem tame_setPc {i : Instr} {s u t : State} {target : Word} (h : setPc target u = .next t) (hc : u.cpsr = s.cpsr)
    (hs : u.spsrs = s.spsrs) (hpl : u.platform = s.platform) (hm : Memory.wf s.mem = true → Memory.wf u.mem = true) :
    Tame i s t := by
  obtain ⟨ha, rfl⟩ := setPc_next.mp h
  have hz : u.instrSize = if s.thumb then 2 else 4 := by rw [instrSize_congr hc]; rfl
  rw [hz] at ha
  refine ⟨.kept (fun j _ => by simp [hc]) hs (.inr ⟨fun ht _ => ?_, fun ht _ => ?_⟩), hpl, hm⟩
  · simpa [ht] using ha
  · simpa [ht] using ha

theorem tame_raise {i : Instr} {e : Exc} {s u t : State} (h : raise e u = .next t) (he : e ≠ .reset) (hc : u.cpsr = s.cpsr)
    (hs : u.spsrs = s.spsrs) (hpl : u.platform = s.platform) (hm : Memory.wf s.mem = true → Memory.wf u.mem = true) :
    Tame i s t := by
  have ht := next_inj h
  obtain ⟨k, hk⟩ : ∃ k, e.offset u.thumb = some k := by cases e <;> simp_all [Exc.offset]
  rw [takeException_eq hk] at ht
  subst ht
  exact ⟨.entered e he rfl (by simp [hc]) (by simp [hc, hs]), hpl, hm⟩

theorem tame_exceptionReturn {i : Instr} {s u t : State} {target : Word} (h : exceptionReturn target u = .next t)
    (hc : u.cpsr = s.cpsr) (hs : u.spsrs = s.spsrs) (hpl : u.platform = s.platform)
    (hm : Memory.wf s.mem = true → Memory.wf u.mem = true) : Tame i s t := by
  obtain ⟨m, hb, hl, ha, rfl⟩ := exceptionReturn_next h
  rw [hs] at hl
  exact ⟨.returned m (by rw [← hb]; simp [State.bank, hc]) hl (by rw [hs]) hs ha, hpl, hm⟩

theorem tame_whenPassed {i : Instr} {c : Cond} {s t : State} {run : Result} (h : whenPassed c s run = .next t)
    (hr : run = .next t → Tame i s t) : Tame i s t := by
  rcases whenPassed_next h with ⟨-, h⟩ | ⟨-, rfl⟩
  · exact hr h
  · exact .advanced (fun _ _ => rfl) rfl rfl rfl id

/-! ## MOV, SUB and the status registers -/

theorem tame_finishData {i : Instr} {setsFlags : Bool} {rd : RegNum} {result flags : Word} {s t : State}
    (hf : ∀ j, j < 28 → flags.getLsbD j = s.cpsr.getLsbD j) (h : finishData setsFlags rd result flags s = .next t) :
    Tame i s t := by
  unfold finishData at h
  split at h
  · split at h
    · exact tame_exceptionReturn h rfl rfl rfl id
    · exact tame_setPc h rfl rfl rfl id
  · have ht := next_inj h
    subst ht
    cases setsFlags
    · exact .advanced (by simp) (by simp) (by simp) (by simp) (by simp)
    · exact .advanced hf (by simp) (by simp) (by simp) (by simp)

theorem withNZCV_low (p : Word) (n z c v : Bool) (j : Nat) (h : j < 28) :
    (withNZCV p n z c v).getLsbD j = p.getLsbD j := by
  rw [getLsbD_withNZCV, if_neg (by omega), if_neg (by omega), if_neg (by omega), if_neg (by omega)]

theorem tame_movOp {i : Instr} {b : Bool} {rd : RegNum} {o : ShifterOperand} {s t : State} (h : movOp b rd o s = .next t) :
    Tame i s t := tame_finishData (fun j hj => withNZCV_low _ _ _ _ _ j hj) h

theorem tame_subOp {i : Instr} {b : Bool} {rn rd : RegNum} {o : ShifterOperand} {s t : State} (h : subOp b rn rd o s = .next t) :
    Tame i s t := tame_finishData (fun j hj => withNZCV_low _ _ _ _ _ j hj) h

theorem tame_mrsOp {i : Instr} {r : Bool} {rd : RegNum} {s t : State} (h : mrsOp r rd s = .next t) : Tame i s t := by
  unfold mrsOp at h
  split at h
  · cases h
  split at h
  · split at h
    · cases h
    · have ht := next_inj h; subst ht
      exact .advanced (by simp) (by simp) (by simp) (by simp) (by simp)
  · have ht := next_inj h; subst ht
    exact .advanced (by simp) (by simp) (by simp) (by simp) (by simp)

theorem tame_msrOp {i : Instr} {r : Bool} {m : BitVec 4} {v : Word} {s t : State}
    (hi : r = true → (∃ c k rm, i = .msrReg c true k rm) ∨ ∃ c k rot imm, i = .msrImm c true k rot imm)
    (h : msrOp r m v s = .next t) : Tame i s t := by
  unfold msrOp at h
  split at h
  · rename_i hr
    unfold msrSpsr at h
    split at h
    · cases h
    · rename_i k hk
      have ht := next_inj h; subst ht
      exact ⟨.msrSpsr k _ (hi hr) hk rfl rfl rfl, rfl, id⟩
  · unfold msrCpsr at h
    dsimp only at h
    split at h
    · cases h
    split at h
    · cases h
    · rename_i h1 h2
      have ht := next_inj h; subst ht
      exact ⟨.msr m v rfl (by simpa using h1) (by simpa using h2) rfl rfl, rfl, id⟩

theorem tame_coprocOp {i : Instr} {c : Cond} {w : Word} {s t : State} (h : coprocOp c w s = .next t) : Tame i s t :=
  tame_whenPassed h fun h => by
    split at h
    · cases h
    · exact tame_raise h (by simp) rfl rfl rfl id

/-! ## Transfers -/

theorem tame_loadOp {i : Instr} {w : Width} {a : Addressing} {rd : RegNum} {s t : State} (h : loadOp w a rd s = .next t) :
    Tame i s t := by
  unfold loadOp at h
  split at h
  · cases h
  · rename_i u hu
    have := accessed_memRead_abort hu
    exact tame_raise h (by simp) (by simp [this.cpsr]) (by simp [this.spsrs]) (by simp [this.platform])
      (by simpa using this.mem)
  · rename_i v u hu
    have := accessed_memRead_ok hu
    dsimp only at h
    split at h
    · exact tame_setPc h (by simp [this.cpsr]) (by simp [this.spsrs]) (by simp [this.platform]) (by simpa using this.mem)
    · have ht := next_inj h; subst ht
      exact .advanced (by simp [this.cpsr]) (by simp [this.spsrs]) (by simp [this.pc]) (by simp [this.platform])
        (by simpa using this.mem)

theorem tame_storeOp {i : Instr} {w : Width} {a : Addressing} {rd : RegNum} {s t : State} (h : storeOp w a rd s = .next t) :
    Tame i s t := by
  unfold storeOp at h
  split at h
  · cases h
  · rename_i u hu
    have := accessed_memWrite_abort hu
    exact tame_raise h (by simp) (by simp [this.cpsr]) (by simp [this.spsrs]) (by simp [this.platform])
      (by simpa using this.mem)
  · rename_i u hu
    have := accessed_memWrite_ok hu
    have ht := next_inj h; subst ht
    exact .advanced (by simp [this.cpsr]) (by simp [this.spsrs]) (by simp [this.pc]) (by simp [this.platform])
      (by simpa using this.mem)

theorem tame_ldrOp {i : Instr} {c : Cond} {a : Addressing} {rd : RegNum} {s t : State} (h : ldrOp c a rd s = .next t) : Tame i s t :=
  tame_whenPassed h fun h => by
    split at h
    · cases h
    · exact tame_loadOp h

theorem tame_ldrbOp {i : Instr} {c : Cond} {a : Addressing} {rd : RegNum} {s t : State} (h : ldrbOp c a rd s = .next t) :
    Tame i s t :=
  tame_whenPassed h fun h => by
    split at h
    · cases h
    split at h
    · cases h
    · exact tame_loadOp h

theorem tame_strOp {i : Instr} {w : Width} {c : Cond} {a : Addressing} {rd : RegNum} {s t : State}
    (h : strOp w c a rd s = .next t) : Tame i s t :=
  tame_whenPassed h fun h => by
    split at h
    · cases h
    split at h
    · cases h
    · exact tame_storeOp h

theorem tame_swpOp {i : Instr} {w : Width} {c : Cond} {rn rd rm : RegNum} {s t : State} (h : swpOp w c rn rd rm s = .next t) :
    Tame i s t :=
  tame_whenPassed h fun h => by
    split at h
    · cases h
    unfold swapOp at h
    split at h
    · cases h
    · rename_i u hu
      have := accessed_memRead_abort hu
      exact tame_raise h (by simp) this.cpsr this.spsrs this.platform this.mem
    · rename_i v u hu
      have h1 := accessed_memRead_ok hu
      split at h
      · cases h
      · rename_i x hx
        have := h1.trans (accessed_memWrite_abort hx)
        exact tame_raise h (by simp) this.cpsr this.spsrs this.platform this.mem
      · rename_i x hx
        have := h1.trans (accessed_memWrite_ok hx)
        have ht := next_inj h; subst ht
        exact .advanced (by simp [this.cpsr]) (by simp [this.spsrs]) (by simp [this.pc]) (by simp [this.platform])
          (by simpa using this.mem)

/-! ## Block transfers -/

theorem tame_loadMultiple {i : Instr} {p u b w : Bool} {rn : RegNum} {list : BitVec 16} {s t : State}
    (h : loadMultiple p u b w rn list s = .next t) : Tame i s t := by
  unfold loadMultiple at h
  dsimp only at h
  split at h
  · cases h
  · rename_i l x hx
    have := accessed_loadBlock hx
    exact tame_raise h (by simp) (by simp [this.cpsr]) (by simp [this.spsrs]) (by simp [this.platform])
      (by simpa using this.mem)
  · rename_i l x hx
    have := accessed_loadBlock hx
    split at h
    · split at h
      · exact tame_exceptionReturn h (by simp [this.cpsr]) (by simp [this.spsrs]) (by simp [this.platform])
          (by simpa using this.mem)
      · exact tame_setPc h (by simp [this.cpsr]) (by simp [this.spsrs]) (by simp [this.platform])
          (by simpa using this.mem)
    · have ht := next_inj h; subst ht
      exact .advanced (by simp [this.cpsr]) (by simp [this.spsrs]) (by simp [this.pc]) (by simp [this.platform])
        (by simpa using this.mem)

theorem tame_storeMultiple {i : Instr} {p u b w : Bool} {rn : RegNum} {list : BitVec 16} {s t : State}
    (h : storeMultiple p u b w rn list s = .next t) : Tame i s t := by
  unfold storeMultiple at h
  dsimp only at h
  split at h
  · cases h
  · rename_i x hx
    have := accessed_storeBlock (.inr hx)
    exact tame_raise h (by simp) (by simp [this.cpsr]) (by simp [this.spsrs]) (by simp [this.platform])
      (by simpa using this.mem)
  · rename_i x hx
    have := accessed_storeBlock (.inl hx)
    have ht := next_inj h; subst ht
    exact .advanced (by simp [this.cpsr]) (by simp [this.spsrs]) (by simp [this.pc]) (by simp [this.platform])
      (by simpa using this.mem)

theorem tame_ldm {i : Instr} {c : Cond} {p u b w : Bool} {rn : RegNum} {list : BitVec 16} {s t : State}
    (h : execLdm c p u b w rn list s = .next t) : Tame i s t :=
  tame_whenPassed h fun h => by
    split at h
    · cases h
    · exact tame_loadMultiple h

theorem tame_stm {i : Instr} {c : Cond} {p u b w : Bool} {rn : RegNum} {list : BitVec 16} {s t : State}
    (h : execStm c p u b w rn list s = .next t) : Tame i s t :=
  tame_whenPassed h fun h => by
    split at h
    · cases h
    · exact tame_storeMultiple h

/-! ## Every instruction -/

theorem exec_tame {i : Instr} {s t : State} (h : exec i s = .next t) : Tame i s t := by
  cases i <;> simp only [exec] at h
  case b => exact tame_whenPassed h fun h => tame_setPc h rfl rfl rfl id
  case bl => exact tame_whenPassed h fun h => tame_setPc h (by simp) (by simp) (by simp) (by simp)
  case swi => exact tame_whenPassed h fun h => tame_raise h (by simp) rfl rfl rfl id
  case udef => exact tame_whenPassed h fun h => tame_raise h (by simp) rfl rfl rfl id
  case ldm => exact tame_ldm h
  case stm => exact tame_stm h
  case swp => exact tame_swpOp h
  case swpb => exact tame_swpOp h
  case mrs => exact tame_whenPassed h tame_mrsOp
  case msrReg =>
    refine tame_whenPassed h fun h => ?_
    split at h
    · cases h
    · exact tame_msrOp (fun hr => .inl ⟨_, _, _, by rw [hr]⟩) h
  case msrImm => exact tame_whenPassed h (tame_msrOp fun hr => .inr ⟨_, _, _, _, by rw [hr]⟩)
  case thumbSwi => exact tame_raise h (by simp) rfl rfl rfl id
  case thumbBlFirst =>
    have ht := next_inj h; subst ht
    exact ⟨.thumbNext ⟨_, rfl⟩ (by simp) (by simp) (by simp), by simp, by simp⟩
  case thumbBlSecond => exact tame_setPc h (by simp) (by simp) (by simp) (by simp)
  case thumbMovPcR14 => exact tame_setPc h rfl rfl rfl id
  all_goals first
    | exact tame_whenPassed h tame_movOp
    | exact tame_whenPassed h tame_subOp
    | exact tame_ldrOp h
    | exact tame_ldrbOp h
    | exact tame_strOp h
    | exact tame_coprocOp h

end Sys2Proof.Machine
end

