-- ==== Sys2Proof/Laws/PerInstr.lean ====
section
/-! SUPPORT. One law per instruction (LAWS.json, family Encoding): some row of the decoder's table takes the
instruction's word and builds the instruction from it. With the rows' disjointness this is the round trip. -/

namespace Sys2Proof.Laws.Encoding

open Machine (place bitsAt)

/-- A row of the table takes the word of `i` under its condition and builds `i`; in Thumb state the decoder
does. -/
def Statement (i : Instr) : Prop :=
  match encode i with
  | .arm w => ∃ r ∈ specialRows ++ generalRows, r.hits w = true ∧
      ∃ c, Cond.ofBits (bitsAt w 28 4) = some c ∧ r.build c w = i
  | .thumb h => decodeThumb h = .instr i

/-- The row at place `k` of the table. -/
theorem of_row (k : Nat) (r : ArmRow) {i : Instr} {w : Word} (c : Cond) (he : encode i = .arm w)
    (hk : (specialRows ++ generalRows)[k]? = some r) (hh : r.hits w = true) (hc : bitsAt w 28 4 = c.bits)
    (hb : r.build c w = i) : Statement i := by
  unfold Statement
  rw [he]
  exact ⟨r, List.mem_of_getElem? hk, hh, c, by rw [hc, Cond.ofBits_bits], hb⟩

theorem movPcR14 (c : Cond) : Statement (.movPcR14 c) := by
  refine of_row 0 ⟨0x0FFFFFFF#32, 0x01A0F00E#32, fun c _ => .movPcR14 c⟩ c rfl rfl ?_ ?_ ?_
  · simp [ArmRow.hits, encodeDataReg, opcodeMov, flagAt, or_and_distrib, place_and_of_outside]; try decide
  · simp [encodeDataReg, flagAt, bitsAt_or, bitsAt_place_same, bitsAt_place_disjoint]
  · rfl

theorem movsPcR14 (c : Cond) : Statement (.movsPcR14 c) := by
  refine of_row 1 ⟨0x0FFFFFFF#32, 0x01B0F00E#32, fun c _ => .movsPcR14 c⟩ c rfl rfl ?_ ?_ ?_
  · simp [ArmRow.hits, encodeDataReg, opcodeMov, flagAt, or_and_distrib, place_and_of_outside]; try decide
  · simp [encodeDataReg, flagAt, bitsAt_or, bitsAt_place_same, bitsAt_place_disjoint]
  · rfl

theorem subsPcR14Imm4 (c : Cond) : Statement (.subsPcR14Imm4 c) := by
  refine of_row 2 ⟨0x0FFFFFFF#32, 0x025EF004#32, fun c _ => .subsPcR14Imm4 c⟩ c rfl rfl ?_ ?_ ?_
  · simp [ArmRow.hits, encodeDataImm, opcodeSub, flagAt, or_and_distrib, place_and_of_outside]; try decide
  · simp [encodeDataImm, flagAt, bitsAt_or, bitsAt_place_same, bitsAt_place_disjoint]
  · rfl

theorem subsPcR14Imm8 (c : Cond) : Statement (.subsPcR14Imm8 c) := by
  refine of_row 3 ⟨0x0FFFFFFF#32, 0x025EF008#32, fun c _ => .subsPcR14Imm8 c⟩ c rfl rfl ?_ ?_ ?_
  · simp [ArmRow.hits, encodeDataImm, opcodeSub, flagAt, or_and_distrib, place_and_of_outside]; try decide
  · simp [encodeDataImm, flagAt, bitsAt_or, bitsAt_place_same, bitsAt_place_disjoint]
  · rfl

theorem ldrRdR14Minus8 (c : Cond) (rd : RegNum) : Statement (.ldrRdR14Minus8 c rd) := by
  refine of_row 4 ⟨0x0FFF0FFF#32, 0x051E0008#32, fun c w => .ldrRdR14Minus8 c (rdOf w)⟩ c rfl rfl ?_ ?_ ?_
  · simp [ArmRow.hits, encodeTransferImm, flagAt, or_and_distrib, place_and_of_outside]; try decide
  · simp [encodeTransferImm, flagAt, bitsAt_or, bitsAt_place_same, bitsAt_place_disjoint]
  · simp [encodeTransferImm, flagAt, rdOf, bitsAt_or, bitsAt_place_same, bitsAt_place_disjoint]

theorem b (c : Cond) (offset24 : BitVec 24) : Statement (.b c offset24) := by
  refine of_row 5 ⟨0x0F000000#32, 0x0A000000#32, fun c w => .b c (bitsAt w 0 24)⟩ c rfl rfl ?_ ?_ ?_
  · simp [ArmRow.hits, encodeBranch, flagAt, or_and_distrib, place_and_of_outside]; try decide
  · simp [encodeBranch, flagAt, bitsAt_or, bitsAt_place_same, bitsAt_place_disjoint]
  · simp [encodeBranch, flagAt, bitsAt_or, bitsAt_place_same, bitsAt_place_disjoint]

theorem bl (c : Cond) (offset24 : BitVec 24) : Statement (.bl c offset24) := by
  refine of_row 6 ⟨0x0F000000#32, 0x0B000000#32, fun c w => .bl c (bitsAt w 0 24)⟩ c rfl rfl ?_ ?_ ?_
  · simp [ArmRow.hits, encodeBranch, flagAt, or_and_distrib, place_and_of_outside]; try decide
  · simp [encodeBranch, flagAt, bitsAt_or, bitsAt_place_same, bitsAt_place_disjoint]
  · simp [encodeBranch, flagAt, bitsAt_or, bitsAt_place_same, bitsAt_place_disjoint]

theorem swi (c : Cond) (comment24 : BitVec 24) : Statement (.swi c comment24) := by
  refine of_row 7 ⟨0x0F000000#32, 0x0F000000#32, fun c w => .swi c (bitsAt w 0 24)⟩ c rfl rfl ?_ ?_ ?_
  · simp [ArmRow.hits, encodeSwi, or_and_distrib, place_and_of_outside]; try decide
  · simp [encodeSwi, bitsAt_or, bitsAt_place_same, bitsAt_place_disjoint]
  · simp [encodeSwi, bitsAt_or, bitsAt_place_same, bitsAt_place_disjoint]

theorem udef (c : Cond) (anyA : BitVec 20) (anyB : BitVec 4) : Statement (.udef c anyA anyB) := by
  refine of_row 8 ⟨0x0E000010#32, 0x06000010#32, fun c w => .udef c (bitsAt w 5 20) (bitsAt w 0 4)⟩ c rfl rfl ?_ ?_ ?_
  · simp [ArmRow.hits, encodeUdef, flagAt, or_and_distrib, place_and_of_outside]; try decide
  · simp [encodeUdef, flagAt, bitsAt_or, bitsAt_place_same, bitsAt_place_disjoint]
  · simp [encodeUdef, flagAt, bitsAt_or, bitsAt_place_same, bitsAt_place_disjoint]

theorem ldrImmPre (c : Cond) (u w : Bool) (rn rd : RegNum) (imm12 : BitVec 12) : Statement (.ldrImmPre c u w rn rd imm12) := by
  refine of_row 9 ⟨0x0F500000#32, 0x05100000#32, fun c w => .ldrImmPre c (bitOf w 23) (bitOf w 21) (rnOf w) (rdOf w) (bitsAt w 0 12)⟩ c rfl rfl ?_ ?_ ?_
  · simp [ArmRow.hits, encodeTransferImm, flagAt, or_and_distrib, place_and_of_outside]; try decide
  · simp [encodeTransferImm, flagAt, bitsAt_or, bitsAt_place_same, bitsAt_place_disjoint]
  · simp [encodeTransferImm, rnOf, rdOf, bitsAt_or, bitsAt_place_same, bitsAt_place_disjoint, bitOf_or,
      bitOf_flagAt_same, bitOf_flagAt_other, bitOf_place_disjoint, bitsAt_flagAt_disjoint]

theorem ldrImmPost (c : Cond) (u : Bool) (rn rd : RegNum) (imm12 : BitVec 12) : Statement (.ldrImmPost c u rn rd imm12) := by
  refine of_row 10 ⟨0x0F700000#32, 0x04100000#32, fun c w => .ldrImmPost c (bitOf w 23) (rnOf w) (rdOf w) (bitsAt w 0 12)⟩ c rfl rfl ?_ ?_ ?_
  · simp [ArmRow.hits, encodeTransferImm, flagAt, or_and_distrib, place_and_of_outside]; try decide
  · simp [encodeTransferImm, flagAt, bitsAt_or, bitsAt_place_same, bitsAt_place_disjoint]
  · simp [encodeTransferImm, rnOf, rdOf, bitsAt_or, bitsAt_place_same, bitsAt_place_disjoint, bitOf_or,
      bitOf_flagAt_same, bitOf_flagAt_other, bitOf_place_disjoint, bitsAt_flagAt_disjoint]

theorem ldrRegPre (c : Cond) (u w : Bool) (rn rd : RegNum) (shiftImm : BitVec 5) (shift : ShiftType) (rm : RegNum) : Statement (.ldrRegPre c u w rn rd shiftImm shift rm) := by
  refine of_row 11 ⟨0x0F500010#32, 0x07100000#32, fun c w => .ldrRegPre c (bitOf w 23) (bitOf w 21) (rnOf w) (rdOf w) (bitsAt w 7 5) (shiftOf w) (rmOf w)⟩ c rfl rfl ?_ ?_ ?_
  · simp [ArmRow.hits, encodeTransferReg, flagAt, or_and_distrib, place_and_of_outside]; try decide
  · simp [encodeTransferReg, flagAt, bitsAt_or, bitsAt_place_same, bitsAt_place_disjoint]
  · simp [encodeTransferReg, rnOf, rdOf, rmOf, shiftOf, bitsAt_or, bitsAt_place_same, bitsAt_place_disjoint, bitOf_or,
      bitOf_flagAt_same, bitOf_flagAt_other, bitOf_place_disjoint, bitsAt_flagAt_disjoint]

theorem ldrRegPost (c : Cond) (u : Bool) (rn rd : RegNum) (shiftImm : BitVec 5) (shift : ShiftType) (rm : RegNum) : Statement (.ldrRegPost c u rn rd shiftImm shift rm) := by
  refine of_row 12 ⟨0x0F700010#32, 0x06100000#32, fun c w => .ldrRegPost c (bitOf w 23) (rnOf w) (rdOf w) (bitsAt w 7 5) (shiftOf w) (rmOf w)⟩ c rfl rfl ?_ ?_ ?_
  · simp [ArmRow.hits, encodeTransferReg, flagAt, or_and_distrib, place_and_of_outside]; try decide
  · simp [encodeTransferReg, flagAt, bitsAt_or, bitsAt_place_same, bitsAt_place_disjoint]
  · simp [encodeTransferReg, rnOf, rdOf, rmOf, shiftOf, bitsAt_or, bitsAt_place_same, bitsAt_place_disjoint, bitOf_or,
      bitOf_flagAt_same, bitOf_flagAt_other, bitOf_place_disjoint, bitsAt_flagAt_disjoint]

theorem ldrbImmPre (c : Cond) (u w : Bool) (rn rd : RegNum) (imm12 : BitVec 12) : Statement (.ldrbImmPre c u w rn rd imm12) := by
  refine of_row 13 ⟨0x0F500000#32, 0x05500000#32, fun c w => .ldrbImmPre c (bitOf w 23) (bitOf w 21) (rnOf w) (rdOf w) (bitsAt w 0 12)⟩ c rfl rfl ?_ ?_ ?_
  · simp [ArmRow.hits, encodeTransferImm, flagAt, or_and_distrib, place_and_of_outside]; try decide
  · simp [encodeTransferImm, flagAt, bitsAt_or, bitsAt_place_same, bitsAt_place_disjoint]
  · simp [encodeTransferImm, rnOf, rdOf, bitsAt_or, bitsAt_place_same, bitsAt_place_disjoint, bitOf_or,
      bitOf_flagAt_same, bitOf_flagAt_other, bitOf_place_disjoint, bitsAt_flagAt_disjoint]

theorem ldrbImmPost (c : Cond) (u : Bool) (rn rd : RegNum) (imm12 : BitVec 12) : Statement (.ldrbImmPost c u rn rd imm12) := by
  refine of_row 14 ⟨0x0F700000#32, 0x04500000#32, fun c w => .ldrbImmPost c (bitOf w 23) (rnOf w) (rdOf w) (bitsAt w 0 12)⟩ c rfl rfl ?_ ?_ ?_
  · simp [ArmRow.hits, encodeTransferImm, flagAt, or_and_distrib, place_and_of_outside]; try decide
  · simp [encodeTransferImm, flagAt, bitsAt_or, bitsAt_place_same, bitsAt_place_disjoint]
  · simp [encodeTransferImm, rnOf, rdOf, bitsAt_or, bitsAt_place_same, bitsAt_place_disjoint, bitOf_or,
      bitOf_flagAt_same, bitOf_flagAt_other, bitOf_place_disjoint, bitsAt_flagAt_disjoint]

theorem ldrbRegPre (c : Cond) (u w : Bool) (rn rd : RegNum) (shiftImm : BitVec 5) (shift : ShiftType) (rm : RegNum) : Statement (.ldrbRegPre c u w rn rd shiftImm shift rm) := by
  refine of_row 15 ⟨0x0F500010#32, 0x07500000#32, fun c w => .ldrbRegPre c (bitOf w 23) (bitOf w 21) (rnOf w) (rdOf w) (bitsAt w 7 5) (shiftOf w) (rmOf w)⟩ c rfl rfl ?_ ?_ ?_
  · simp [ArmRow.hits, encodeTransferReg, flagAt, or_and_distrib, place_and_of_outside]; try decide
  · simp [encodeTransferReg, flagAt, bitsAt_or, bitsAt_place_same, bitsAt_place_disjoint]
  · simp [encodeTransferReg, rnOf, rdOf, rmOf, shiftOf, bitsAt_or, bitsAt_place_same, bitsAt_place_disjoint, bitOf_or,
      bitOf_flagAt_same, bitOf_flagAt_other, bitOf_place_disjoint, bitsAt_flagAt_disjoint]

theorem ldrbRegPost (c : Cond) (u : Bool) (rn rd : RegNum) (shiftImm : BitVec 5) (shift : ShiftType) (rm : RegNum) : Statement (.ldrbRegPost c u rn rd shiftImm shift rm) := by
  refine of_row 16 ⟨0x0F700010#32, 0x06500000#32, fun c w => .ldrbRegPost c (bitOf w 23) (rnOf w) (rdOf w) (bitsAt w 7 5) (shiftOf w) (rmOf w)⟩ c rfl rfl ?_ ?_ ?_
  · simp [ArmRow.hits, encodeTransferReg, flagAt, or_and_distrib, place_and_of_outside]; try decide
  · simp [encodeTransferReg, flagAt, bitsAt_or, bitsAt_place_same, bitsAt_place_disjoint]
  · simp [encodeTransferReg, rnOf, rdOf, rmOf, shiftOf, bitsAt_or, bitsAt_place_same, bitsAt_place_disjoint, bitOf_or,
      bitOf_flagAt_same, bitOf_flagAt_other, bitOf_place_disjoint, bitsAt_flagAt_disjoint]

theorem strImmPre (c : Cond) (u w : Bool) (rn rd : RegNum) (imm12 : BitVec 12) : Statement (.strImmPre c u w rn rd imm12) := by
  refine of_row 17 ⟨0x0F500000#32, 0x05000000#32, fun c w => .strImmPre c (bitOf w 23) (bitOf w 21) (rnOf w) (rdOf w) (bitsAt w 0 12)⟩ c rfl rfl ?_ ?_ ?_
  · simp [ArmRow.hits, encodeTransferImm, flagAt, or_and_distrib, place_and_of_outside]; try decide
  · simp [encodeTransferImm, flagAt, bitsAt_or, bitsAt_place_same, bitsAt_place_disjoint]
  · simp [encodeTransferImm, rnOf, rdOf, bitsAt_or, bitsAt_place_same, bitsAt_place_disjoint, bitOf_or,
      bitOf_flagAt_same, bitOf_flagAt_other, bitOf_place_disjoint, bitsAt_flagAt_disjoint]

theorem strImmPost (c : Cond) (u : Bool) (rn rd : RegNum) (imm12 : BitVec 12) : Statement (.strImmPost c u rn rd imm12) := by
  refine of_row 18 ⟨0x0F700000#32, 0x04000000#32, fun c w => .strImmPost c (bitOf w 23) (rnOf w) (rdOf w) (bitsAt w 0 12)⟩ c rfl rfl ?_ ?_ ?_
  · simp [ArmRow.hits, encodeTransferImm, flagAt, or_and_distrib, place_and_of_outside]; try decide
  · simp [encodeTransferImm, flagAt, bitsAt_or, bitsAt_place_same, bitsAt_place_disjoint]
  · simp [encodeTransferImm, rnOf, rdOf, bitsAt_or, bitsAt_place_same, bitsAt_place_disjoint, bitOf_or,
      bitOf_flagAt_same, bitOf_flagAt_other, bitOf_place_disjoint, bitsAt_flagAt_disjoint]

theorem strRegPre (c : Cond) (u w : Bool) (rn rd : RegNum) (shiftImm : BitVec 5) (shift : ShiftType) (rm : RegNum) : Statement (.strRegPre c u w rn rd shiftImm shift rm) := by
  refine of_row 19 ⟨0x0F500010#32, 0x07000000#32, fun c w => .strRegPre c (bitOf w 23) (bitOf w 21) (rnOf w) (rdOf w) (bitsAt w 7 5) (shiftOf w) (rmOf w)⟩ c rfl rfl ?_ ?_ ?_
  · simp [ArmRow.hits, encodeTransferReg, flagAt, or_and_distrib, place_and_of_outside]; try decide
  · simp [encodeTransferReg, flagAt, bitsAt_or, bitsAt_place_same, bitsAt_place_disjoint]
  · simp [encodeTransferReg, rnOf, rdOf, rmOf, shiftOf, bitsAt_or, bitsAt_place_same, bitsAt_place_disjoint, bitOf_or,
      bitOf_flagAt_same, bitOf_flagAt_other, bitOf_place_disjoint, bitsAt_flagAt_disjoint]

theorem strRegPost (c : Cond) (u : Bool) (rn rd : RegNum) (shiftImm : BitVec 5) (shift : ShiftType) (rm : RegNum) : Statement (.strRegPost c u rn rd shiftImm shift rm) := by
  refine of_row 20 ⟨0x0F700010#32, 0x06000000#32, fun c w => .strRegPost c (bitOf w 23) (rnOf w) (rdOf w) (bitsAt w 7 5) (shiftOf w) (rmOf w)⟩ c rfl rfl ?_ ?_ ?_
  · simp [ArmRow.hits, encodeTransferReg, flagAt, or_and_distrib, place_and_of_outside]; try decide
  · simp [encodeTransferReg, flagAt, bitsAt_or, bitsAt_place_same, bitsAt_place_disjoint]
  · simp [encodeTransferReg, rnOf, rdOf, rmOf, shiftOf, bitsAt_or, bitsAt_place_same, bitsAt_place_disjoint, bitOf_or,
      bitOf_flagAt_same, bitOf_flagAt_other, bitOf_place_disjoint, bitsAt_flagAt_disjoint]

theorem strbImmPre (c : Cond) (u w : Bool) (rn rd : RegNum) (imm12 : BitVec 12) : Statement (.strbImmPre c u w rn rd imm12) := by
  refine of_row 21 ⟨0x0F500000#32, 0x05400000#32, fun c w => .strbImmPre c (bitOf w 23) (bitOf w 21) (rnOf w) (rdOf w) (bitsAt w 0 12)⟩ c rfl rfl ?_ ?_ ?_
  · simp [ArmRow.hits, encodeTransferImm, flagAt, or_and_distrib, place_and_of_outside]; try decide
  · simp [encodeTransferImm, flagAt, bitsAt_or, bitsAt_place_same, bitsAt_place_disjoint]
  · simp [encodeTransferImm, rnOf, rdOf, bitsAt_or, bitsAt_place_same, bitsAt_place_disjoint, bitOf_or,
      bitOf_flagAt_same, bitOf_flagAt_other, bitOf_place_disjoint, bitsAt_flagAt_disjoint]

theorem strbImmPost (c : Cond) (u : Bool) (rn rd : RegNum) (imm12 : BitVec 12) : Statement (.strbImmPost c u rn rd imm12) := by
  refine of_row 22 ⟨0x0F700000#32, 0x04400000#32, fun c w => .strbImmPost c (bitOf w 23) (rnOf w) (rdOf w) (bitsAt w 0 12)⟩ c rfl rfl ?_ ?_ ?_
  · simp [ArmRow.hits, encodeTransferImm, flagAt, or_and_distrib, place_and_of_outside]; try decide
  · simp [encodeTransferImm, flagAt, bitsAt_or, bitsAt_place_same, bitsAt_place_disjoint]
  · simp [encodeTransferImm, rnOf, rdOf, bitsAt_or, bitsAt_place_same, bitsAt_place_disjoint, bitOf_or,
      bitOf_flagAt_same, bitOf_flagAt_other, bitOf_place_disjoint, bitsAt_flagAt_disjoint]

theorem strbRegPre (c : Cond) (u w : Bool) (rn rd : RegNum) (shiftImm : BitVec 5) (shift : ShiftType) (rm : RegNum) : Statement (.strbRegPre c u w rn rd shiftImm shift rm) := by
  refine of_row 23 ⟨0x0F500010#32, 0x07400000#32, fun c w => .strbRegPre c (bitOf w 23) (bitOf w 21) (rnOf w) (rdOf w) (bitsAt w 7 5) (shiftOf w) (rmOf w)⟩ c rfl rfl ?_ ?_ ?_
  · simp [ArmRow.hits, encodeTransferReg, flagAt, or_and_distrib, place_and_of_outside]; try decide
  · simp [encodeTransferReg, flagAt, bitsAt_or, bitsAt_place_same, bitsAt_place_disjoint]
  · simp [encodeTransferReg, rnOf, rdOf, rmOf, shiftOf, bitsAt_or, bitsAt_place_same, bitsAt_place_disjoint, bitOf_or,
      bitOf_flagAt_same, bitOf_flagAt_other, bitOf_place_disjoint, bitsAt_flagAt_disjoint]

theorem strbRegPost (c : Cond) (u : Bool) (rn rd : RegNum) (shiftImm : BitVec 5) (shift : ShiftType) (rm : RegNum) : Statement (.strbRegPost c u rn rd shiftImm shift rm) := by
  refine of_row 24 ⟨0x0F700010#32, 0x06400000#32, fun c w => .strbRegPost c (bitOf w 23) (rnOf w) (rdOf w) (bitsAt w 7 5) (shiftOf w) (rmOf w)⟩ c rfl rfl ?_ ?_ ?_
  · simp [ArmRow.hits, encodeTransferReg, flagAt, or_and_distrib, place_and_of_outside]; try decide
  · simp [encodeTransferReg, flagAt, bitsAt_or, bitsAt_place_same, bitsAt_place_disjoint]
  · simp [encodeTransferReg, rnOf, rdOf, rmOf, shiftOf, bitsAt_or, bitsAt_place_same, bitsAt_place_disjoint, bitOf_or,
      bitOf_flagAt_same, bitOf_flagAt_other, bitOf_place_disjoint, bitsAt_flagAt_disjoint]

theorem ldm (c : Cond) (p u s w : Bool) (rn : RegNum) (registerList : BitVec 16) : Statement (.ldm c p u s w rn registerList) := by
  refine of_row 25 ⟨0x0E100000#32, 0x08100000#32, fun c w => .ldm c (bitOf w 24) (bitOf w 23) (bitOf w 22) (bitOf w 21) (rnOf w) (bitsAt w 0 16)⟩ c rfl rfl ?_ ?_ ?_
  · simp [ArmRow.hits, encodeBlock, flagAt, or_and_distrib, place_and_of_outside]; try decide
  · simp [encodeBlock, flagAt, bitsAt_or, bitsAt_place_same, bitsAt_place_disjoint]
  · simp [encodeBlock, rnOf, bitsAt_or, bitsAt_place_same, bitsAt_place_disjoint, bitOf_or,
      bitOf_flagAt_same, bitOf_flagAt_other, bitOf_place_disjoint, bitsAt_flagAt_disjoint]

theorem stm (c : Cond) (p u s w : Bool) (rn : RegNum) (registerList : BitVec 16) : Statement (.stm c p u s w rn registerList) := by
  refine of_row 26 ⟨0x0E100000#32, 0x08000000#32, fun c w => .stm c (bitOf w 24) (bitOf w 23) (bitOf w 22) (bitOf w 21) (rnOf w) (bitsAt w 0 16)⟩ c rfl rfl ?_ ?_ ?_
  · simp [ArmRow.hits, encodeBlock, flagAt, or_and_distrib, place_and_of_outside]; try decide
  · simp [encodeBlock, flagAt, bitsAt_or, bitsAt_place_same, bitsAt_place_disjoint]
  · simp [encodeBlock, rnOf, bitsAt_or, bitsAt_place_same, bitsAt_place_disjoint, bitOf_or,
      bitOf_flagAt_same, bitOf_flagAt_other, bitOf_place_disjoint, bitsAt_flagAt_disjoint]

theorem swp (c : Cond) (rn rd rm : RegNum) : Statement (.swp c rn rd rm) := by
  refine of_row 27 ⟨0x0FF00FF0#32, 0x01000090#32, fun c w => .swp c (rnOf w) (rdOf w) (rmOf w)⟩ c rfl rfl ?_ ?_ ?_
  · simp [ArmRow.hits, encodeSwap, flagAt, or_and_distrib, place_and_of_outside]; try decide
  · simp [encodeSwap, flagAt, bitsAt_or, bitsAt_place_same, bitsAt_place_disjoint]
  · simp [encodeSwap, flagAt, rnOf, rdOf, rmOf, bitsAt_or, bitsAt_place_same, bitsAt_place_disjoint]

theorem swpb (c : Cond) (rn rd rm : RegNum) : Statement (.swpb c rn rd rm) := by
  refine of_row 28 ⟨0x0FF00FF0#32, 0x01400090#32, fun c w => .swpb c (rnOf w) (rdOf w) (rmOf w)⟩ c rfl rfl ?_ ?_ ?_
  · simp [ArmRow.hits, encodeSwap, flagAt, or_and_distrib, place_and_of_outside]; try decide
  · simp [encodeSwap, flagAt, bitsAt_or, bitsAt_place_same, bitsAt_place_disjoint]
  · simp [encodeSwap, flagAt, rnOf, rdOf, rmOf, bitsAt_or, bitsAt_place_same, bitsAt_place_disjoint]

theorem cdp (c : Cond) (cpOpc crn crd cpNum : BitVec 4) (cp : BitVec 3) (crm : BitVec 4) : Statement (.cdp c cpOpc crn crd cpNum cp crm) := by
  refine of_row 29 ⟨0x0F000010#32, 0x0E000000#32, fun c w => .cdp c (bitsAt w 20 4) (bitsAt w 16 4) (bitsAt w 12 4) (bitsAt w 8 4) (bitsAt w 5 3) (bitsAt w 0 4)⟩ c rfl rfl ?_ ?_ ?_
  · simp [ArmRow.hits, encodeCdp, flagAt, or_and_distrib, place_and_of_outside]; try decide
  · simp [encodeCdp, flagAt, bitsAt_or, bitsAt_place_same, bitsAt_place_disjoint]
  · simp [encodeCdp, flagAt, bitsAt_or, bitsAt_place_same, bitsAt_place_disjoint]

theorem mrc (c : Cond) (cpOpc : BitVec 3) (crn : BitVec 4) (rd : RegNum) (cpNum : BitVec 4) (cp : BitVec 3) (crm : BitVec 4) : Statement (.mrc c cpOpc crn rd cpNum cp crm) := by
  refine of_row 30 ⟨0x0F100010#32, 0x0E100010#32, fun c w => .mrc c (bitsAt w 21 3) (bitsAt w 16 4) (bitsAt w 12 4) (bitsAt w 8 4) (bitsAt w 5 3) (bitsAt w 0 4)⟩ c rfl rfl ?_ ?_ ?_
  · simp [ArmRow.hits, encodeCoprocReg, flagAt, or_and_distrib, place_and_of_outside]; try decide
  · simp [encodeCoprocReg, flagAt, bitsAt_or, bitsAt_place_same, bitsAt_place_disjoint]
  · simp [encodeCoprocReg, flagAt, bitsAt_or, bitsAt_place_same, bitsAt_place_disjoint]

theorem mcr (c : Cond) (cpOpc : BitVec 3) (crn : BitVec 4) (rd : RegNum) (cpNum : BitVec 4) (cp : BitVec 3) (crm : BitVec 4) : Statement (.mcr c cpOpc crn rd cpNum cp crm) := by
  refine of_row 31 ⟨0x0F100010#32, 0x0E000010#32, fun c w => .mcr c (bitsAt w 21 3) (bitsAt w 16 4) (bitsAt w 12 4) (bitsAt w 8 4) (bitsAt w 5 3) (bitsAt w 0 4)⟩ c rfl rfl ?_ ?_ ?_
  · simp [ArmRow.hits, encodeCoprocReg, flagAt, or_and_distrib, place_and_of_outside]; try decide
  · simp [encodeCoprocReg, flagAt, bitsAt_or, bitsAt_place_same, bitsAt_place_disjoint]
  · simp [encodeCoprocReg, flagAt, bitsAt_or, bitsAt_place_same, bitsAt_place_disjoint]

theorem ldc (c : Cond) (p u n w : Bool) (rn : RegNum) (crd cpNum : BitVec 4) (offset8 : BitVec 8) : Statement (.ldc c p u n w rn crd cpNum offset8) := by
  refine of_row 32 ⟨0x0E100000#32, 0x0C100000#32, fun c w => .ldc c (bitOf w 24) (bitOf w 23) (bitOf w 22) (bitOf w 21) (rnOf w) (bitsAt w 12 4) (bitsAt w 8 4) (bitsAt w 0 8)⟩ c rfl rfl ?_ ?_ ?_
  · simp [ArmRow.hits, encodeCoprocTransfer, flagAt, or_and_distrib, place_and_of_outside]; try decide
  · simp [encodeCoprocTransfer, flagAt, bitsAt_or, bitsAt_place_same, bitsAt_place_disjoint]
  · simp [encodeCoprocTransfer, rnOf, bitsAt_or, bitsAt_place_same, bitsAt_place_disjoint, bitOf_or,
      bitOf_flagAt_same, bitOf_flagAt_other, bitOf_place_disjoint, bitsAt_flagAt_disjoint]

theorem stc (c : Cond) (p u n w : Bool) (rn : RegNum) (crd cpNum : BitVec 4) (offset8 : BitVec 8) : Statement (.stc c p u n w rn crd cpNum offset8) := by
  refine of_row 33 ⟨0x0E100000#32, 0x0C000000#32, fun c w => .stc c (bitOf w 24) (bitOf w 23) (bitOf w 22) (bitOf w 21) (rnOf w) (bitsAt w 12 4) (bitsAt w 8 4) (bitsAt w 0 8)⟩ c rfl rfl ?_ ?_ ?_
  · simp [ArmRow.hits, encodeCoprocTransfer, flagAt, or_and_distrib, place_and_of_outside]; try decide
  · simp [encodeCoprocTransfer, flagAt, bitsAt_or, bitsAt_place_same, bitsAt_place_disjoint]
  · simp [encodeCoprocTransfer, rnOf, bitsAt_or, bitsAt_place_same, bitsAt_place_disjoint, bitOf_or,
      bitOf_flagAt_same, bitOf_flagAt_other, bitOf_place_disjoint, bitsAt_flagAt_disjoint]

theorem mrs (c : Cond) (r : Bool) (rd : RegNum) : Statement (.mrs c r rd) := by
  refine of_row 34 ⟨0x0FBF0FFF#32, 0x010F0000#32, fun c w => .mrs c (bitOf w 22) (rdOf w)⟩ c rfl rfl ?_ ?_ ?_
  · simp [ArmRow.hits, encodeMrs, flagAt, or_and_distrib, place_and_of_outside]; try decide
  · simp [encodeMrs, flagAt, bitsAt_or, bitsAt_place_same, bitsAt_place_disjoint]
  · simp [encodeMrs, rdOf, bitsAt_or, bitsAt_place_same, bitsAt_place_disjoint, bitOf_or,
      bitOf_flagAt_same, bitOf_place_disjoint, bitsAt_flagAt_disjoint]

theorem msrReg (c : Cond) (r : Bool) (fieldMask : BitVec 4) (rm : RegNum) : Statement (.msrReg c r fieldMask rm) := by
  refine of_row 35 ⟨0x0FB0FFF0#32, 0x0120F000#32, fun c w => .msrReg c (bitOf w 22) (bitsAt w 16 4) (rmOf w)⟩ c rfl rfl ?_ ?_ ?_
  · simp [ArmRow.hits, encodeMsrReg, flagAt, or_and_distrib, place_and_of_outside]; try decide
  · simp [encodeMsrReg, flagAt, bitsAt_or, bitsAt_place_same, bitsAt_place_disjoint]
  · simp [encodeMsrReg, rmOf, bitsAt_or, bitsAt_place_same, bitsAt_place_disjoint, bitOf_or,
      bitOf_flagAt_same, bitOf_place_disjoint, bitsAt_flagAt_disjoint]

theorem msrImm (c : Cond) (r : Bool) (fieldMask rot : BitVec 4) (imm8 : BitVec 8) : Statement (.msrImm c r fieldMask rot imm8) := by
  refine of_row 36 ⟨0x0FB0F000#32, 0x0320F000#32, fun c w => .msrImm c (bitOf w 22) (bitsAt w 16 4) (bitsAt w 8 4) (bitsAt w 0 8)⟩ c rfl rfl ?_ ?_ ?_
  · simp [ArmRow.hits, encodeMsrImm, flagAt, or_and_distrib, place_and_of_outside]; try decide
  · simp [encodeMsrImm, flagAt, bitsAt_or, bitsAt_place_same, bitsAt_place_disjoint]
  · simp [encodeMsrImm, bitsAt_or, bitsAt_place_same, bitsAt_place_disjoint, bitOf_or,
      bitOf_flagAt_same, bitOf_place_disjoint, bitsAt_flagAt_disjoint]

theorem movReg (c : Cond) (rnIgnored rd rm : RegNum) : Statement (.movReg c rnIgnored rd rm) := by
  refine of_row 37 ⟨0x0FF00FF0#32, 0x01A00000#32, fun c w => .movReg c (rnOf w) (rdOf w) (rmOf w)⟩ c rfl rfl ?_ ?_ ?_
  · simp [ArmRow.hits, encodeDataReg, opcodeMov, flagAt, or_and_distrib, place_and_of_outside]; try decide
  · simp [encodeDataReg, flagAt, bitsAt_or, bitsAt_place_same, bitsAt_place_disjoint]
  · simp [encodeDataReg, flagAt, rnOf, rdOf, rmOf, bitsAt_or, bitsAt_place_same, bitsAt_place_disjoint]

theorem movsReg (c : Cond) (rnIgnored rd rm : RegNum) : Statement (.movsReg c rnIgnored rd rm) := by
  refine of_row 38 ⟨0x0FF00FF0#32, 0x01B00000#32, fun c w => .movsReg c (rnOf w) (rdOf w) (rmOf w)⟩ c rfl rfl ?_ ?_ ?_
  · simp [ArmRow.hits, encodeDataReg, opcodeMov, flagAt, or_and_distrib, place_and_of_outside]; try decide
  · simp [encodeDataReg, flagAt, bitsAt_or, bitsAt_place_same, bitsAt_place_disjoint]
  · simp [encodeDataReg, flagAt, rnOf, rdOf, rmOf, bitsAt_or, bitsAt_place_same, bitsAt_place_disjoint]

theorem movImm (c : Cond) (rnIgnored rd : RegNum) (rot : BitVec 4) (imm8 : BitVec 8) : Statement (.movImm c rnIgnored rd rot imm8) := by
  refine of_row 39 ⟨0x0FF00000#32, 0x03A00000#32, fun c w => .movImm c (rnOf w) (rdOf w) (bitsAt w 8 4) (bitsAt w 0 8)⟩ c rfl rfl ?_ ?_ ?_
  · simp [ArmRow.hits, encodeDataImm, opcodeMov, flagAt, or_and_distrib, place_and_of_outside]; try decide
  · simp [encodeDataImm, flagAt, bitsAt_or, bitsAt_place_same, bitsAt_place_disjoint]
  · simp [encodeDataImm, flagAt, rnOf, rdOf, bitsAt_or, bitsAt_place_same, bitsAt_place_disjoint]

theorem movsImm (c : Cond) (rnIgnored rd : RegNum) (rot : BitVec 4) (imm8 : BitVec 8) : Statement (.movsImm c rnIgnored rd rot imm8) := by
  refine of_row 40 ⟨0x0FF00000#32, 0x03B00000#32, fun c w => .movsImm c (rnOf w) (rdOf w) (bitsAt w 8 4) (bitsAt w 0 8)⟩ c rfl rfl ?_ ?_ ?_
  · simp [ArmRow.hits, encodeDataImm, opcodeMov, flagAt, or_and_distrib, place_and_of_outside]; try decide
  · simp [encodeDataImm, flagAt, bitsAt_or, bitsAt_place_same, bitsAt_place_disjoint]
  · simp [encodeDataImm, flagAt, rnOf, rdOf, bitsAt_or, bitsAt_place_same, bitsAt_place_disjoint]

theorem subReg (c : Cond) (rn rd rm : RegNum) : Statement (.subReg c rn rd rm) := by
  refine of_row 41 ⟨0x0FF00FF0#32, 0x00400000#32, fun c w => .subReg c (rnOf w) (rdOf w) (rmOf w)⟩ c rfl rfl ?_ ?_ ?_
  · simp [ArmRow.hits, encodeDataReg, opcodeSub, flagAt, or_and_distrib, place_and_of_outside]; try decide
  · simp [encodeDataReg, flagAt, bitsAt_or, bitsAt_place_same, bitsAt_place_disjoint]
  · simp [encodeDataReg, flagAt, rnOf, rdOf, rmOf, bitsAt_or, bitsAt_place_same, bitsAt_place_disjoint]

theorem subsReg (c : Cond) (rn rd rm : RegNum) : Statement (.subsReg c rn rd rm) := by
  refine of_row 42 ⟨0x0FF00FF0#32, 0x00500000#32, fun c w => .subsReg c (rnOf w) (rdOf w) (rmOf w)⟩ c rfl rfl ?_ ?_ ?_
  · simp [ArmRow.hits, encodeDataReg, opcodeSub, flagAt, or_and_distrib, place_and_of_outside]; try decide
  · simp [encodeDataReg, flagAt, bitsAt_or, bitsAt_place_same, bitsAt_place_disjoint]
  · simp [encodeDataReg, flagAt, rnOf, rdOf, rmOf, bitsAt_or, bitsAt_place_same, bitsAt_place_disjoint]

theorem subImm (c : Cond) (rn rd : RegNum) (rot : BitVec 4) (imm8 : BitVec 8) : Statement (.subImm c rn rd rot imm8) := by
  refine of_row 43 ⟨0x0FF00000#32, 0x02400000#32, fun c w => .subImm c (rnOf w) (rdOf w) (bitsAt w 8 4) (bitsAt w 0 8)⟩ c rfl rfl ?_ ?_ ?_
  · simp [ArmRow.hits, encodeDataImm, opcodeSub, flagAt, or_and_distrib, place_and_of_outside]; try decide
  · simp [encodeDataImm, flagAt, bitsAt_or, bitsAt_place_same, bitsAt_place_disjoint]
  · simp [encodeDataImm, flagAt, rnOf, rdOf, bitsAt_or, bitsAt_place_same, bitsAt_place_disjoint]

theorem subsImm (c : Cond) (rn rd : RegNum) (rot : BitVec 4) (imm8 : BitVec 8) : Statement (.subsImm c rn rd rot imm8) := by
  refine of_row 44 ⟨0x0FF00000#32, 0x02500000#32, fun c w => .subsImm c (rnOf w) (rdOf w) (bitsAt w 8 4) (bitsAt w 0 8)⟩ c rfl rfl ?_ ?_ ?_
  · simp [ArmRow.hits, encodeDataImm, opcodeSub, flagAt, or_and_distrib, place_and_of_outside]; try decide
  · simp [encodeDataImm, flagAt, bitsAt_or, bitsAt_place_same, bitsAt_place_disjoint]
  · simp [encodeDataImm, flagAt, rnOf, rdOf, bitsAt_or, bitsAt_place_same, bitsAt_place_disjoint]

theorem thumbSwi (imm8 : BitVec 8) : Statement (.thumbSwi imm8) := by
  have h : (0b11011111#8 ++ imm8 : BitVec 16) &&& 0xFF00#16 = 0xDF00#16 := (append_and_top8 _ 0b11011111#8 imm8).mpr rfl
  show decodeThumb _ = _
  unfold decodeThumb
  rw [if_pos h, show bitsAt (0b11011111#8 ++ imm8 : BitVec 16) 0 8 = imm8 from BitVec.extractLsb'_append_eq_right]

theorem thumbBlFirst (offsetHi : BitVec 11) : Statement (.thumbBlFirst offsetHi) := by
  have h : (0b11110#5 ++ offsetHi : BitVec 16) &&& 0xF800#16 = 0xF000#16 := (append_and_top5 _ 0b11110#5 offsetHi).mpr rfl
  show decodeThumb _ = _
  unfold decodeThumb
  rw [if_neg (not_swi_of_top5 h (by decide)), if_pos h,
    show bitsAt (0b11110#5 ++ offsetHi : BitVec 16) 0 11 = offsetHi from BitVec.extractLsb'_append_eq_right]

theorem thumbBlSecond (offsetLo : BitVec 11) : Statement (.thumbBlSecond offsetLo) := by
  have h : (0b11111#5 ++ offsetLo : BitVec 16) &&& 0xF800#16 = 0xF800#16 := (append_and_top5 _ 0b11111#5 offsetLo).mpr rfl
  show decodeThumb _ = _
  unfold decodeThumb
  rw [if_neg (not_swi_of_top5 h (by decide)), if_neg (by rw [h]; decide), if_pos h,
    show bitsAt (0b11111#5 ++ offsetLo : BitVec 16) 0 11 = offsetLo from BitVec.extractLsb'_append_eq_right]

theorem thumbMovPcR14 : Statement .thumbMovPcR14 := by
  show decodeThumb _ = _; decide

end Sys2Proof.Laws.Encoding
end

