-- ==== Sys2Proof/Laws/Step.lean ====
section
/-! SUPPORT. The instruction cycle (60_exceptions.md R178): what a step can be, what an outcome of `ExecOther` can do, and
that no instruction ends in a fault. -/

namespace Sys2Proof.Machine

/-! ## The cycle -/

/-- What a completed step was: Reset, FIQ, IRQ, or an instruction. -/
theorem step_next {s t : State} (h : step s = .next t) :
    s.halted = false ∧
    ((s.resetNow = true ∧ t = takeReset s.passBoundary) ∨
      (s.resetNow = false ∧ s.fiqNow = true ∧ t = enterException .fiq (s.pc + 4#32) s.passBoundary) ∨
      (s.resetNow = false ∧ s.fiqNow = false ∧ s.irqNow = true ∧
        t = enterException .irq (s.pc + 4#32) s.passBoundary) ∨
      (s.resetNow = false ∧ s.fiqNow = false ∧ s.irqNow = false ∧ fetchAndRun s.passBoundary = .next t)) := by
  unfold step cycle at h
  split at h
  · cases h
  rename_i hh
  refine ⟨by simpa using hh, ?_⟩
  split at h
  · rename_i hr; exact .inl ⟨hr, (next_inj h).symm⟩
  rename_i hr
  split at h
  · rename_i hf; exact .inr (.inl ⟨by simpa using hr, hf, (next_inj h).symm⟩)
  rename_i hf
  split at h
  · rename_i hi; exact .inr (.inr (.inl ⟨by simpa using hr, by simpa using hf, hi, (next_inj h).symm⟩))
  rename_i hi
  exact .inr (.inr (.inr ⟨by simpa using hr, by simpa using hf, by simpa using hi, h⟩))

/-- With nothing taken at the boundary a step is the instruction at the pc. -/
theorem step_of_quiet {s : State} (hh : s.halted = false) (hr : s.resetNow = false) (hf : s.fiqNow = false)
    (hi : s.irqNow = false) : step s = fetchAndRun s.passBoundary := by
  unfold step cycle
  rw [if_neg (by simp [hh]), if_neg (by simp [hr]), if_neg (by simp [hf]), if_neg (by simp [hi])]

/-- What a completed instruction was: one whose fetch was aborted, or what the decoder found. -/
theorem fetchAndRun_next {s t : State} (h : fetchAndRun s = .next t) :
    AlignedTo (fetchWidth s.thumb).bytes s.pc ∧
    ((s.abortNext = true ∧ runAborted s.consulted = .next t) ∨
      (s.abortNext = false ∧
        runDecoded (decode (fetchedCode s.thumb (s.memValue (fetchWidth s.thumb) s.pc))) s.consulted = .next t)) := by
  unfold fetchAndRun at h
  split at h
  · cases h
  · rename_i u hu
    obtain ⟨h1, h2, rfl⟩ := fetch_abort hu
    exact ⟨h1, .inl ⟨h2, h⟩⟩
  · rename_i w u hu
    obtain ⟨h1, h2, rfl, rfl⟩ := fetch_ok hu
    exact ⟨h1, .inr ⟨h2, h⟩⟩

/-! ## ExecOther -/

/-- How an instruction's accesses ended, with everything but memory, devices and draws as before them. -/
def OtherRun.Keeps (s : State) : OtherRun → Prop
  | .done _ _ t | .aborted _ t => Accessed s t
  | .refused _ => True

theorem OtherRun.Keeps.trans {s t : State} (h : Accessed s t) {o : OtherRun} (ho : o.Keeps t) : o.Keeps s := by
  cases o with
  | done ws l u => exact h.trans ho
  | aborted ws u => exact h.trans ho
  | refused r => trivial

theorem OtherRun.Keeps.cons {s : State} {ws : RegWrites} {o : OtherRun} (ho : o.Keeps s) : (o.cons ws).Keeps s := by
  cases o <;> exact ho

theorem otherScramble_keeps (c : OtherArgs) (l : List OtherAccess) (s : State) : (otherScramble c l s).Keeps s := by
  induction l generalizing s with
  | nil => exact .refl _
  | cons a rest ih =>
    simp only [otherScramble]
    split
    · exact ih s
    split
    · exact ih s
    split
    · trivial
    split
    · trivial
    · rename_i ha _
      exact (ih _).trans (accessed_scramble s (by simpa using ha))

/-- The accesses of `ExecOther` are `MemRead`s and `MemWrite`s, so they keep what those keep (R141 item 5). -/
theorem otherAccesses_keeps (st : State) (w : Word) (l : List OtherAccess) (loaded : List Word) (s : State) :
    (otherAccesses st w l loaded s).Keeps s := by
  induction l generalizing loaded s with
  | nil => exact .refl _
  | cons a rest ih =>
    simp only [otherAccesses]
    split
    · split
      · cases hr : memRead a.width (a.addr.eval ⟨st, w, loaded⟩) s with
        | refused r => trivial
        | abort t => exact accessed_memRead_abort hr
        | ok v t => exact ((ih _ t).trans (accessed_memRead_ok hr)).cons
      · rename_i v _
        cases hr : memWrite a.width (a.addr.eval ⟨st, w, loaded⟩) (v.eval ⟨st, w, loaded⟩) s with
        | refused r => trivial
        | abort t => exact (otherScramble_keeps _ rest t).trans (accessed_memWrite_abort hr)
        | ok u t => exact (ih _ t).trans (accessed_memWrite_ok hr)
    · exact ih _ s

/-- The value a register holds after writes: the last one to it. -/
theorem State.writePhys_get (s : State) (l : RegWrites) (q : PhysReg) :
    (s.writePhys l).regs.get q = l.foldl (fun v x => if x.1 = q then x.2 else v) (s.regs.get q) := by
  have : ∀ (l : RegWrites) (r : RegFile), (l.foldl (fun r x => r.set x.1 x.2) r).get q =
      l.foldl (fun v x => if x.1 = q then x.2 else v) (r.get q) := by
    intro l
    induction l with
    | nil => intro r; rfl
    | cons x l ih =>
      intro r
      simp only [List.foldl_cons, ih, RegFile.get_set, eq_comm]
  exact this l s.regs

/-- `Next(state')` kept the contract (R141 items 1 to 3). -/
theorem finishOther_next {ws : RegWrites} {w cpsr : Word} {spsr : Option Word} {pc : Word} {st t u : State}
    (h : finishOther ws w cpsr spsr pc st t = .next u) :
    writesAllowed st.bank ws = true ∧ statusAllowed st w cpsr spsr pc = true ∧ AlignedTo u.instrSize pc ∧
      u = { (t.writePhys ws).writeSpsr? spsr with cpsr := cpsr, pc := pc } := by
  unfold finishOther at h
  split at h
  · rename_i ha
    obtain ⟨hal, rfl⟩ := setPc_next.mp h
    simp only [Bool.and_eq_true] at ha
    exact ⟨ha.1, ha.2, hal, rfl⟩
  · cases h

/-- `DataAbort(state')` is the Data Abort from the state with the registers written. -/
theorem finishAborted_next {ws : RegWrites} {st t u : State} (h : finishAborted ws st t = .next u) :
    writesAllowed st.bank ws = true ∧ raise .dabt (t.writePhys ws) = .next u := by
  unfold finishAborted at h
  split at h
  · rename_i ha; exact ⟨ha, h⟩
  · cases h

/-- What `ExecOther` can do (45_other_instructions.md R140, R141): enter the Data Abort or the Undefined exception,
or complete within its contract. -/
theorem execOther_next {w : Word} {s t : State} (h : execOther w s = .next t) :
    t.platform = s.platform ∧ (Memory.wf s.mem = true → Memory.wf t.mem = true) ∧
    ((∃ e, e ≠ .reset ∧ t.pc = e.vector ∧ t.cpsr = entryPsr e s.cpsr ∧ t.spsrs = s.spsrs.set e.mode s.cpsr) ∨
      (legalMode t.cpsr = true ∧ AlignedTo t.instrSize t.pc ∧
        (userMode s.cpsr = true → t.cpsr &&& 0xDF#32 = s.cpsr &&& 0xDF#32))) := by
  have entered : ∀ {e : Exc} {u : State}, raise e u = .next t → e ≠ .reset → u.cpsr = s.cpsr → u.spsrs = s.spsrs →
      u.platform = s.platform → (Memory.wf s.mem = true → Memory.wf u.mem = true) →
      t.platform = s.platform ∧ (Memory.wf s.mem = true → Memory.wf t.mem = true) ∧
      ∃ e, e ≠ .reset ∧ t.pc = e.vector ∧ t.cpsr = entryPsr e s.cpsr ∧ t.spsrs = s.spsrs.set e.mode s.cpsr := by
    intro e u hr he hc hs hp hm
    obtain ⟨k, hk⟩ : ∃ k, e.offset u.thumb = some k := by cases e <;> simp_all [Exc.offset]
    have ht := next_inj hr
    rw [takeException_eq hk] at ht
    subst ht
    exact ⟨by simpa using hp, by simpa using hm, e, he, rfl, by simp [hc], by simp [hc, hs]⟩
  unfold execOther at h
  split at h
  · rename_i r hr
    cases ho : r.outcome with
    | refuse reason => rw [ho] at h; cases h
    | undefined =>
      rw [ho] at h
      obtain ⟨h1, h2, h3⟩ := entered h (by simp) rfl rfl rfl id
      exact ⟨h1, h2, .inl h3⟩
    | run e =>
      rw [ho] at h
      simp only [applyOther, runEffect] at h
      have hk := otherAccesses_keeps s w e.accesses [] s
      split at h
      · cases h
      · rename_i ws u hu
        rw [hu] at hk
        obtain ⟨h1, h2, h3⟩ := entered (finishAborted_next h).2 (by simp) (by simpa using hk.cpsr) (by simpa using hk.spsrs)
          (by simpa using hk.platform) (by simpa using hk.mem)
        exact ⟨h1, h2, .inl h3⟩
      · rename_i ws loaded u hu
        rw [hu] at hk
        obtain ⟨-, hs, hal, rfl⟩ := finishOther_next h
        simp only [statusAllowed, Bool.and_eq_true] at hs
        obtain ⟨⟨⟨-, hu'⟩, hl⟩, -⟩ := hs
        refine ⟨by simpa using hk.platform, by simpa using hk.mem, .inr ⟨hl, hal, fun huser => ?_⟩⟩
        simp only [huser, Bool.not_true, Bool.false_or, Bool.and_eq_true, beq_iff_eq] at hu'
        exact hu'.1
  · cases h

/-! ## No instruction ends in a fault -/

theorem setPc_ne_fault (a : Word) (s : State) (f : Fault) : setPc a s ≠ .fault f := by
  unfold setPc; split <;> simp

theorem exceptionReturn_ne_fault (a : Word) (s : State) (f : Fault) : exceptionReturn a s ≠ .fault f := by
  unfold exceptionReturn
  split
  · simp
  split
  · exact setPc_ne_fault _ _ f
  · simp

theorem whenPassed_ne_fault {c : Cond} {s : State} {run : Result} {f : Fault} (h : run ≠ .fault f) :
    whenPassed c s run ≠ .fault f := by
  unfold whenPassed; split
  · exact h
  · simp

theorem raise_ne_fault (e : Exc) (s : State) (f : Fault) : raise e s ≠ .fault f := by simp [raise]

theorem finishData_ne_fault (b : Bool) (rd : RegNum) (r p : Word) (s : State) (f : Fault) :
    finishData b rd r p s ≠ .fault f := by
  unfold finishData
  split
  · split
    · exact exceptionReturn_ne_fault _ _ f
    · exact setPc_ne_fault _ _ f
  · simp

theorem loadOp_ne_fault (w : Width) (a : Addressing) (rd : RegNum) (s : State) (f : Fault) :
    loadOp w a rd s ≠ .fault f := by
  unfold loadOp
  split
  · simp
  · exact raise_ne_fault _ _ f
  · dsimp only
    split
    · exact setPc_ne_fault _ _ f
    · simp

theorem storeOp_ne_fault (w : Width) (a : Addressing) (rd : RegNum) (s : State) (f : Fault) :
    storeOp w a rd s ≠ .fault f := by
  unfold storeOp
  split
  · simp
  · exact raise_ne_fault _ _ f
  · simp

theorem ldrOp_ne_fault (c : Cond) (a : Addressing) (rd : RegNum) (s : State) (f : Fault) :
    ldrOp c a rd s ≠ .fault f :=
  whenPassed_ne_fault (by split <;> [simp; exact loadOp_ne_fault _ _ _ _ f])

theorem ldrbOp_ne_fault (c : Cond) (a : Addressing) (rd : RegNum) (s : State) (f : Fault) :
    ldrbOp c a rd s ≠ .fault f :=
  whenPassed_ne_fault (by
    split
    · simp
    split
    · simp
    · exact loadOp_ne_fault _ _ _ _ f)

theorem strOp_ne_fault (w : Width) (c : Cond) (a : Addressing) (rd : RegNum) (s : State) (f : Fault) :
    strOp w c a rd s ≠ .fault f :=
  whenPassed_ne_fault (by
    split
    · simp
    split
    · simp
    · exact storeOp_ne_fault _ _ _ _ f)

theorem swpOp_ne_fault (w : Width) (c : Cond) (rn rd rm : RegNum) (s : State) (f : Fault) :
    swpOp w c rn rd rm s ≠ .fault f :=
  whenPassed_ne_fault (by
    split
    · simp
    unfold swapOp
    split
    · simp
    · exact raise_ne_fault _ _ f
    split
    · simp
    · exact raise_ne_fault _ _ f
    · simp)

theorem loadMultiple_ne_fault (p u b w : Bool) (rn : RegNum) (list : BitVec 16) (s : State) (f : Fault) :
    loadMultiple p u b w rn list s ≠ .fault f := by
  unfold loadMultiple
  dsimp only
  split
  · simp
  · exact raise_ne_fault _ _ f
  split
  · split
    · exact exceptionReturn_ne_fault _ _ f
    · exact setPc_ne_fault _ _ f
  · simp

theorem storeMultiple_ne_fault (p u b w : Bool) (rn : RegNum) (list : BitVec 16) (s : State) (f : Fault) :
    storeMultiple p u b w rn list s ≠ .fault f := by
  unfold storeMultiple
  dsimp only
  split
  · simp
  · exact raise_ne_fault _ _ f
  · simp

theorem mrsOp_ne_fault (r : Bool) (rd : RegNum) (s : State) (f : Fault) : mrsOp r rd s ≠ .fault f := by
  unfold mrsOp
  repeat' split
  all_goals simp

theorem msrOp_ne_fault (r : Bool) (m : BitVec 4) (v : Word) (s : State) (f : Fault) : msrOp r m v s ≠ .fault f := by
  unfold msrOp msrSpsr msrCpsr
  dsimp only
  repeat' split
  all_goals simp

theorem coprocOp_ne_fault (c : Cond) (w : Word) (s : State) (f : Fault) : coprocOp c w s ≠ .fault f :=
  whenPassed_ne_fault (by split <;> [simp; exact raise_ne_fault _ _ f])

/-- No instruction ends in a fault. -/
theorem exec_ne_fault (i : Instr) (s : State) (f : Fault) : exec i s ≠ .fault f := by
  cases i <;> simp only [exec]
  case b => exact whenPassed_ne_fault (setPc_ne_fault _ _ f)
  case bl => exact whenPassed_ne_fault (setPc_ne_fault _ _ f)
  case swi => exact whenPassed_ne_fault (raise_ne_fault _ _ f)
  case udef => exact whenPassed_ne_fault (raise_ne_fault _ _ f)
  case ldm =>
    refine whenPassed_ne_fault ?_
    split
    · simp
    · exact loadMultiple_ne_fault _ _ _ _ _ _ _ f
  case stm =>
    refine whenPassed_ne_fault ?_
    split
    · simp
    · exact storeMultiple_ne_fault _ _ _ _ _ _ _ f
  case mrs => exact whenPassed_ne_fault (mrsOp_ne_fault _ _ _ f)
  case msrReg =>
    refine whenPassed_ne_fault ?_
    split
    · simp
    · exact msrOp_ne_fault _ _ _ _ f
  case msrImm => exact whenPassed_ne_fault (msrOp_ne_fault _ _ _ _ f)
  case thumbSwi => exact raise_ne_fault _ _ f
  case thumbBlFirst => simp [execThumbBlFirst]
  case thumbBlSecond => exact setPc_ne_fault _ _ f
  case thumbMovPcR14 => exact setPc_ne_fault _ _ f
  all_goals first
    | exact whenPassed_ne_fault (finishData_ne_fault _ _ _ _ _ f)
    | exact ldrOp_ne_fault _ _ _ _ f
    | exact ldrbOp_ne_fault _ _ _ _ f
    | exact strOp_ne_fault _ _ _ _ _ f
    | exact swpOp_ne_fault _ _ _ _ _ _ f
    | exact coprocOp_ne_fault _ _ _ f

theorem execOther_ne_fault (w : Word) (s : State) (f : Fault) : execOther w s ≠ .fault f := by
  unfold execOther
  split
  · unfold applyOther
    split
    · simp only [runEffect]
      split
      · simp
      · unfold finishAborted; split <;> [exact raise_ne_fault _ _ f; simp]
      · unfold finishOther; split <;> [exact setPc_ne_fault _ _ f; simp]
    · exact raise_ne_fault _ _ f
    · simp
  · simp

theorem fetchAndRun_ne_fault (s : State) (f : Fault) : fetchAndRun s ≠ .fault f := by
  unfold fetchAndRun
  split
  · simp
  · unfold runAborted
    split
    · exact raise_ne_fault _ _ f
    split
    · exact raise_ne_fault _ _ f
    · simp
  · unfold runDecoded
    split
    · exact exec_ne_fault _ _ f
    · exact whenPassed_ne_fault (execOther_ne_fault _ _ f)
    · simp

end Sys2Proof.Machine
end

