-- ==== Sys2Proof/Tests/Slice0.lean ====
section
/-! SUPPORT. The model's own tests: the smoke tests of WellFormed, one decoded word per constructor, single steps with
the values of 95_test_vectors.md or worked out by hand from the rules, and for every statement with hypotheses a
concrete case that meets them. -/

namespace Sys2Proof.Tests

open Sys2Proof Sys2Proof.Machine

/-! ## WellFormed: one ill-formed term for each check -/

theorem test_wf_movReg : (Instr.movReg .al 0#4 15#4 14#4).wellFormed = false := by decide
theorem test_wf_movsReg : (Instr.movsReg .al 0#4 15#4 14#4).wellFormed = false := by decide
theorem test_wf_subsImm4 : (Instr.subsImm .al 14#4 15#4 0#4 4#8).wellFormed = false := by decide
theorem test_wf_subsImm8 : (Instr.subsImm .al 14#4 15#4 0#4 8#8).wellFormed = false := by decide
theorem test_wf_ldrImmPre : (Instr.ldrImmPre .al false false 14#4 3#4 8#12).wellFormed = false := by decide
/-- Next to each of them the general spelling is the only one. -/
theorem test_wf_neighbours :
    [Instr.movReg .al 1#4 15#4 14#4, .movsReg .al 0#4 15#4 13#4, .subsImm .al 14#4 15#4 0#4 12#8,
      .ldrImmPre .al true false 14#4 3#4 8#12].all Instr.wellFormed = true := by decide

/-! ## Decoding: a word for every constructor, put together from the fields of opcode_table.json -/

theorem test_decode_b : decode (.arm 0x0A800001#32) = .instr (.b .eq 0x800001#24) := by decide
theorem test_decode_bl : decode (.arm 0x1B800001#32) = .instr (.bl .ne 0x800001#24) := by decide
theorem test_decode_swi : decode (.arm 0x2F123456#32) = .instr (.swi .cs 0x123456#24) := by decide
theorem test_decode_udef : decode (.arm 0x37579BD9#32) = .instr (.udef .cc 0xABCDE#20 0x9#4) := by decide
theorem test_decode_ldrImmPre : decode (.arm 0x45196ABC#32) =
    .instr (.ldrImmPre .mi false false 0x9#4 0x6#4 0xABC#12) := by decide
theorem test_decode_ldrImmPost : decode (.arm 0x54996ABC#32) =
    .instr (.ldrImmPost .pl true 0x9#4 0x6#4 0xABC#12) := by decide
theorem test_decode_ldrRegPre : decode (.arm 0x673969C3#32) =
    .instr (.ldrRegPre .vs false true 0x9#4 0x6#4 0x13#5 .asr 0x3#4) := by decide
theorem test_decode_ldrRegPost : decode (.arm 0x769969E3#32) =
    .instr (.ldrRegPost .vc true 0x9#4 0x6#4 0x13#5 .ror 0x3#4) := by decide
theorem test_decode_ldrbImmPre : decode (.arm 0x85596ABC#32) =
    .instr (.ldrbImmPre .hi false false 0x9#4 0x6#4 0xABC#12) := by decide
theorem test_decode_ldrbImmPost : decode (.arm 0x94D96ABC#32) =
    .instr (.ldrbImmPost .ls true 0x9#4 0x6#4 0xABC#12) := by decide
theorem test_decode_ldrbRegPre : decode (.arm 0xA77969C3#32) =
    .instr (.ldrbRegPre .ge false true 0x9#4 0x6#4 0x13#5 .asr 0x3#4) := by decide
theorem test_decode_ldrbRegPost : decode (.arm 0xB6D969E3#32) =
    .instr (.ldrbRegPost .lt true 0x9#4 0x6#4 0x13#5 .ror 0x3#4) := by decide
theorem test_decode_strImmPre : decode (.arm 0xC5096ABC#32) =
    .instr (.strImmPre .gt false false 0x9#4 0x6#4 0xABC#12) := by decide
theorem test_decode_strImmPost : decode (.arm 0xD4896ABC#32) =
    .instr (.strImmPost .le true 0x9#4 0x6#4 0xABC#12) := by decide
theorem test_decode_strRegPre : decode (.arm 0xE72969C3#32) =
    .instr (.strRegPre .al false true 0x9#4 0x6#4 0x13#5 .asr 0x3#4) := by decide
theorem test_decode_strRegPost : decode (.arm 0x068969E3#32) =
    .instr (.strRegPost .eq true 0x9#4 0x6#4 0x13#5 .ror 0x3#4) := by decide
theorem test_decode_strbImmPre : decode (.arm 0x15496ABC#32) =
    .instr (.strbImmPre .ne false false 0x9#4 0x6#4 0xABC#12) := by decide
theorem test_decode_strbImmPost : decode (.arm 0x24C96ABC#32) =
    .instr (.strbImmPost .cs true 0x9#4 0x6#4 0xABC#12) := by decide
theorem test_decode_strbRegPre : decode (.arm 0x376969C3#32) =
    .instr (.strbRegPre .cc false true 0x9#4 0x6#4 0x13#5 .asr 0x3#4) := by decide
theorem test_decode_strbRegPost : decode (.arm 0x46C969E3#32) =
    .instr (.strbRegPost .mi true 0x9#4 0x6#4 0x13#5 .ror 0x3#4) := by decide
theorem test_decode_ldm : decode (.arm 0x58598421#32) =
    .instr (.ldm .pl false false true false 0x9#4 0x8421#16) := by decide
theorem test_decode_stm : decode (.arm 0x69498421#32) =
    .instr (.stm .vs true false true false 0x9#4 0x8421#16) := by decide
theorem test_decode_swp : decode (.arm 0x71096093#32) = .instr (.swp .vc 0x9#4 0x6#4 0x3#4) := by decide
theorem test_decode_swpb : decode (.arm 0x81496093#32) = .instr (.swpb .hi 0x9#4 0x6#4 0x3#4) := by decide
theorem test_decode_cdp : decode (.arm 0x9E5ACEA9#32) =
    .instr (.cdp .ls 0x5#4 0xA#4 0xC#4 0xE#4 0x5#3 0x9#4) := by decide
theorem test_decode_mrc : decode (.arm 0xAEBA6EB9#32) =
    .instr (.mrc .ge 0x5#3 0xA#4 0x6#4 0xE#4 0x5#3 0x9#4) := by decide
theorem test_decode_mcr : decode (.arm 0xBEAA6EB9#32) =
    .instr (.mcr .lt 0x5#3 0xA#4 0x6#4 0xE#4 0x5#3 0x9#4) := by decide
theorem test_decode_ldc : decode (.arm 0xCDB9CEA5#32) =
    .instr (.ldc .gt true true false true 0x9#4 0xC#4 0xE#4 0xA5#8) := by decide
theorem test_decode_stc : decode (.arm 0xDC69CEA5#32) =
    .instr (.stc .le false false true true 0x9#4 0xC#4 0xE#4 0xA5#8) := by decide
theorem test_decode_mrs : decode (.arm 0xE14F6000#32) = .instr (.mrs .al true 0x6#4) := by decide
theorem test_decode_msrReg : decode (.arm 0x0129F003#32) = .instr (.msrReg .eq false 0x9#4 0x3#4) := by decide
theorem test_decode_msrImm : decode (.arm 0x1369F6D3#32) = .instr (.msrImm .ne true 0x9#4 0x6#4 0xD3#8) := by decide
theorem test_decode_movReg : decode (.arm 0x21A56003#32) = .instr (.movReg .cs 0x5#4 0x6#4 0x3#4) := by decide
theorem test_decode_movsReg : decode (.arm 0x31B56003#32) = .instr (.movsReg .cc 0x5#4 0x6#4 0x3#4) := by decide
theorem test_decode_movImm : decode (.arm 0x43A566D3#32) = .instr (.movImm .mi 0x5#4 0x6#4 0x6#4 0xD3#8) := by decide
theorem test_decode_movsImm : decode (.arm 0x53B566D3#32) = .instr (.movsImm .pl 0x5#4 0x6#4 0x6#4 0xD3#8) := by decide
theorem test_decode_subReg : decode (.arm 0x60496003#32) = .instr (.subReg .vs 0x9#4 0x6#4 0x3#4) := by decide
theorem test_decode_subsReg : decode (.arm 0x70596003#32) = .instr (.subsReg .vc 0x9#4 0x6#4 0x3#4) := by decide
theorem test_decode_subImm : decode (.arm 0x824966D3#32) = .instr (.subImm .hi 0x9#4 0x6#4 0x6#4 0xD3#8) := by decide
theorem test_decode_subsImm : decode (.arm 0x925966D3#32) = .instr (.subsImm .ls 0x9#4 0x6#4 0x6#4 0xD3#8) := by decide
theorem test_decode_movPcR14 : decode (.arm 0xA1A0F00E#32) = .instr (.movPcR14 .ge) := by decide
theorem test_decode_movsPcR14 : decode (.arm 0xB1B0F00E#32) = .instr (.movsPcR14 .lt) := by decide
theorem test_decode_subsPcR14Imm4 : decode (.arm 0xC25EF004#32) = .instr (.subsPcR14Imm4 .gt) := by decide
theorem test_decode_subsPcR14Imm8 : decode (.arm 0xD25EF008#32) = .instr (.subsPcR14Imm8 .le) := by decide
theorem test_decode_ldrRdR14Minus8 : decode (.arm 0xE51E6008#32) = .instr (.ldrRdR14Minus8 .al 0x6#4) := by decide
theorem test_decode_thumbSwi : decode (.thumb 0xDFD3#16) = .instr (.thumbSwi 0xD3#8) := by decide
theorem test_decode_thumbBlFirst : decode (.thumb 0xF455#16) = .instr (.thumbBlFirst 0x455#11) := by decide
theorem test_decode_thumbBlSecond : decode (.thumb 0xFBAA#16) = .instr (.thumbBlSecond 0x3AA#11) := by decide
theorem test_decode_thumbMovPcR14 : decode (.thumb 0x46F7#16) = .instr .thumbMovPcR14 := by decide

/-- Condition 1111 is refused by name (R73), and a word outside the table is left to `ExecOther` (R86): `ADDEQ r0, r0, #1`
and the Thumb `ADD r0, #1`. -/
theorem test_decode_refusals : decode (.arm 0xF7F000F0#32) = .refused .condNv ∧ decode (.arm 0x02800001#32) =
    .other .eq 0x02800001#32 ∧ decode (.thumb 0x3001#16) = .other .al 0x3001#32 := by decide
theorem test_decode_bytes :
    decodeBytes false true [0x11#8, 0xDF#8, 0xAA#8] = (.instr (.thumbSwi 0x11#8), [0xAA#8]) ∧
    decodeBytes true false [0xEF#8, 0x00#8, 0x00#8, 0x11#8] = (.instr (.swi .al 0x11#24), []) ∧
    decodeBytes false false [0xEF#8] = (.refused .tooShort, [0xEF#8]) := by decide
theorem test_decodeTableWord : decodeTableWord 32 0x0A000000 = some (.b .eq 0#24) ∧
    decodeTableWord 16 0xDF00 = some (.thumbSwi 0#8) := by decide

/-! ## Small machines -/

/-- The state a result leads to. -/
def next? (r : Result) : Option State :=
  match r with
  | .next t => some t
  | _ => none

/-- Why a result stops. -/
def refusal? (r : Result) : Option Refusal :=
  match r with
  | .refused e => some e
  | _ => none

theorem completes {r : Result} (h : (next? r).isSome = true) : ∃ t, r = .next t := by
  cases r with
  | next t => exact ⟨t, rfl⟩
  | fault f => cases h
  | refused e => cases h

/-- The reset state with this CPSR and pc, these registers of its mode and these words in memory. -/
def machine (cpsr pc : Word) (regs : List (RegNum × Word)) (words : List (Nat × Word)) : State :=
  let s := regs.foldl (fun s x => s.writeReg x.1 x.2) { State.reset with cpsr := cpsr, pc := pc }
  { s with mem := words.foldl (fun m w => Memory.writeList m w.1 (toBytes false 4 w.2)) [] }

/-- ABORT answers in this order. -/
def aborting (l : List Bool) (s : State) : State := { s with inputs := { s.inputs with aborts := l } }

/-- The memory map. -/
def mapped (l : List Region) (s : State) : State := { s with platform := { s.platform with memMap := l } }

/-- All of memory is of this kind. -/
def allOf (k : RegionKind) (s : State) : State := mapped [⟨0, 2 ^ 32, k⟩] s

/-- The rules of `ExecOther`. -/
def withRules (l : List OtherRule) (s : State) : State := { s with platform := { s.platform with execOther := l } }

/-- A rule without a guard. -/
def rule (thumb : Bool) (mask bits : Word) (o : OtherOutcome) : OtherRule := ⟨thumb, mask, bits, .const 1#32, o⟩

/-- An ARM instruction that only advances the pc. -/
def armOnly : OtherEffect :=
  { base := .current (.const 15#32), writeBack := none, restoresBase := false, accesses := [], regs := [], cpsr := .cpsr,
    spsr := none, pc := .op .add .addr (.const 4#32) }

/-- A Thumb instruction that only advances the pc. -/
def thumbOnly : OtherEffect := { armOnly with pc := .op .add .addr (.const 2#32) }

/-- The effect with one more register written. -/
def writing (e : OtherEffect) (q : PhysReg) (v : Word) : OtherEffect :=
  { e with regs := ⟨.const 1#32, .phys q, .const v⟩ :: e.regs }

/-- `ADD Rd, Rn, #imm8`: the operands stand at bits 15:12, 19:16 and 7:0 of the instruction. -/
def addImmediate : OtherRule :=
  rule false 0x0FF00F00#32 0x02800000#32 (.run { armOnly with
    regs := [⟨.const 1#32, .current (.op .lsr .instr (.const 12#32)),
      .op .add (.reg (.op .lsr .instr (.const 16#32))) (.op .and .instr (.const 0xFF#32))⟩] })

/-- Loads the halfword at r1 into r0, stores it at r1 + 2, and writes r1 + 2 back. -/
def copyHalf : OtherEffect :=
  { armOnly with
    base := .current (.const 1#32)
    writeBack := some (.op .add (.reg (.const 1#32)) (.const 2#32))
    accesses :=
      [⟨.const 1#32, .half, .reg (.const 1#32), .load [⟨.const 1#32, .current (.const 0#32), .loaded 0⟩]⟩,
        ⟨.const 1#32, .half, .op .add (.reg (.const 1#32)) (.const 2#32), .store (.loaded 0)⟩] }

/-- The current mode's SPSR. -/
def spsrIs (p : Word) (s : State) : State := s.writeSpsr? (some p)

/-- One step, seen through `f`. -/
def after {α : Type} (s : State) (f : State → α) : Option α := (next? (step s)).map f

/-! ## Single steps (95_test_vectors.md) -/

/-- User mode, ARM state, at 0x8000. -/
def user : State := machine 0x10#32 0x8000#32 [] []
/-- User mode, Thumb state, at 0x8002. -/
def userThumb : State := machine 0x30#32 0x8002#32 [] []
/-- Supervisor mode with an SPSR that names User mode, and r1 an address. -/
def super : State := spsrIs 0x10#32 (machine 0x93#32 0x8000#32 [(1#4, 0x2000#32)] [])

/-- V1. -/
theorem test_swi : after (machine 0x60000010#32 0x8000#32 [] [(0x8000, 0xEF000011#32)])
    (fun t => (t.regs.lr.svc, t.spsrs.svc, t.cpsr, t.pc)) =
    some (0x8004#32, 0x60000010#32, 0x60000093#32, 0x8#32) := by decide
/-- V2: the halfword at 0x8002. -/
theorem test_thumbSwi : after (machine 0x30#32 0x8002#32 [] [(0x8000, 0xDF110000#32)])
    (fun t => (t.regs.lr.svc, t.spsrs.svc, t.cpsr, t.pc)) = some (0x8004#32, 0x30#32, 0x93#32, 0x8#32) := by decide
/-- V3. -/
theorem test_udef : after (machine 0x13#32 0x8000#32 [] [(0x8000, 0xE7F000F0#32)])
    (fun t => (t.regs.lr.und, t.spsrs.und, t.cpsr, t.pc)) = some (0x8004#32, 0x13#32, 0x9B#32, 0x4#32) := by decide
/-- V57: the condition fails. -/
theorem test_udef_skipped : after (machine 0x10#32 0x8000#32 [] [(0x8000, 0x07F000F0#32)])
    (fun t => (t.cpsr, t.pc)) = some (0x10#32, 0x8004#32) := by decide
/-- V4: `ExecOther` answers Undefined for a Thumb halfword. -/
theorem test_other_undefined : after (withRules [rule true 0#32 0#32 .undefined] (machine 0x30#32 0x8002#32 [] []))
    (fun t => (t.regs.lr.und, t.spsrs.und, t.cpsr, t.pc)) = some (0x8004#32, 0x30#32, 0x9B#32, 0x4#32) := by decide
/-- V9: `ExecOther` answers with a Data Abort; the fetch takes the first answer of ABORT. -/
theorem test_other_dataAbort :
    after (aborting [false, true] (withRules [rule true 0#32 0#32 (.run { thumbOnly with
        accesses := [⟨.const 1#32, .byte, .const 0x1001#32, .load []⟩] })] (machine 0x30#32 0x8002#32 [] [])))
      (fun t => (t.regs.lr.abt, t.spsrs.abt, t.cpsr, t.pc)) = some (0x800A#32, 0x30#32, 0x97#32, 0x10#32) := by decide
/-- No rule answers; a rule refuses and gives a reason; the condition is tested before either. -/
theorem test_other_refused :
    refusal? (step (withRules [addImmediate] (machine 0x10#32 0x8000#32 [] [(0x8000, 0xE2900001#32)]))) =
      some .instructionNotInSpec ∧
    refusal? (step (withRules [rule false 0#32 0#32 (.refuse "unpredictable")] (machine 0x10#32 0x8000#32 [] []))) = none ∧
    refusal? (step (withRules [rule false 0#32 0#32 (.refuse "unpredictable")]
      (machine 0x10#32 0x8000#32 [] [(0x8000, 0xE2900001#32)]))) = some (.execOtherRefused "unpredictable") := by decide
/-- A rule that computes: ADD r7, r15, #0x21 with the operands taken from the instruction's bits. -/
theorem test_other_computes : after (withRules [addImmediate] (machine 0x10#32 0x8000#32 [] [(0x8000, 0xE28F7021#32)]))
    (fun t => (t.readReg 7#4, t.readReg 6#4, t.cpsr, t.pc)) =
    some (0x8029#32, 0x10000#32, 0x10#32, 0x8004#32) := by decide
/-- A rule with two accesses: what the load read is stored further up and put into r0, and the base moves. -/
theorem test_other_accesses : after (withRules [rule false 0#32 0#32 (.run copyHalf)]
      (machine 0x10#32 0x8000#32 [(1#4, 0x1000#32)] [(0x1000, 0xCAFEF00D#32), (0x8000, 0xE0D100B2#32)]))
    (fun t => (t.readReg 0#4, t.readReg 1#4, t.memValue .word 0x1000#32, t.pc)) =
    some (0xF00D#32, 0x1002#32, 0xF00DF00D#32, 0x8004#32) := by decide
/-- The store of the two aborted (R141 item 4): r0 is loaded, the base as it was, the CPSR saved. -/
theorem test_other_accesses_abort : after (aborting [false, false, true] (withRules
      [rule false 0#32 0#32 (.run { copyHalf with restoresBase := true })]
      (machine 0x10#32 0x8000#32 [(1#4, 0x1000#32)] [(0x1000, 0xCAFEF00D#32), (0x8000, 0xE0D100B2#32)])))
    (fun t => (t.readReg 0#4, t.readReg 1#4, t.memValue .half 0x1000#32, t.spsrs.abt, t.regs.lr.abt)) =
    some (0xF00D#32, 0x1000#32, 0xF00D#32, 0x10#32, 0x8008#32) := by decide
/-- Outcomes outside the contract (R141 items 1 to 3), from User mode: r14_svc written, a jump to a vector, I changed, T
changed by a word that is no BX, an SPSR written; from Supervisor mode an illegal mode. -/
theorem test_other_contract :
    [writing armOnly (.lr (some .svc)) 0#32, { armOnly with pc := .const 0x18#32 }, { armOnly with cpsr := .const 0x90#32 },
        { armOnly with cpsr := .const 0x30#32 }, { armOnly with spsr := some (.const 0x10#32) }].all
      (fun e => refusal? (runEffect e 0xE2800001#32 (machine 0x10#32 0x8000#32 [] [])) == some .execOtherContract) = true ∧
    refusal? (runEffect { armOnly with cpsr := .const 0x80#32 } 0xE2800001#32 (machine 0x13#32 0x8000#32 [] [])) =
      some .execOtherContract := by decide
/-- Inside it: BX to Thumb state in User mode, r14 of the current mode, and the address after the instruction although it
is a vector. -/
theorem test_other_contract_kept :
    (next? (runEffect { armOnly with cpsr := .const 0x30#32, pc := .const 0x8002#32 } 0xE12FFF11#32
      (machine 0x10#32 0x8000#32 [] []))).map (fun t => (t.cpsr, t.pc)) = some (0x30#32, 0x8002#32) ∧
    (next? (runEffect (writing armOnly (.lr (some .svc)) 5#32) 0xE2800001#32 (machine 0x13#32 0x4#32 [] []))).map
      (fun t => (t.regs.lr.svc, t.pc)) = some (5#32, 0x8#32) := by decide
/-- A word over memory and a device: recorded, and the memory's half stored (R56). One over code and a device is refused
(R62), and so is a fetch from a device or an address with nothing (R64). -/
theorem test_mixed_regions :
    after (mapped [⟨0x1002, 2, .device⟩] (machine 0x10#32 0x8000#32 [(0#4, 0xCAFEF00D#32), (1#4, 0x1000#32)] [(0x8000, 0xE5810000#32)]))
      (fun t => (t.memValue .word 0x1000#32, t.deviceLog)) = some (0xF00D#32, [⟨0x1000#32, .word, 0xCAFEF00D#32⟩]) ∧
    refusal? (step (mapped [⟨0x1002, 2, .device⟩, ⟨0x1000, 2, .code⟩]
      (machine 0x10#32 0x8000#32 [(1#4, 0x1000#32)] [(0x8000, 0xE5810000#32)]))) = some .storeToCode ∧
    refusal? (step (allOf .device user)) = some .fetchFromDevice ∧ refusal? (step (allOf .nothing user)) = some .unmapped := by
  decide
/-- An aborted write over memory and a device (R56): the memory's byte holds a draw, nothing is recorded, and the bytes
beside it are as before. -/
theorem test_mixed_regions_abort :
    let s := mapped [⟨0x1001, 3, .device⟩] user
    (s.scramble .word 0x1000#32).mem.read 0x1000 = Config.freeByte 0 ∧
    (s.scramble .word 0x1000#32).mem.read 0x1001 = 0#8 ∧ (s.scramble .word 0x1000#32).deviceLog = [] :=
  ⟨Memory.read_writeOver_of_memory _ _ (i := 0) (by unfold Memory.sorted; decide) (by decide) (by decide),
    (State.scramble_read_of_ne _ _ _ (by decide)).trans (by decide), rfl⟩
/-- V7: a fetch aborted in Thumb state. -/
theorem test_prefetchAbort : after (aborting [true] (machine 0x30#32 0x8002#32 [] []))
    (fun t => (t.regs.lr.abt, t.spsrs.abt, t.cpsr, t.pc)) = some (0x8006#32, 0x30#32, 0x97#32, 0xC#32) := by decide
/-- V10. -/
theorem test_irq : after { machine 0x10#32 0x8000#32 [] [] with inputs := ⟨[], [], [.low], []⟩ }
    (fun t => (t.regs.lr.irq, t.spsrs.irq, t.cpsr, t.pc)) = some (0x8004#32, 0x10#32, 0x92#32, 0x18#32) := by decide
/-- V11, V13: the FIQ comes first. -/
theorem test_fiq : after { machine 0x30#32 0x8002#32 [] [] with inputs := ⟨[], [.low], [.low], []⟩ }
    (fun t => (t.regs.lr.fiq, t.spsrs.fiq, t.cpsr, t.pc)) = some (0x8006#32, 0x30#32, 0xD1#32, 0x1C#32) := by decide
/-- V14, V15: masked requests, here before `MOV r0, #1`. -/
theorem test_masked : after { machine 0xD3#32 0x8000#32 [] [(0x8000, 0xE3A00001#32)] with
      inputs := ⟨[], [.low], [.low], []⟩ }
    (fun t => (t.readReg 0#4, t.cpsr, t.pc)) = some (0x1#32, 0xD3#32, 0x8004#32) := by decide
/-- V18. -/
theorem test_reset : after { machine 0x30#32 0x8002#32 [] [] with inputs := ⟨[true], [.low], [.low], []⟩ }
    (fun t => t.pc) = some 0x0#32 := by decide

/-- V20. -/
theorem test_movsPcR14 : after (spsrIs 0x60000010#32 (machine 0x60000093#32 0x84#32 [(14#4, 0x8004#32)] [(0x84, 0xE1B0F00E#32)]))
    (fun t => (t.cpsr, t.pc)) = some (0x60000010#32, 0x8004#32) := by decide
/-- V27. -/
theorem test_movsPcR14_user : refusal? (step (machine 0x10#32 0x8000#32 [] [(0x8000, 0xE1B0F00E#32)])) = some .noSpsr := by decide
/-- V28, spelt with `MOVS PC, r13`. -/
theorem test_movsReg_illegalMode :
    refusal? (step (spsrIs 0x0#32 (machine 0x93#32 0x80#32 [] [(0x80, 0xE1B0F00D#32)]))) = some .illegalMode := by decide
/-- V22. -/
theorem test_subsPcR14Imm4 : after (spsrIs 0x30#32 (machine 0x92#32 0x84#32 [(14#4, 0x8006#32)] [(0x84, 0xE25EF004#32)]))
    (fun t => (t.cpsr, t.pc)) = some (0x30#32, 0x8002#32) := by decide
/-- V24. -/
theorem test_subsPcR14Imm8 : after (spsrIs 0x30#32 (machine 0x97#32 0x108#32 [(14#4, 0x800A#32)] [(0x108, 0xE25EF008#32)]))
    (fun t => (t.cpsr, t.pc)) = some (0x30#32, 0x8002#32) := by decide
/-- V25. -/
theorem test_movPcR14 : after (machine 0x10#32 0x8104#32 [(14#4, 0x8004#32)] [(0x8104, 0xE1A0F00E#32)])
    (fun t => (t.cpsr, t.pc)) = some (0x10#32, 0x8004#32) := by decide
/-- V26. -/
theorem test_thumbMovPcR14 : after (machine 0x30#32 0x8102#32 [(14#4, 0x8005#32)] [(0x8100, 0x46F70000#32)])
    (fun t => (t.cpsr, t.pc)) = some (0x30#32, 0x8004#32) := by decide

/-- R91 with register 15 as operand: it reads two instructions ahead (R25). -/
theorem test_movReg : after (machine 0x10#32 0x8000#32 [] [(0x8000, 0xE1A0000F#32)])
    (fun t => (t.readReg 0#4, t.pc)) = some (0x8008#32, 0x8004#32) := by decide
/-- R91: N from the value, C and V as before. -/
theorem test_movsReg : after (machine 0x30000010#32 0x8000#32 [(1#4, 0x80000000#32)] [(0x8000, 0xE1B00001#32)])
    (fun t => (t.readReg 0#4, t.cpsr)) = some (0x80000000#32, 0xB0000010#32) := by decide
/-- V32a: the condition fails. -/
theorem test_movImm_skipped : after (machine 0x40000010#32 0x8000#32 [(0#4, 9#32)] [(0x8000, 0x13A00001#32)])
    (fun t => (t.readReg 0#4, t.pc)) = some (9#32, 0x8004#32) := by decide
/-- V30. -/
theorem test_movsImm_zero : after (machine 0xB0000010#32 0x8000#32 [] [(0x8000, 0xE3B00000#32)])
    (fun t => (t.readReg 0#4, t.cpsr)) = some (0#32, 0x70000010#32) := by decide
/-- V31. -/
theorem test_movsImm_carry : after (machine 0x10#32 0x8000#32 [] [(0x8000, 0xE3B00102#32)])
    (fun t => (t.readReg 0#4, t.cpsr)) = some (0x80000000#32, 0xA0000010#32) := by decide
/-- R92: the destination is a source. -/
theorem test_subReg : after (machine 0xF0000010#32 0x8000#32 [(1#4, 5#32), (2#4, 7#32)] [(0x8000, 0xE0411002#32)])
    (fun t => (t.readReg 1#4, t.cpsr)) = some (0xFFFFFFFE#32, 0xF0000010#32) := by decide
/-- V32b. -/
theorem test_subsReg : after (machine 0x10#32 0x8000#32 [(3#4, 5#32), (4#4, 7#32)] [(0x8000, 0xE0532004#32)])
    (fun t => (t.readReg 2#4, t.cpsr)) = some (0xFFFFFFFE#32, 0x80000010#32) := by decide
/-- P3 step 4: `SUB r1, r1, #4`. -/
theorem test_subImm : after (machine 0x97#32 0x104#32 [(1#4, 0x1004#32)] [(0x104, 0xE2411004#32)])
    (fun t => (t.readReg 1#4, t.cpsr, t.pc)) = some (0x1000#32, 0x97#32, 0x108#32) := by decide
/-- V32, first case. -/
theorem test_subsImm_borrow : after (machine 0x10#32 0x8000#32 [(0#4, 0#32)] [(0x8000, 0xE2500001#32)])
    (fun t => (t.readReg 0#4, t.cpsr)) = some (0xFFFFFFFF#32, 0x80000010#32) := by decide
/-- V32, second case. -/
theorem test_subsImm_overflow : after (machine 0x10#32 0x8000#32 [(0#4, 0x80000000#32)] [(0x8000, 0xE2500001#32)])
    (fun t => (t.readReg 0#4, t.cpsr)) = some (0x7FFFFFFF#32, 0x30000010#32) := by decide

/-- V33. -/
theorem test_ldrRdR14Minus8 : after (machine 0x97#32 0x100#32 [(14#4, 0x8008#32)] [(0x100, 0xE51E2008#32), (0x8000, 0xE4910004#32)])
    (fun t => (t.readReg 2#4, t.pc)) = some (0xE4910004#32, 0x104#32) := by decide
/-- V34. -/
theorem test_ldrImmPost : after (machine 0x10#32 0x8000#32 [(1#4, 0x1000#32)] [(0x1000, 0x12345678#32), (0x8000, 0xE4910004#32)])
    (fun t => (t.readReg 0#4, t.readReg 1#4, t.pc)) = some (0x12345678#32, 0x1004#32, 0x8004#32) := by decide
/-- V35. -/
theorem test_ldrImmPost_abort :
    after (aborting [false, true] (machine 0x10#32 0x8000#32 [(0#4, 7#32), (1#4, 0x1000#32)] [(0x8000, 0xE4910004#32)]))
      (fun t => (t.readReg 0#4, t.readReg 1#4, t.regs.lr.abt, t.spsrs.abt, t.cpsr, t.pc)) =
      some (7#32, 0x1004#32, 0x8008#32, 0x10#32, 0x97#32, 0x10#32) := by decide
/-- V44. -/
theorem test_ldrImmPre_misaligned :
    refusal? (step (machine 0x10#32 0x8000#32 [(1#4, 0x1002#32)] [(0x8000, 0xE5910000#32)])) = some .misaligned := by decide
/-- R111: `LDR pc, [r1, #-4]!`. -/
theorem test_ldrImmPre_pc : after (machine 0x10#32 0x8000#32 [(1#4, 0x1004#32)] [(0x1000, 0x9000#32), (0x8000, 0xE531F004#32)])
    (fun t => (t.pc, t.readReg 1#4)) = some (0x9000#32, 0x1000#32) := by decide
/-- R110: `LDR r0, [r1, r2, LSL #2]`. -/
theorem test_ldrRegPre : after (machine 0x10#32 0x8000#32 [(1#4, 0x1000#32), (2#4, 4#32)] [(0x1010, 0xCAFEF00D#32), (0x8000, 0xE7910102#32)])
    (fun t => (t.readReg 0#4, t.readReg 1#4)) = some (0xCAFEF00D#32, 0x1000#32) := by decide
/-- R110: `LDR r0, [r1], -r2, LSR #32` (encoded 0) leaves the base as it was. -/
theorem test_ldrRegPost : after (machine 0x10#32 0x8000#32 [(1#4, 0x1000#32), (2#4, 0xFFFFFFFF#32)] [(0x1000, 1#32), (0x8000, 0xE6110022#32)])
    (fun t => (t.readReg 0#4, t.readReg 1#4)) = some (1#32, 0x1000#32) := by decide
/-- V43, little-endian. -/
theorem test_ldrbImmPre : after (machine 0x10#32 0x8000#32 [(1#4, 0x1001#32)] [(0x1000, 0x12345678#32), (0x8000, 0xE5D10000#32)])
    (fun t => t.readReg 0#4) = some 0x56#32 := by decide
/-- V43, big-endian (the bytes of both words the other way round). -/
theorem test_ldrbImmPre_big :
    after { machine 0x10#32 0x8000#32 [(1#4, 0x1001#32)] [(0x1000, 0x78563412#32), (0x8000, 0x0000D1E5#32)] with
      platform := { State.reset.platform with bigEndian := true } }
    (fun t => t.readReg 0#4) = some 0x34#32 := by decide
/-- R110, R111: `LDRB r0, [r1], #-3`. -/
theorem test_ldrbImmPost : after (machine 0x10#32 0x8000#32 [(1#4, 0x1003#32)] [(0x1000, 0x92345678#32), (0x8000, 0xE4510003#32)])
    (fun t => (t.readReg 0#4, t.readReg 1#4)) = some (0x92#32, 0x1000#32) := by decide
/-- R110: `LDRB r0, [r1, r2, ASR #32]` (encoded 0) with a negative r2 subtracts 1. -/
theorem test_ldrbRegPre : after (machine 0x10#32 0x8000#32 [(1#4, 0x1001#32), (2#4, 0x80000000#32)] [(0x1000, 0x12345678#32), (0x8000, 0xE7D10042#32)])
    (fun t => t.readReg 0#4) = some 0x78#32 := by decide
/-- R110: `LDRB r0, [r1], r2, RRX` (ROR encoded 0) with C set and r2 = 2 adds 0x80000001. -/
theorem test_ldrbRegPost : after (machine 0x20000010#32 0x8000#32 [(1#4, 0x1002#32), (2#4, 2#32)] [(0x1000, 0x12345678#32), (0x8000, 0xE6D10062#32)])
    (fun t => (t.readReg 0#4, t.readReg 1#4)) = some (0x34#32, 0x80001003#32) := by decide
/-- R112: `STR r0, [r1, #4]!`. -/
theorem test_strImmPre : after (machine 0x10#32 0x8000#32 [(0#4, 0xCAFEF00D#32), (1#4, 0x1000#32)] [(0x8000, 0xE5A10004#32)])
    (fun t => (t.readReg 1#4, t.memValue .word 0x1004#32, t.memValue .byte 0x1004#32, t.memValue .word 0x1008#32)) =
    some (0x1004#32, 0xCAFEF00D#32, 0x0D#32, 0#32) := by decide
/-- V36: the write aborted. -/
theorem test_strImmPre_abort :
    after (aborting [false, true] (machine 0x10#32 0x8000#32 [(0#4, 0xCAFEF00D#32), (1#4, 0x1000#32)] [(0x8000, 0xE5A10004#32)]))
      (fun t => (t.readReg 1#4, t.regs.lr.abt, t.pc)) = some (0x1004#32, 0x8008#32, 0x10#32) := by decide
/-- R112: `STR r1, [r1], #4` is refused (R110), `STR r0, [r1], #4` stores before it moves the base. -/
theorem test_strImmPost : after (machine 0x10#32 0x8000#32 [(0#4, 3#32), (1#4, 0x1000#32)] [(0x8000, 0xE4810004#32)])
    (fun t => (t.readReg 1#4, t.memValue .word 0x1000#32)) = some (0x1004#32, 3#32) := by decide
theorem test_strRegPre : after (machine 0x10#32 0x8000#32 [(0#4, 3#32), (1#4, 0x1010#32), (2#4, 0x80#32)] [(0x8000, 0xE7010222#32)])
    (fun t => (t.readReg 1#4, t.memValue .word 0x1008#32)) = some (0x1010#32, 3#32) := by decide
theorem test_strRegPost : after (machine 0x10#32 0x8000#32 [(0#4, 3#32), (1#4, 0x1010#32), (2#4, 0x80#32)] [(0x8000, 0xE6010222#32)])
    (fun t => (t.readReg 1#4, t.memValue .word 0x1010#32)) = some (0x1008#32, 3#32) := by decide
/-- R112: one byte, bits 7:0. -/
theorem test_strbImmPre : after (machine 0x10#32 0x8000#32 [(0#4, 0xCAFEF00D#32), (1#4, 0x1000#32)] [(0x1000, 0x11223344#32), (0x8000, 0xE5C10002#32)])
    (fun t => (t.readReg 1#4, t.memValue .word 0x1000#32)) = some (0x1000#32, 0x110D3344#32) := by decide
theorem test_strbImmPost : after (machine 0x10#32 0x8000#32 [(0#4, 0x1FF#32), (1#4, 0x1001#32)] [(0x8000, 0xE4410001#32)])
    (fun t => (t.readReg 1#4, t.memValue .word 0x1000#32)) = some (0x1000#32, 0xFF00#32) := by decide
theorem test_strbRegPre : after (machine 0x10#32 0x8000#32 [(0#4, 0xAB#32), (1#4, 0x1000#32), (2#4, 3#32)] [(0x8000, 0xE7E10002#32)])
    (fun t => (t.readReg 1#4, t.memValue .word 0x1000#32)) = some (0x1003#32, 0xAB000000#32) := by decide
theorem test_strbRegPost : after (machine 0x10#32 0x8000#32 [(0#4, 0xAB#32), (1#4, 0x1000#32), (2#4, 3#32)] [(0x8000, 0xE6C10002#32)])
    (fun t => (t.readReg 1#4, t.memValue .word 0x1000#32)) = some (0x1003#32, 0xAB#32) := by decide

/-- V37, no abort. -/
theorem test_swp : after (machine 0x10#32 0x8000#32 [(0#4, 5#32), (1#4, 0x1000#32), (2#4, 1#32)] [(0x8000, 0xE1010092#32)])
    (fun t => (t.readReg 0#4, t.memValue .word 0x1000#32)) = some (0#32, 1#32) := by decide
/-- V37, the read aborted. -/
theorem test_swp_abort :
    after (aborting [false, true] (machine 0x10#32 0x8000#32 [(0#4, 5#32), (1#4, 0x1000#32), (2#4, 1#32)] [(0x8000, 0xE1010092#32)]))
      (fun t => (t.readReg 0#4, t.memValue .word 0x1000#32, t.pc)) = some (5#32, 0#32, 0x10#32) := by decide
theorem test_swpb : after (machine 0x10#32 0x8000#32 [(1#4, 0x1001#32), (2#4, 0x1FF#32)] [(0x1000, 0x12345678#32), (0x8000, 0xE1412092#32)])
    (fun t => (t.readReg 2#4, t.memValue .word 0x1000#32)) = some (0x56#32, 0x1234FF78#32) := by decide

/-- V40: the base comes back although it was loaded. -/
theorem test_ldm_abort :
    after (aborting [false, false, false, true] (machine 0x10#32 0x8000#32 [(1#4, 0x2000#32), (2#4, 9#32)]
        [(0x2000, 1#32), (0x2004, 2#32), (0x2008, 3#32), (0x8000, 0xE8910007#32)]))
      (fun t => (t.readReg 0#4, t.readReg 1#4, t.readReg 2#4, t.pc)) = some (1#32, 0x2000#32, 9#32, 0x10#32) := by decide
/-- V42. -/
theorem test_ldm_return :
    after (spsrIs 0x10#32 (machine 0x93#32 0x100#32 [(13#4, 0x2000#32)] [(0x100, 0xE8FD8001#32), (0x2000, 1#32), (0x2004, 0x8004#32)]))
      (fun t => (t.readReg 0#4, t.regs.sp.svc, t.cpsr, t.pc)) = some (1#32, 0x2008#32, 0x10#32, 0x8004#32) := by decide
/-- R118: `STMDB r13!, {r0, r1}`. -/
theorem test_stm : after (machine 0x10#32 0x8000#32 [(0#4, 7#32), (1#4, 8#32), (13#4, 0x2008#32)] [(0x8000, 0xE92D0003#32)])
    (fun t => (t.readReg 13#4, t.memValue .word 0x2000#32, t.memValue .word 0x2004#32)) = some (0x2000#32, 7#32, 8#32) := by decide
/-- V41: the first store aborted. -/
theorem test_stm_abort :
    after (aborting [false, true] (machine 0x10#32 0x8000#32 [(13#4, 0x2008#32)] [(0x8000, 0xE92D0003#32)]))
      (fun t => (t.readReg 0#4, t.regs.sp.usr, t.regs.lr.abt, t.pc)) = some (0x10000#32, 0x2000#32, 0x8008#32, 0x10#32) := by decide

/-- V46. -/
theorem test_b : after (machine 0x93#32 0x8#32 [] [(0x8, 0xEA000006#32)]) (fun t => t.pc) = some 0x28#32 := by decide
/-- V47. -/
theorem test_b_self : after (machine 0x10#32 0x50#32 [] [(0x50, 0xEAFFFFFE#32)]) (fun t => t.pc) = some 0x50#32 := by decide
/-- V45. -/
theorem test_bl : after (machine 0x10#32 0x8000#32 [] [(0x8000, 0xEB00003E#32)]) (fun t => (t.readReg 14#4, t.pc)) =
    some (0x8004#32, 0x8100#32) := by decide
/-- V48, first half. -/
theorem test_thumbBlFirst : after (machine 0x30#32 0x8000#32 [] [(0x8000, 0xF87EF000#32)]) (fun t => (t.readReg 14#4, t.pc)) =
    some (0x8004#32, 0x8002#32) := by decide
/-- V48, second half; bit 0 of r14 is a free value. -/
theorem test_thumbBlSecond : after (machine 0x30#32 0x8002#32 [(14#4, 0x8004#32)] [(0x8000, 0xF87EF000#32)])
    (fun t => (t.pc, t.cpsr)) = some (0x8100#32, 0x30#32) := by decide

/-- V50. -/
theorem test_mrs : after (machine 0x92#32 0x8000#32 [] [(0x8000, 0xE10F0000#32)]) (fun t => t.readReg 0#4) = some 0x92#32 := by decide
/-- V54. -/
theorem test_mrs_noSpsr : refusal? (step (machine 0x10#32 0x8000#32 [] [(0x8000, 0xE14F0000#32)])) = some .noSpsr := by decide
/-- V52: ignored in User mode. -/
theorem test_msrImm_user : after (machine 0x10#32 0x8000#32 [] [(0x8000, 0xE321F0D3#32)]) (fun t => (t.cpsr, t.pc)) =
    some (0x10#32, 0x8004#32) := by decide
/-- V55. -/
theorem test_msrImm_T : refusal? (step (machine 0x13#32 0x8000#32 [] [(0x8000, 0xE321F030#32)])) = some .msrChangesT := by decide
/-- R136: all four bytes of the SPSR. -/
theorem test_msrReg : after (machine 0x93#32 0x8000#32 [(0#4, 0xA5A5A5A5#32)] [(0x8000, 0xE16FF000#32)])
    (fun t => (t.spsrs.svc, t.spsrs.irq, t.cpsr)) = some (0xA5A5A5A5#32, 0xFFFFFFFF#32, 0x93#32) := by decide

/-- V56. -/
theorem test_cdp : after (machine 0x10#32 0x8000#32 [] [(0x8000, 0xEE000100#32)]) (fun t => (t.regs.lr.und, t.cpsr, t.pc)) =
    some (0x8004#32, 0x9B#32, 0x4#32) := by decide
/-- R130 for the other four, and the refusal of an accepted word. -/
theorem test_coprocessor :
    [Instr.mrc .al 0#3 0#4 0#4 1#4 0#3 0#4, .mcr .al 0#3 0#4 0#4 1#4 0#3 0#4, .ldc .al true true false false 0#4 0#4 1#4 0#8,
      .stc .al true true false false 0#4 0#4 1#4 0#8].all
        (fun i => (next? (exec i (machine 0x10#32 0x8000#32 [] []))).map (fun t => t.pc) == some 0x4#32) = true := by decide
/-- A coprocessor that takes every word. -/
def withCoprocessor (s : State) : State := { s with platform := { s.platform with coproc := [⟨0#32, 0#32⟩] } }
theorem test_coprocessor_accepts : refusal? (exec (.cdp .al 0#4 0#4 0#4 1#4 0#3 0#4) (withCoprocessor (machine 0x10#32 0x8000#32 [] []))) =
    some .coprocessorSemanticsUnmodelled := by decide
/-- V58. -/
theorem test_condNv : refusal? (step (machine 0x10#32 0x8000#32 [] [(0x8000, 0xF7F000F0#32)])) = some .condNv := by decide
/-- The host's placing of an instruction (log 17), in both states. -/
theorem test_withFetchWord : after (State.reset.withFetchWord 32 0xE3A00005) (fun t => t.readReg 0#4) = some 5#32 ∧
    after (State.reset.withFetchWord 16 0xDF11) (fun t => t.pc) = some 0x8#32 := by decide

/-! ## Witnesses: for every statement with hypotheses a case that meets them -/

theorem witness_DecodeEncodeGivesInstruction :
    (Instr.movReg .al 0#4 15#4 13#4).wellFormed = true ∧ (Instr.ldm .ne true true true true 15#4 0xFFFF#16).wellFormed = true := by
  decide
theorem witness_DecodedInstructionEncodesBack : decode (.arm 0xE51EF008#32) = .instr (.ldrRdR14Minus8 .al 15#4) ∧
    decode (.thumb 0xFFFF#16) = .instr (.thumbBlSecond 0x7FF#11) := by decide
theorem witness_GeneralRowsNeverOverlap : generalRows.length = 40 := by decide
theorem witness_ConditionTable : (0xF0000000#32).extractLsb' 28 4 = 0b1111#4 ∧
    ∃ s : State, s.Quiet ∧ s.thumb = false ∧ ReadReady .word s.pc s ∧ (s.memValue .word s.pc).extractLsb' 28 4 = 0b1111#4 :=
  ⟨by decide, machine 0x10#32 0x8000#32 [] [(0x8000, 0xF7F000F0#32)], ⟨by decide, by decide, by decide, by decide⟩, by decide,
    ⟨by decide, by decide, by decide⟩, by decide⟩
theorem witness_FailedConditionOnlyAdvances : condOf (.swi .eq 0#24) = some .eq ∧ condPassed .eq user.cpsr = false := by decide
/-- ARM state with every request masked, Thumb state with none made, and the three refusals of the fetch. -/
theorem witness_StepRunsInstructionAtPc :
    (∃ s : State, s.Quiet ∧ s.inputs.fiq.head? = some .low ∧ s.inputs.irq.head? = some .low ∧
      ReadReady (if s.thumb then .half else .word) s.pc s ∧
      decode (if s.thumb then .thumb ((s.memValue .half s.pc).setWidth 16) else .arm (s.memValue .word s.pc)) =
        .instr (.movImm .al 0#4 0#4 0#4 1#8)) ∧
    (∃ s : State, s.Quiet ∧ s.thumb = true ∧ ReadReady (if s.thumb then .half else .word) s.pc s ∧
      decode (if s.thumb then .thumb ((s.memValue .half s.pc).setWidth 16) else .arm (s.memValue .word s.pc)) =
        .instr (.thumbSwi 0x11#8)) ∧
    (∃ s : State, s.Quiet ∧ ¬ AlignedTo (if s.thumb then Width.half else .word).bytes s.pc) ∧
    (∃ s : State, s.Quiet ∧ AlignedTo (if s.thumb then Width.half else .word).bytes s.pc ∧
      s.touches .device (if s.thumb then Width.half else .word) s.pc = true) ∧
    ∃ s : State, s.Quiet ∧ AlignedTo (if s.thumb then Width.half else .word).bytes s.pc ∧ s.abortNext = false ∧
      s.touches .device (if s.thumb then Width.half else .word) s.pc = false ∧
      s.touches .nothing (if s.thumb then Width.half else .word) s.pc = true :=
  ⟨⟨{ machine 0xD3#32 0x8000#32 [] [(0x8000, 0xE3A00001#32)] with inputs := ⟨[], [.low], [.low], []⟩ },
      ⟨by decide, by decide, by decide, by decide⟩, by decide, by decide, ⟨by decide, by decide, by decide⟩, by decide⟩,
    ⟨machine 0x30#32 0x8002#32 [] [(0x8000, 0xDF110000#32)], ⟨by decide, by decide, by decide, by decide⟩, by decide,
      ⟨by decide, by decide, by decide⟩, by decide⟩,
    ⟨machine 0x10#32 0x8002#32 [] [], ⟨by decide, by decide, by decide, by decide⟩, by decide⟩,
    ⟨mapped [⟨0x8003, 1, .device⟩] userThumb, ⟨by decide, by decide, by decide, by decide⟩, by decide, by decide⟩,
    ⟨allOf .nothing user, ⟨by decide, by decide, by decide, by decide⟩, by decide, by decide, by decide, by decide⟩⟩
/-- Words outside the table: one whose condition passes, one whose condition fails, a halfword. -/
theorem witness_StepRunsInstructionAtPc_other :
    (∃ s : State, s.Quiet ∧ s.thumb = false ∧ ReadReady .word s.pc s ∧
      decode (.arm (s.memValue .word s.pc)) = .other .al 0xE2800001#32) ∧
    (∃ s : State, s.Quiet ∧ s.thumb = false ∧ ReadReady .word s.pc s ∧
      decode (.arm (s.memValue .word s.pc)) = .other .eq 0x02800001#32 ∧ condPassed .eq s.cpsr = false) ∧
    ∃ s : State, s.Quiet ∧ s.thumb = true ∧ ReadReady .half s.pc s ∧
      decode (.thumb ((s.memValue .half s.pc).setWidth 16)) = .other .al 0x3001#32 :=
  ⟨⟨machine 0x10#32 0x8000#32 [] [(0x8000, 0xE2800001#32)], ⟨by decide, by decide, by decide, by decide⟩, by decide,
      ⟨by decide, by decide, by decide⟩, by decide⟩,
    ⟨machine 0x10#32 0x8000#32 [] [(0x8000, 0x02800001#32)], ⟨by decide, by decide, by decide, by decide⟩, by decide,
      ⟨by decide, by decide, by decide⟩, by decide, by decide⟩,
    ⟨machine 0x30#32 0x8000#32 [] [(0x8000, 0x00003001#32)], ⟨by decide, by decide, by decide, by decide⟩, by decide,
      ⟨by decide, by decide, by decide⟩, by decide⟩⟩
/-- Both sides of the equivalence are met, and both are missed. -/
theorem witness_FaultOnlyAtHaltAddress :
    ({ user with platform := { user.platform with haltAddr := some 0x8000#32 } } : State).platform.haltAddr = some user.pc ∧
      user.platform.haltAddr ≠ some user.pc := by decide
theorem witness_ResetWins : ∃ s : State, s.platform.haltAddr ≠ some s.pc ∧ s.inputs.reset.head? = some true :=
  ⟨{ user with inputs := ⟨[true], [.low], [], []⟩ }, by decide, by decide⟩
theorem witness_FiqTakenWhenRequestedAndEnabled : ∃ s : State, s.platform.haltAddr ≠ some s.pc ∧
    s.inputs.reset.head? ≠ some true ∧ s.cpsr.getLsbD 6 = false ∧ s.inputs.fiq.head? = some .low :=
  ⟨{ user with inputs := ⟨[false], [.low], [], []⟩ }, by decide, by decide, by decide, by decide⟩
/-- The FIQ requested as well, but masked. -/
theorem witness_IrqTakenWhenRequestedAndEnabled : ∃ s : State, s.platform.haltAddr ≠ some s.pc ∧
    s.inputs.reset.head? ≠ some true ∧ ¬ (s.cpsr.getLsbD 6 = false ∧ s.inputs.fiq.head? = some .low) ∧
    s.cpsr.getLsbD 7 = false ∧ s.inputs.irq.head? = some .low :=
  ⟨{ machine 0x50#32 0x8000#32 [] [] with inputs := ⟨[], [.low], [.low], []⟩ }, by decide, by decide, by decide, by decide,
    by decide⟩
theorem witness_AbortedFetchIsTakenOrSkipped :
    ∃ s ∈ [aborting [true] user, aborting [true] userThumb], s.Quiet ∧ AlignedTo s.instrSize s.pc ∧
      s.touches .device (if s.thumb then .half else .word) s.pc = false ∧ s.abortNext = true :=
  ⟨aborting [true] user, by simp, ⟨by decide, by decide, by decide, by decide⟩, by decide, by decide, by decide⟩
theorem witness_AbortedFetchIsTakenOrSkipped_thumb : (aborting [true] userThumb).Quiet ∧
    AlignedTo (aborting [true] userThumb).instrSize (aborting [true] userThumb).pc ∧
    (aborting [true] userThumb).thumb = true ∧ (aborting [true] userThumb).abortNext = true :=
  ⟨⟨by decide, by decide, by decide, by decide⟩, by decide, by decide, by decide⟩
/-- What the accesses of an instruction come to, if they all complete; if one aborts. -/
def done? (r : OtherRun) : Option (RegWrites × List Word) :=
  match r with
  | .done ws loaded _ => some (ws, loaded)
  | _ => none
def aborted? (r : OtherRun) : Option RegWrites :=
  match r with
  | .aborted ws _ => some ws
  | _ => none

/-- The kinds of access: one not made, and a load and a store that complete, abort and are refused. -/
theorem witness_ExecOtherOutcomes_accesses :
    let at_ := 0xFFFFFFFC#32
    (OtherExpr.const 0#32).holds ⟨user, 0#32, []⟩ = false ∧ (OtherExpr.const 1#32).holds ⟨user, 0#32, []⟩ = true ∧
    (∃ v t, memRead .word at_ user = .ok v t) ∧ (∃ t, memRead .word at_ (aborting [true] user) = .abort t) ∧
    (∃ r, memRead .half 0xFFFFFFFF#32 user = .refused r) ∧ (∃ t, memWrite .word at_ 7#32 user = .ok () t) ∧
    (∃ t, memWrite .word at_ 7#32 (aborting [true] user) = .abort t) ∧
    ∃ r, memWrite .word at_ 7#32 (allOf .code user) = .refused r :=
  ⟨by decide, by decide, ⟨_, _, rfl⟩, ⟨_, rfl⟩, ⟨_, rfl⟩, ⟨_, rfl⟩, ⟨_, rfl⟩, ⟨_, rfl⟩⟩
/-- No rule; a rule that refuses; one that answers Undefined. -/
theorem witness_ExecOtherOutcomes : condPassed .al user.cpsr = true ∧
    (∀ r, r ∈ user.platform.execOther → r.answers 0xE2800001#32 user = false) ∧
    (∃ (s : State) (r : OtherRule), s.platform.execOther.find? (fun x => x.answers 0xE2800001#32 s) = some r ∧
      r.outcome = .refuse "unpredictable") ∧
    ∃ (s : State) (r : OtherRule), s.platform.execOther.find? (fun x => x.answers 0xE2800001#32 s) = some r ∧
      r.outcome = .undefined :=
  ⟨by decide, (fun _ h => nomatch h),
    ⟨withRules [rule true 0#32 0#32 .undefined, rule false 0#32 0#32 (.refuse "unpredictable")] user,
      rule false 0#32 0#32 (.refuse "unpredictable"), by decide, by decide⟩,
    ⟨withRules [rule true 0#32 0#32 .undefined] userThumb, rule true 0#32 0#32 .undefined, by decide, by decide⟩⟩
/-- Effects whose accesses complete: refused; at an odd address; within the contract, with the address after the instruction
a vector; and outside it. -/
theorem witness_ExecOtherOutcomes_next :
    (∃ x, otherAccesses user 0#32 [⟨.const 1#32, .half, .const 1#32, .store (.const 0#32)⟩] [] user = .refused x) ∧
    (done? (otherAccesses (machine 0x10#32 0x8000#32 [(1#4, 0x1000#32)] [(0x1000, 0xCAFEF00D#32)]) 0#32 copyHalf.accesses []
      (machine 0x10#32 0x8000#32 [(1#4, 0x1000#32)] [(0x1000, 0xCAFEF00D#32)])) = some ([(.low 0, 0xF00D#32)], [0xF00D#32, 0#32])) ∧
    KeepsContract (machine 0x10#32 0x4#32 [] []) 0#32 [(.low 0, 0xF00D#32)] 0x10#32 none 0x8#32 ∧
    (KeepsContract user 0#32 [] 0x10#32 none 0x8001#32 ∧ (0x8001#32).toNat % 4 ≠ 0) ∧
    KeepsContract user 0xE12FFF11#32 [] 0x30#32 none 0x8002#32 ∧ ¬ KeepsContract user 0#32 [] 0x30#32 none 0x8002#32 :=
  ⟨⟨_, rfl⟩, by decide, ⟨by unfold WritesNoOtherLink; simp, by decide, by decide, by decide, by decide⟩,
    ⟨⟨by unfold WritesNoOtherLink; simp, by decide, by decide, by decide, by decide⟩, by decide⟩,
    ⟨by unfold WritesNoOtherLink; simp, by decide, by decide, by decide, by decide⟩,
    fun h => absurd (h.2.2.1 (by decide) 5 (by decide)) (by decide)⟩
/-- A load that completed before a store that aborted, with a base; and a load of another mode's r14 before an abort. -/
theorem witness_ExecOtherOutcomes_abort :
    aborted? (otherAccesses user 0#32 copyHalf.accesses [] (aborting [false, true] user)) = some [(.low 0, 0#32)] ∧
    WritesNoOtherLink user ([(.low 0, 0#32)] ++ copyHalf.baseAfterAbort ⟨user, 0#32, []⟩) ∧
    copyHalf.base.resolve ⟨user, 0#32, []⟩ = some (.low 1) ∧ ¬ WritesNoOtherLink user [(.lr (some .irq), 0#32)] :=
  ⟨by decide, by
      intro b v h
      rw [show copyHalf.baseAfterAbort ⟨user, 0#32, []⟩ = [(.low 1, 0x10002#32)] by decide] at h
      simp at h,
    by decide, fun h => absurd (h (some .irq) 0#32 (List.mem_singleton.mpr rfl)) (by decide)⟩
/-- From ARM state and from Thumb state. -/
theorem witness_ReturnInstructionUndoesEntry : (legalMode user.cpsr = true ∧ user.pcAligned) ∧
    (legalMode userThumb.cpsr = true ∧ userThumb.pcAligned) := ⟨⟨by decide, by unfold State.pcAligned; decide⟩,
  ⟨by decide, by unfold State.pcAligned; decide⟩⟩
theorem witness_DataAbortThenFiq : ∃ s : State, s.cpsr.getLsbD 6 = false ∧ s.platform.haltAddr ≠ some 0x00000010#32 ∧
    s.inputs.reset.head? ≠ some true ∧ s.inputs.fiq.head? = some .low :=
  ⟨{ user with inputs := ⟨[], [.low], [], []⟩ }, by decide, by decide, by decide, by decide⟩

theorem witness_MovWritesValueAndFlags :
    movForm user (.movsImm .al 0#4 14#4 1#4 0x2#8) = some (.al, true, 14#4, 0x80000000#32, true) ∧ 14#4 ≠ 15#4 ∧
      condPassed .al user.cpsr = true := by decide
theorem witness_SubWritesDifferenceAndFlags :
    subForm user (.subsReg .al 15#4 0#4 1#4) = some (.al, true, 0#4, 0x8008#32, 0x10000#32) ∧ 0#4 ≠ 15#4 ∧
      condPassed .al user.cpsr = true := by decide
/-- A result that is a multiple of 4 and one that is not. -/
theorem witness_PcDestinationWithoutStatus :
    PcResult user (.movImm .al 0#4 15#4 0#4 4#8) .al false 4#32 ∧ PcResult user (.subImm .al 0#4 15#4 0#4 1#8) .al false 0xFFFF#32 ∧
      condPassed .al user.cpsr = true ∧ user.thumb = false ∧ (4#32).toNat % 4 = 0 ∧ (0xFFFF#32).toNat % 4 ≠ 0 :=
  ⟨.inl ⟨false, by decide⟩, .inr ⟨0x10000#32, 1#32, by decide, by decide⟩, by decide, by decide, by decide, by decide⟩
/-- No SPSR; an illegal SPSR; an SPSR of either state with a result that suits it, and one with a result that does not. -/
theorem witness_PcDestinationRestoresStatus :
    (PcResult user (.movsPcR14 .al) .al true 0x10000#32 ∧ user.bank = none) ∧
    (PcResult super (.movsPcR14 .al) .al true 0x10000#32 ∧ condPassed .al super.cpsr = true ∧ super.bank = some .svc) ∧
    legalMode (super.spsrs.get .svc) = true ∧ (0x10000#32).toNat % 4 = 0 ∧
    legalMode ((spsrIs 0x0#32 super).spsrs.get .svc) = false ∧
    (legalMode ((spsrIs 0x30#32 super).spsrs.get .svc) = true ∧ ((spsrIs 0x30#32 super).spsrs.get .svc).getLsbD 5 = true) ∧
    (PcResult super (.movsReg .al 0#4 15#4 15#4) .al true 0x8008#32) ∧ PcResult super (.movsImm .al 0#4 15#4 0#4 1#8) .al true 1#32 :=
  ⟨⟨.inl ⟨false, by decide⟩, by decide⟩, ⟨.inl ⟨false, by decide⟩, by decide, by decide⟩, by decide, by decide, by decide,
    by decide, .inl ⟨false, by decide⟩, .inl ⟨false, by decide⟩⟩
theorem witness_SubroutineReturn : (user.thumb = false ∧ (user.readReg 14#4).toNat % 4 = 0) ∧
    ((machine 0x10#32 0x8000#32 [(14#4, 2#32)] []).thumb = false ∧
      ((machine 0x10#32 0x8000#32 [(14#4, 2#32)] []).readReg 14#4).toNat % 4 ≠ 0) ∧ userThumb.thumb = true := by decide

theorem witness_BranchAndLink : condPassed .al user.cpsr = true ∧ user.thumb = false ∧ user.pcAligned :=
  ⟨by decide, by decide, by unfold State.pcAligned; decide⟩
/-- A second half whose target is even, and one whose target is odd. -/
theorem witness_ThumbBranchAndLink : userThumb.thumb = true ∧
    (userThumb.readReg 14#4 + BitVec.ofNat 32 (2 * (0x7FF#11).toNat)).toNat % 2 = 0 ∧
    (machine 0x30#32 0x8002#32 [(14#4, 1#32)] []).thumb = true ∧
    ((machine 0x30#32 0x8002#32 [(14#4, 1#32)] []).readReg 14#4 + BitVec.ofNat 32 (2 * (0#11).toNat)).toNat % 2 ≠ 0 := by decide

/-- The operands of these transfers are allowed. -/
theorem allowed {a : Addressing} {rd : RegNum} (h : a.refusal? rd = none) : ¬ TransferOperandsRefused a rd := by
  unfold Addressing.refusal? Addressing.writesBack at h
  unfold TransferOperandsRefused WritesBack
  rcases a with ⟨p, u, w, rn, o⟩
  cases p <;> cases w <;> simp at h ⊢
  case true.false => exact h
  all_goals
    split_ifs at h
    exact ⟨by assumption, by assumption, by assumption, by assumption⟩

/-- The address of every transfer below, at the top of the address space: the last word. -/
def top : State := machine 0x10#32 0x8000#32 [(1#4, 0xFFFFFFFC#32), (0#4, 0x8004#32)] []

theorem witness_LoadWritesRegister :
    ∃ f, loadForm (.ldrImmPost .al true 1#4 14#4 4#12) = some f ∧ condPassed f.cond top.cpsr = true ∧
      ¬ TransferOperandsRefused f.at_ f.rd ∧ f.rd ≠ 15#4 ∧ ReadReady f.width (f.at_.addr top) top :=
  ⟨_, rfl, by decide, allowed (by decide), by decide, by decide, by decide, by decide⟩
theorem witness_LoadWritesRegister_byte :
    ∃ f, loadForm (.ldrbRegPre .al true false 1#4 1#4 31#5 .ror 2#4) = some f ∧ condPassed f.cond top.cpsr = true ∧
      ¬ TransferOperandsRefused f.at_ f.rd ∧ f.rd ≠ 15#4 ∧ ReadReady f.width (f.at_.addr top) top :=
  ⟨_, rfl, by decide, allowed (by decide), by decide, by decide, by decide, by decide⟩
/-- A word that is a multiple of 4, one that is not, a word that is a device's or is one in its last byte, and LDRB. -/
theorem witness_LoadToPc :
    (∃ f, loadForm (.ldrImmPre .al true false 1#4 15#4 0#12) = some f ∧ condPassed f.cond top.cpsr = true ∧
      ¬ TransferOperandsRefused f.at_ f.rd ∧ f.rd = 15#4 ∧ top.thumb = false ∧ f.width = .word ∧
      ReadReady .word (f.at_.addr top) top ∧ (top.memValue .word (f.at_.addr top)).toNat % 4 = 0) ∧
    (∃ s : State, (s.memValue .word ((preForm true false 1#4 (.imm 0#12)).addr s)).toNat % 4 ≠ 0 ∧ s.thumb = false ∧
      ReadReady .word ((preForm true false 1#4 (.imm 0#12)).addr s) s) ∧
    [allOf .device top, mapped [⟨0xFFFFFFFF, 1, .device⟩] top].all (fun s =>
      let a := (preForm true false 1#4 (.imm 0#12)).addr s
      !s.thumb && decide (AlignedTo 4 a) && !s.abortNext && !s.touches .nothing .word a && s.touches .device .word a) = true ∧
    (∃ f, loadForm (.ldrbImmPre .al true false 1#4 15#4 0#12) = some f ∧ ¬ TransferOperandsRefused f.at_ f.rd ∧ f.width = .byte) :=
  ⟨⟨_, rfl, by decide, allowed (by decide), by decide, by decide, by decide, ⟨by decide, by decide, by decide⟩, by decide⟩,
    ⟨machine 0x10#32 0x8000#32 [(1#4, 0x1000#32)] [(0x1000, 2#32)], by decide, by decide, ⟨by decide, by decide, by decide⟩⟩,
    by decide, ⟨_, rfl, allowed (by decide), by decide⟩⟩
theorem witness_StoreWritesMemory :
    (∃ f, storeForm (.strImmPre .al true true 1#4 0#4 0#12) = some f ∧ condPassed f.cond top.cpsr = true ∧
      ¬ TransferOperandsRefused f.at_ f.rd ∧ f.rd ≠ 15#4 ∧ Memory.wf top.mem = true ∧ WriteReady f.width (f.at_.addr top) top) ∧
    (∃ f, storeForm (.strbImmPost .al true 1#4 15#4 3#12) = some f ∧ condPassed f.cond top.cpsr = true ∧
      ¬ TransferOperandsRefused f.at_ f.rd ∧ f.rd = 15#4) :=
  ⟨⟨_, rfl, by decide, allowed (by decide), by decide, by decide, by decide, by decide, by decide⟩,
    ⟨_, rfl, by decide, allowed (by decide), by decide⟩⟩
/-- A device, and a word of which only the last byte is a device's. -/
theorem witness_DeviceTransfersComplete :
    (∃ s ∈ [allOf .device top, mapped [⟨0xFFFFFFFF, 1, .device⟩] top], ∃ f,
      storeForm (.strImmPre .al true false 1#4 0#4 0#12) = some f ∧ condPassed f.cond s.cpsr = true ∧
      ¬ TransferOperandsRefused f.at_ f.rd ∧ f.rd ≠ 15#4 ∧ Memory.wf s.mem = true ∧ DeviceWriteReady f.width (f.at_.addr s) s) ∧
    (∃ f, storeForm (.strImmPre .al true false 1#4 0#4 0#12) = some f ∧
      DeviceWriteReady f.width (f.at_.addr (mapped [⟨0xFFFFFFFF, 1, .device⟩] top)) (mapped [⟨0xFFFFFFFF, 1, .device⟩] top)) ∧
    (∃ f, loadForm (.ldrImmPost .al true 1#4 0#4 4#12) = some f ∧ ¬ TransferOperandsRefused f.at_ f.rd ∧
      f.rd ≠ 15#4 ∧ AlignedTo f.width.bytes (f.at_.addr (mapped [⟨0xFFFFFFFF, 1, .device⟩] top)) ∧
      (mapped [⟨0xFFFFFFFF, 1, .device⟩] top).abortNext = false ∧
      (mapped [⟨0xFFFFFFFF, 1, .device⟩] top).touches .nothing f.width (f.at_.addr (mapped [⟨0xFFFFFFFF, 1, .device⟩] top)) = false ∧
      (mapped [⟨0xFFFFFFFF, 1, .device⟩] top).touches .device f.width (f.at_.addr (mapped [⟨0xFFFFFFFF, 1, .device⟩] top)) = true) :=
  ⟨⟨allOf .device top, by simp, _, rfl, by decide, allowed (by decide), by decide, by decide, by unfold DeviceWriteReady; decide⟩,
    ⟨_, rfl, by unfold DeviceWriteReady; decide⟩, ⟨_, rfl, allowed (by decide), by decide, by decide, by decide, by decide, by decide⟩⟩
/-- A load, to register 15 as well, and a store to ordinary memory and to a device. -/
theorem witness_AbortedSingleTransfer :
    (∃ f, loadForm (.ldrImmPost .al false 1#4 15#4 4#12) = some f ∧ ¬ (f.width = .byte ∧ f.rd = 15#4) ∧
      condPassed f.cond (aborting [true] top).cpsr = true ∧ ¬ TransferOperandsRefused f.at_ f.rd ∧
      AlignedTo f.width.bytes (f.at_.addr (aborting [true] top)) ∧ (aborting [true] top).abortNext = true) ∧
    (∃ f, storeForm (.strbImmPre .al true true 1#4 0#4 3#12) = some f ∧ f.rd ≠ 15#4 ∧
      (aborting [true] top).touches .code f.width (f.at_.addr (aborting [true] top)) = false ∧
      (allOf .device top).touches .code f.width (f.at_.addr (allOf .device top)) = false ∧
      ¬ TransferOperandsRefused f.at_ f.rd ∧ AlignedTo f.width.bytes (f.at_.addr (aborting [true] top))) :=
  ⟨⟨_, rfl, by decide, by decide, allowed (by decide), by decide, by decide⟩,
    ⟨_, rfl, by decide, by decide, by decide, allowed (by decide), by decide⟩⟩
theorem witness_RefusedSingleTransfer :
    (∃ f, loadForm (.ldrImmPost .al true 15#4 0#4 0#12) = some f ∧ TransferOperandsRefused f.at_ f.rd) ∧
    (∃ f, storeForm (.strRegPre .al true false 1#4 0#4 0#5 .lsl 15#4) = some f ∧ TransferOperandsRefused f.at_ f.rd) ∧
    (∃ f, storeForm (.strRegPost .al true 1#4 0#4 0#5 .lsl 1#4) = some f ∧ TransferOperandsRefused f.at_ f.rd) ∧
    (∃ f, loadForm (.ldrbImmPre .al true true 1#4 1#4 0#12) = some f ∧ TransferOperandsRefused f.at_ f.rd) ∧
    (∃ f, loadForm (.ldrImmPre .al true false 1#4 0#4 2#12) = some f ∧ ¬ TransferOperandsRefused f.at_ f.rd ∧ f.rd ≠ 15#4 ∧
      condPassed f.cond top.cpsr = true ∧ ¬ AlignedTo f.width.bytes (f.at_.addr top)) ∧
    (∃ f, storeForm (.strImmPre .al true false 1#4 0#4 0#12) = some f ∧ ¬ TransferOperandsRefused f.at_ f.rd ∧
      AlignedTo f.width.bytes (f.at_.addr (allOf .code top)) ∧
      (allOf .code top).touches .code f.width (f.at_.addr (allOf .code top)) = true) ∧
    (∃ f, loadForm (.ldrImmPre .al true false 1#4 0#4 0#12) = some f ∧ ¬ TransferOperandsRefused f.at_ f.rd ∧
      AlignedTo f.width.bytes (f.at_.addr (allOf .nothing top)) ∧ (allOf .nothing top).abortNext = false ∧
      (allOf .nothing top).touches .nothing f.width (f.at_.addr (allOf .nothing top)) = true) :=
  ⟨⟨_, rfl, .inl ⟨.inl rfl, rfl⟩⟩, ⟨_, rfl, .inr (.inl rfl)⟩, ⟨_, rfl, .inr (.inr (.inl ⟨.inl rfl, rfl⟩))⟩,
    ⟨_, rfl, .inr (.inr (.inr ⟨.inr rfl, rfl⟩))⟩, ⟨_, rfl, allowed (by decide), by decide, by decide, by decide⟩,
    ⟨_, rfl, allowed (by decide), by decide, by decide⟩, ⟨_, rfl, allowed (by decide), by decide, by decide, by decide⟩⟩
/-- LDR to register 15 at a misaligned address and at one with nothing. -/
theorem witness_RefusedSingleTransfer_pc :
    ∃ f, loadForm (.ldrImmPre .al true false 1#4 15#4 2#12) = some f ∧ condPassed f.cond top.cpsr = true ∧
      ¬ TransferOperandsRefused f.at_ f.rd ∧ f.rd = 15#4 ∧ f.width = .word ∧ ¬ AlignedTo f.width.bytes (f.at_.addr top) ∧
      AlignedTo 4 ((preForm true false 1#4 (.imm 0#12)).addr (allOf .nothing top)) ∧ (allOf .nothing top).abortNext = false ∧
      (allOf .nothing top).touches .nothing .word ((preForm true false 1#4 (.imm 0#12)).addr (allOf .nothing top)) = true :=
  ⟨_, rfl, by decide, allowed (by decide), by decide, by decide, by decide, by decide, by decide, by decide⟩
theorem witness_HandlerReadsAbortedInstruction : condPassed .al (takeException .dabt 0x8000#32 user).cpsr = true ∧
    ReadReady .word 0x8000#32 (takeException .dabt 0x8000#32 user) := ⟨by decide, by decide, by decide, by decide⟩

theorem witness_SwapExchanges : swapForm (.swp .al 1#4 1#4 1#4) = some (.word, .al, 1#4, 1#4, 1#4) ∧
    condPassed .al top.cpsr = true ∧ Memory.wf top.mem = true ∧ WriteReady .word (top.readReg 1#4) top ∧
    top.inputs.aborts.getD 1 false = false ∧ swapForm (.swpb .al 0#4 15#4 1#4) = some (.byte, .al, 0#4, 15#4, 1#4) :=
  ⟨by decide, by decide, by decide, ⟨by decide, by decide, by decide⟩, by decide, by decide⟩
/-- A swap with a device, at a misaligned address, with nothing at its address, and in a code region. -/
theorem witness_SwapExchanges_regions : DeviceWriteReady .word (top.readReg 1#4) (allOf .device top) ∧
    DeviceWriteReady .word (top.readReg 1#4) (mapped [⟨0xFFFFFFFD, 1, .device⟩] top) ∧
    ¬ AlignedTo Width.word.bytes ((machine 0x10#32 0x8000#32 [(1#4, 0xFFFFFFFE#32)] []).readReg 1#4) ∧
    AlignedTo Width.word.bytes (top.readReg 1#4) ∧ top.abortNext = false ∧
    (allOf .nothing top).touches .nothing .word (top.readReg 1#4) = true ∧
    (allOf .code top).touches .nothing .word (top.readReg 1#4) = false ∧
    (allOf .code top).touches .code .word (top.readReg 1#4) = true := by unfold DeviceWriteReady; decide
/-- The read aborted; the write aborted, to memory and to a device. -/
theorem witness_AbortedSwap : swapForm (.swp .al 1#4 0#4 2#4) = some (.word, .al, 1#4, 0#4, 2#4) ∧
    AlignedTo Width.word.bytes (top.readReg 1#4) ∧ (aborting [true] top).abortNext = true ∧
    (aborting [false, true] top).abortNext = false ∧ (aborting [false, true] top).inputs.aborts.getD 1 false = true ∧
    [top, allOf .device top].all (fun s => !s.touches .code .word (s.readReg 1#4) && !s.touches .nothing .word (s.readReg 1#4)) =
      true := by decide

/-- Decides what the reads of a block need. -/
theorem blockReadable {start : Word} {k : Nat} {s : State} (h : AlignedTo 4 start ∧ ∀ j, j < k →
    s.inputs.aborts.getD j false = false ∧ s.touches .nothing .word (blockWord start j) = false) : BlockReadable start k s := h

/-- The words at 0x2004 and 0x2005 are a device's, of the block at 0x2000 that r1 addresses. -/
def superDevice : State := mapped [⟨0x2004, 4, .device⟩] super

theorem ldmAllowed {b w : Bool} {rn : RegNum} {l : BitVec 16} {s : State} (h : rn ≠ 15#4 ∧ l ≠ 0#16 ∧
    ¬ (w = true ∧ l.getLsbD rn.toNat = true) ∧ ¬ (b = true ∧ s.bank = none) ∧
    ¬ (b = true ∧ w = true ∧ l.getLsbD 15 = false)) : ¬ LdmRefused b w rn l s := by
  simp only [LdmRefused, not_or]; exact h

/-- The whole list but the base, with write-back, across the top of the address space; the User bank. -/
theorem witness_LoadMultiple :
    (condPassed .al top.cpsr = true ∧ ¬ LdmRefused false true 1#4 0x7FFD#16 top ∧ (0x7FFD#16).getLsbD 15 = false ∧
      BlockReadable (startOf false true (top.readReg 1#4) (blockCount 0x7FFD#16)) (blockCount 0x7FFD#16) top) ∧
    (condPassed .al super.cpsr = true ∧ ¬ LdmRefused true false 1#4 0x6002#16 super ∧ (0x6002#16).getLsbD 15 = false ∧
      BlockReadable (startOf true false (super.readReg 1#4) (blockCount 0x6002#16)) (blockCount 0x6002#16) super) :=
  ⟨⟨by decide, ldmAllowed (by decide), by decide, blockReadable (by decide)⟩,
    by decide, ldmAllowed (by decide), by decide, blockReadable (by decide)⟩
/-- A block of a word of memory and a word of a device. -/
theorem witness_LoadMultiple_device : condPassed .al superDevice.cpsr = true ∧ ¬ LdmRefused false true 1#4 0x0005#16 superDevice ∧
    (0x0005#16).getLsbD 15 = false ∧
    BlockReadable (startOf false true (superDevice.readReg 1#4) (blockCount 0x0005#16)) (blockCount 0x0005#16) superDevice ∧
    NoDeviceAt (superDevice.readReg 1#4) 0 superDevice ∧ ¬ NoDeviceAt (superDevice.readReg 1#4) 1 superDevice :=
  ⟨by decide, ldmAllowed (by decide), by decide, blockReadable (by decide), by unfold NoDeviceAt; decide,
    by unfold NoDeviceAt; decide⟩
/-- S = 0 and S = 1; the last word 0 suits either state. -/
theorem witness_LoadMultipleWithPc :
    (condPassed .al top.cpsr = true ∧ ¬ LdmRefused false true 1#4 0x8001#16 top ∧ (0x8001#16).getLsbD 15 = true ∧
      BlockReadable (startOf false true (top.readReg 1#4) (blockCount 0x8001#16)) (blockCount 0x8001#16) top ∧ top.thumb = false) ∧
    (condPassed .al super.cpsr = true ∧ ¬ LdmRefused true true 1#4 0x8001#16 super ∧
      BlockReadable (startOf false true (super.readReg 1#4) (blockCount 0x8001#16)) (blockCount 0x8001#16) super ∧
      super.thumb = false ∧ super.bank = some .svc ∧ legalMode (super.spsrs.get .svc) = true ∧
      (super.memValue .word (blockWord (startOf false true (super.readReg 1#4) 2) 1)).toNat % 4 = 0) :=
  ⟨⟨by decide, ldmAllowed (by decide), by decide, blockReadable (by decide), by decide⟩,
    by decide, ldmAllowed (by decide), blockReadable (by decide), by decide, by decide, by decide, by decide⟩
/-- A last word of 2 in the way of S = 0, and an SPSR of mode 0 in the way of S = 1. -/
theorem witness_LoadMultipleWithPc_refused :
    (∃ s : State, ¬ LdmRefused false false 1#4 0x8000#16 s ∧ BlockReadable (startOf false true (s.readReg 1#4) 1) 1 s ∧
      s.thumb = false ∧ (s.memValue .word (blockWord (startOf false true (s.readReg 1#4) 1) 0)).toNat % 4 ≠ 0) ∧
    legalMode ((spsrIs 0#32 super).spsrs.get .svc) = false ∧ (spsrIs 0#32 super).bank = some .svc :=
  ⟨⟨machine 0x10#32 0x8000#32 [(1#4, 0x1000#32)] [(0x1000, 2#32)], ldmAllowed (by decide), blockReadable (by decide), by decide,
    by decide⟩, by decide, by decide⟩

theorem stmAllowed {b w : Bool} {rn : RegNum} {l : BitVec 16} {s : State} (h : rn ≠ 15#4 ∧ l ≠ 0#16 ∧
    ¬ l.getLsbD 15 = true ∧ ¬ (w = true ∧ l.getLsbD rn.toNat = true ∧ ∃ j, j < rn.toNat ∧ l.getLsbD j = true) ∧
    ¬ (b = true ∧ s.bank = none) ∧ ¬ (b = true ∧ w = true)) : ¬ StmRefused b w rn l s := by
  simp only [StmRefused, not_or]; exact h

/-- The base the lowest of the list, with write-back; the User bank from Supervisor mode. -/
theorem witness_StoreMultiple :
    (condPassed .al top.cpsr = true ∧ ¬ StmRefused false true 1#4 0x7FFE#16 top ∧ Memory.wf top.mem = true ∧
      BlockWritable (startOf false true (top.readReg 1#4) (blockCount 0x7FFE#16)) (blockCount 0x7FFE#16) top) ∧
    (condPassed .al super.cpsr = true ∧ ¬ StmRefused true false 1#4 0x6002#16 super ∧ Memory.wf super.mem = true ∧
      BlockWritable (startOf true true (super.readReg 1#4) (blockCount 0x6002#16)) (blockCount 0x6002#16) super) :=
  ⟨⟨by decide, stmAllowed (by decide), by decide, by unfold BlockWritable; decide⟩,
    by decide, stmAllowed (by decide), by decide, by unfold BlockWritable; decide⟩
/-- A block of a word of memory and a word of a device. -/
theorem witness_StoreMultiple_device : condPassed .al superDevice.cpsr = true ∧ ¬ StmRefused false true 1#4 0x0006#16 superDevice ∧
    Memory.wf superDevice.mem = true ∧
    BlockWritable (startOf false true (superDevice.readReg 1#4) (blockCount 0x0006#16)) (blockCount 0x0006#16) superDevice ∧
    NoDeviceAt (superDevice.readReg 1#4) 0 superDevice ∧ ¬ NoDeviceAt (superDevice.readReg 1#4) 1 superDevice :=
  ⟨by decide, stmAllowed (by decide), by decide, by unfold BlockWritable; decide, by unfold NoDeviceAt; decide,
    by unfold NoDeviceAt; decide⟩
/-- The first access aborted, and the last of three. -/
theorem witness_AbortedLoadMultiple :
    (∃ s : State, condPassed .al s.cpsr = true ∧ ¬ LdmRefused false true 13#4 0x8001#16 s ∧ 0 < blockCount 0x8001#16 ∧
      BlockReadable (startOf false true (s.readReg 13#4) (blockCount 0x8001#16)) 0 s ∧ s.inputs.aborts.getD 0 false = true) ∧
    (∃ s : State, condPassed .al s.cpsr = true ∧ ¬ LdmRefused false false 1#4 0x0007#16 s ∧ 2 < blockCount 0x0007#16 ∧
      BlockReadable (startOf false true (s.readReg 1#4) (blockCount 0x0007#16)) 2 s ∧ s.inputs.aborts.getD 2 false = true) :=
  ⟨⟨aborting [true] user, by decide, ldmAllowed (by decide), by decide, blockReadable (by decide), by decide⟩,
    ⟨aborting [false, false, true] user, by decide, ldmAllowed (by decide), by decide, blockReadable (by decide), by decide⟩⟩
theorem witness_AbortedStoreMultiple :
    ∃ s : State, condPassed .al s.cpsr = true ∧ ¬ StmRefused false true 13#4 0x0003#16 s ∧ Memory.wf s.mem = true ∧
      1 < blockCount 0x0003#16 ∧ BlockWritable (startOf true false (s.readReg 13#4) (blockCount 0x0003#16)) 1 s ∧
      s.inputs.aborts.getD 1 false = true ∧ ∀ j, j < blockCount 0x0003#16 →
        s.touches .code .word (blockWord (startOf true false (s.readReg 13#4) (blockCount 0x0003#16)) j) = false :=
  ⟨aborting [false, true] user, by decide, stmAllowed (by decide), by decide, by decide, by unfold BlockWritable; decide,
    by decide, by decide⟩
theorem witness_RefusedBlockTransfer :
    LdmRefused false false 15#4 1#16 user ∧ LdmRefused false false 1#4 0#16 user ∧ LdmRefused false true 1#4 2#16 user ∧
    LdmRefused true false 1#4 1#16 user ∧ LdmRefused true true 1#4 1#16 super ∧ StmRefused false false 1#4 0x8000#16 user ∧
    StmRefused false true 1#4 3#16 user ∧ StmRefused true true 1#4 1#16 super ∧
    (∃ s : State, condPassed .al s.cpsr = true ∧ ¬ LdmRefused false false 1#4 1#16 s ∧ ¬ StmRefused false false 1#4 1#16 s ∧
      ¬ AlignedTo 4 (startOf false true (s.readReg 1#4) (blockCount 1#16))) :=
  ⟨by unfold LdmRefused; decide, by unfold LdmRefused; decide, by unfold LdmRefused; decide, by unfold LdmRefused; decide,
    by unfold LdmRefused; decide, by unfold StmRefused; decide, by unfold StmRefused; decide, by unfold StmRefused; decide,
    ⟨machine 0x10#32 0x8000#32 [(1#4, 0x1002#32)] [], by decide, ldmAllowed (by decide), stmAllowed (by decide), by decide⟩⟩

/-- The second word of a block with nothing at its address, in a code region, and in a code region after an abort. -/
theorem witness_RefusedBlockTransfer_regions :
    let nothing := mapped [⟨0x2004, 4, .nothing⟩] super
    let code := mapped [⟨0x2004, 4, .code⟩] super
    let start := 0x2000#32
    condPassed .al super.cpsr = true ∧ startOf false true (super.readReg 1#4) 3 = start ∧ 1 < blockCount 0x0015#16 ∧
    ¬ LdmRefused false false 1#4 0x0015#16 nothing ∧ ¬ StmRefused false false 1#4 0x0015#16 nothing ∧
    Memory.wf nothing.mem = true ∧ BlockReadable start 1 nothing ∧ BlockWritable start 1 nothing ∧
    nothing.inputs.aborts.getD 1 false = false ∧ nothing.touches .nothing .word (blockWord start 1) = true ∧
    nothing.touches .code .word (blockWord start 1) = false ∧
    BlockWritable start 1 code ∧ code.touches .code .word (blockWord start 1) = true ∧
    BlockWritable start 0 (aborting [true] code) ∧ (aborting [true] code).inputs.aborts.getD 0 false = true :=
  ⟨by decide, by decide, by decide, ldmAllowed (by decide), stmAllowed (by decide), by decide, blockReadable (by decide),
    by unfold BlockWritable; decide, by decide, by decide, by decide, by unfold BlockWritable; decide, by decide,
    by unfold BlockWritable; decide, by decide⟩

theorem witness_SoftwareInterrupt : (user.thumb = false ∧ condPassed .al user.cpsr = true) ∧
    condPassed .eq user.cpsr = false ∧ userThumb.thumb = true := by decide
theorem witness_UndefinedInstruction : user.thumb = false ∧ condPassed .al user.cpsr = true := by decide
theorem witness_CoprocessorInstruction :
    isCoprocessor (.cdp .al 0#4 0#4 0#4 1#4 0#3 0#4) ∧ condOf (.cdp .al 0#4 0#4 0#4 1#4 0#3 0#4) = some .al ∧
    encode (.cdp .al 0#4 0#4 0#4 1#4 0#3 0#4) = .arm 0xEE000100#32 ∧ user.thumb = false ∧
    coprocAccepts user.platform.coproc 0xEE000100#32 = false ∧
    coprocAccepts (withCoprocessor user).platform.coproc 0xEE000100#32 = true :=
  ⟨trivial, by decide, by decide, by decide, by decide, by decide⟩
theorem witness_ReadStatus : condPassed .al user.cpsr = true ∧ 14#4 ≠ 15#4 ∧ user.bank = none ∧ super.bank = some .svc := by decide
/-- A write that completes in User mode and in Supervisor mode, one that would change T, and one of an illegal mode. -/
theorem witness_WriteCpsr : condPassed .al super.cpsr = true ∧
    (∃ rot imm, Instr.msrImm .al false 0b1001#4 0#4 0xD3#8 = .msrImm .al false 0b1001#4 rot imm ∧
      0xD3#32 = (imm.setWidth 32).rotateRight (2 * rot.toNat)) ∧
    (next? (exec (.msrImm .al false 0b1001#4 0#4 0xD3#8) super)).isSome = true ∧
    (next? (exec (.msrImm .al false 0b1111#4 0#4 0x33#8) user)).isSome = true ∧
    refusal? (exec (.msrImm .al false 0b0001#4 0#4 0x30#8) super) = some .msrChangesT ∧
    refusal? (exec (.msrImm .al false 0b0001#4 0#4 0x00#8) super) = some .illegalMode :=
  ⟨by decide, ⟨0#4, 0xD3#8, rfl, by decide⟩, by decide, by decide, by decide, by decide⟩
theorem witness_WriteSpsr : condPassed .al super.cpsr = true ∧
    (∃ rm, rm ≠ 15#4 ∧ Instr.msrReg .al true 0b1111#4 1#4 = .msrReg .al true 0b1111#4 rm ∧ 0x2000#32 = super.readReg rm) ∧
    super.bank = some .svc ∧ user.bank = none := ⟨by decide, ⟨1#4, by decide, rfl, by decide⟩, by decide, by decide⟩

/-- The last word of the address space, in either byte order. -/
theorem witness_ByteOrder : AlignedTo 4 0xFFFFFFFC#32 ∧ user.platform.bigEndian = false ∧
    ({ user with platform := { user.platform with bigEndian := true } } : State).platform.bigEndian = true := by decide
theorem witness_MemoryIsAMap : Memory.wf [(0, 1#8), (0xFFFFFFFF, 2#8)] = true ∧ 0xFFFFFFFF < 2 ^ 32 := by decide
theorem witness_NonStoringInstructionsKeepMemory :
    ¬ mayStore (.ldrImmPost .al true 1#4 0#4 4#12) ∧ ∃ t, exec (.ldrImmPost .al true 1#4 0#4 4#12) top = .next t :=
  ⟨by (unfold mayStore; rintro (h | h | ⟨_, _, _, _, _, _, _, h⟩) <;> cases h), completes (by decide)⟩
theorem witness_StepKeepsSoundState : ∃ s t : State, s.Sound ∧ step s = .next t :=
  ⟨user, (completes (r := step user) (by decide)).choose, ⟨by decide, by unfold State.pcAligned; decide, by decide⟩,
    (completes (r := step user) (by decide)).choose_spec⟩
theorem witness_StepKeepsParameters : ∃ t, step super = .next t := completes (by decide)
/-- A step that stays in User mode and one that leaves it. -/
theorem witness_UserModeIsLeftOnlyByException : (user.cpsr.setWidth 5 = 0b10000#5 ∧ ∃ t, step user = .next t) ∧
    ∃ t, step (machine 0x10#32 0x8000#32 [] [(0x8000, 0xEF000011#32)]) = .next t :=
  ⟨⟨by decide, completes (by decide)⟩, completes (by decide)⟩
/-- r14_irq, which Supervisor mode cannot name. -/
theorem witness_OtherBanksAreKept : (∃ t, exec (.mrs .al false 0#4) super = .next t) ∧
    ∀ n, ¬ super.names n (.lr (some .irq)) := ⟨completes (by decide), by unfold State.names; decide⟩
theorem witness_SavedStatusFrame : (∃ t, exec (.msrReg .al true 0b1111#4 1#4) super = .next t) ∧
    (∃ t, exec (.swi .al 0#24) super = .next t) ∧ ∃ t, exec (.movsPcR14 .al) super = .next t :=
  ⟨completes (by decide), completes (by decide), completes (by decide)⟩
theorem witness_ModeNumbers : (0b00000#5) ≠ 0b10000#5 ∧ Mode.ofBits 0b00000#5 = none ∧ Mode.ofBits 0b11110#5 = none ∧
    psrM 0xFFFFFFF1#32 = 0b10001#5 ∧ psrM 0x92#32 = 0b10010#5 ∧ psrM 0xD3#32 = 0b10011#5 ∧ psrM 0x97#32 = 0b10111#5 ∧
    psrM 0x9B#32 = 0b11011#5 ∧ legalMode 0x0#32 = false := by decide
/-- Numbers at the edges of the three ranges. -/
theorem witness_BankingMap : (7#4).toNat < 8 ∧ 8 ≤ (8#4).toNat ∧ (12#4).toNat ≤ 12 ∧
    physReg (some .fiq) 8#4 ≠ physReg none 8#4 ∧ physReg (some .irq) 12#4 = physReg none 12#4 ∧
    physReg (some .irq) 13#4 ≠ physReg none 13#4 ∧ physReg none 15#4 = none := by decide

end Sys2Proof.Tests
end

section
/-! PROOFS. The state (10_state.md): every step keeps it sound. -/

namespace Sys2Proof.Machine

/-! ## Aligned addresses -/

/-- A sum of aligned addresses is aligned, around the end of the address space too. -/
theorem alignedTo_add {n : Nat} {a b : Word} (hn : n ∣ 2 ^ 32) (ha : AlignedTo n a) (hb : AlignedTo n b) :
    AlignedTo n (a + b) := by
  have hsum : n ∣ a.toNat + b.toNat := Nat.dvd_add (Nat.dvd_of_mod_eq_zero ha) (Nat.dvd_of_mod_eq_zero hb)
  rw [AlignedTo, BitVec.toNat_add, Nat.mod_mod_of_dvd _ hn]
  exact Nat.mod_eq_zero_of_dvd hsum

theorem Exc.vector_aligned (e : Exc) : AlignedTo 4 e.vector := by cases e <;> decide

theorem State.pcAligned_iff {s : State} :
    s.pcAligned ↔ (s.thumb = true → AlignedTo 2 s.pc) ∧ (s.thumb = false → AlignedTo 4 s.pc) := by
  cases h : s.thumb <;> simp [State.pcAligned, State.instrSize, h]

/-- The advance by an ARM instruction's size suits either state. -/
theorem State.pcAligned.add_four {s t : State} (hs : s.pcAligned) (hT : t.thumb = s.thumb)
    (hpc : t.pc = s.pc + 4#32) : t.pcAligned := by
  obtain ⟨h2, h4⟩ := State.pcAligned_iff.mp hs
  rw [State.pcAligned_iff, hT, hpc]
  exact ⟨fun h => alignedTo_add (by decide) (h2 h) (by decide), fun h => alignedTo_add (by decide) (h4 h) (by decide)⟩

/-! ## States that are sound -/

/-- Soundness sees the CPSR, the pc and memory alone. -/
theorem State.Sound.congr {s t : State} (hs : s.Sound) (hc : t.cpsr = s.cpsr) (hpc : t.pc = s.pc)
    (hm : t.mem = s.mem) : t.Sound where
  mode := hc ▸ hs.mode
  pc := by rw [State.pcAligned, instrSize_congr hc, hpc]; exact hs.pc
  mem := hm ▸ hs.mem

/-- The state after an ARM instruction that keeps the mode and the T bit. -/
theorem State.Sound.advanced {s t : State} (hs : s.Sound) (hM : psrM t.cpsr = psrM s.cpsr)
    (hT : t.thumb = s.thumb) (hpc : t.pc = s.pc + 4#32) (hm : Memory.wf t.mem = true) : t.Sound where
  mode := (legalMode_congr hM).trans hs.mode
  pc := hs.pc.add_four hT hpc
  mem := hm

/-- The state an exception enters: every vector suits ARM state (60_exceptions.md R152, R153). -/
theorem sound_of_entered {e : Exc} {p : Word} {t : State} (hpc : t.pc = e.vector) (hc : t.cpsr = entryPsr e p)
    (hm : Memory.wf t.mem = true) : t.Sound where
  mode := by rw [hc]; exact legalMode_entryPsr e p
  pc := by
    have harm : t.thumb = false := by rw [State.thumb, hc, psrT_entryPsr]
    simpa [State.pcAligned_iff, harm, hpc] using e.vector_aligned
  mem := hm

/-- Every exception, Reset included, enters a sound state. -/
theorem takeException_sound (e : Exc) (a : Word) {s : State} (hm : Memory.wf s.mem = true) :
    (takeException e a s).Sound := by
  have hm' : Memory.wf (takeException e a s).mem = true := by rwa [takeException_mem]
  unfold takeException at hm' ⊢
  split at hm' <;> exact sound_of_entered rfl rfl hm'

/-! ## The decoder in ARM state -/

/-- Every row of the ARM table builds an instruction under the condition it is given. -/
theorem condOf_build {r : ArmRow} (hr : r ∈ specialRows ++ generalRows) (c : Cond) (w : Word) :
    condOf (r.build c w) = some c := by
  revert r
  simp [specialRows, generalRows, branchAndTrapRows, loadRows, storeRows, blockAndSwapRows, coprocessorRows, statusRows,
    dataRows, condOf]

/-- An ARM word decodes to an instruction under the word's condition, so to none of the Thumb instructions. -/
theorem decodeArm_instr {w : Word} {i : Instr} (h : decodeArm w = .instr i) :
    ∃ c, Cond.ofBits (bitsAt w 28 4) = some c ∧ condOf i = some c := by
  unfold decodeArm at h
  split at h
  · cases h
  · rename_i c hc
    split at h
    · rename_i r hr
      cases h
      exact ⟨c, hc, condOf_build (List.mem_of_find?_eq_some hr) c w⟩
    · cases h

/-! ## What runs keeps the state sound -/

/-- An instruction keeps the state sound, but for the first half of Thumb's BL in ARM state, whose advance by 2
suits Thumb state alone. -/
theorem exec_sound {i : Instr} {s t : State} (hs : s.Sound) (hi : s.thumb = false → ∀ x, i ≠ .thumbBlFirst x)
    (h : exec i s = .next t) : t.Sound := by
  obtain ⟨status, -, hm⟩ := exec_tame h
  have hmem := hm hs.mem
  cases status with
  | kept hc _ hpc =>
    have hM : psrM t.cpsr = psrM s.cpsr := psrM_congr fun j hj => hc j (by omega)
    have hT : t.thumb = s.thumb := hc 5 (by omega)
    rcases hpc with hpc | ⟨hthumb, harm⟩
    · exact hs.advanced hM hT hpc hmem
    · obtain ⟨h2, h4⟩ := State.pcAligned_iff.mp hs.pc
      refine ⟨(legalMode_congr hM).trans hs.mode, ?_, hmem⟩
      rw [State.pcAligned_iff, hT]
      exact ⟨fun h => hthumb h (h2 h), fun h => harm h (h4 h)⟩
  | thumbNext hx hc _ hpc =>
    obtain ⟨x, rfl⟩ := hx
    have hthumb : s.thumb = true := by
      by_contra hn
      exact hi (by simpa using hn) x rfl
    have hT : t.thumb = true := by rw [State.thumb, hc]; exact hthumb
    refine ⟨hc ▸ hs.mode, ?_, hmem⟩
    simpa [State.pcAligned_iff, hT, hpc] using
      alignedTo_add (by decide) ((State.pcAligned_iff.mp hs.pc).1 hthumb) (show AlignedTo 2 2#32 by decide)
  | entered e _ hpc hc _ => exact sound_of_entered hpc hc hmem
  | returned m _ hl hc _ hpc => exact ⟨hc ▸ hl, hpc, hmem⟩
  | msr _ _ _ hT hl _ hpc => exact ⟨hl, hs.pc.add_four hT hpc, hmem⟩
  | msrSpsr _ _ _ _ hc _ hpc => exact hs.advanced (by rw [hc]) (by rw [State.thumb, hc]; rfl) hpc hmem

/-- Every outcome of `ExecOther` that its contract allows is sound (45_other_instructions.md R141). -/
theorem execOther_sound {w : Word} {s t : State} (hs : s.Sound) (h : execOther w s = .next t) : t.Sound := by
  obtain ⟨-, hm, ⟨e, -, hpc, hc, -⟩ | ⟨hl, hpc, -⟩⟩ := execOther_next h
  · exact sound_of_entered hpc hc (hm hs.mem)
  · exact ⟨hl, hpc, hm hs.mem⟩

/-- An instruction skipped, or run, under a condition. -/
theorem whenPassed_sound {c : Cond} {s t : State} {run : Result} (hs : s.Sound) (h : whenPassed c s run = .next t)
    (hrun : run = .next t → t.Sound) : t.Sound := by
  rcases whenPassed_next h with ⟨-, h⟩ | ⟨-, rfl⟩
  · exact hrun h
  · exact hs.advanced rfl rfl rfl hs.mem

/-- What the decoder finds in the bits fetched keeps the state sound: in ARM state it finds no Thumb instruction. -/
theorem runDecoded_sound {w : Word} {s t : State} (hs : s.Sound)
    (h : runDecoded (decode (fetchedCode s.thumb w)) s = .next t) : t.Sound := by
  cases hd : decode (fetchedCode s.thumb w) with
  | instr i =>
    rw [hd] at h
    refine exec_sound hs (fun harm x hx => ?_) h
    subst hx
    rw [harm] at hd
    obtain ⟨c, -, hcond⟩ := decodeArm_instr hd
    cases hcond
  | other c v => rw [hd] at h; exact whenPassed_sound hs h (execOther_sound hs)
  | refused r => rw [hd] at h; cases h

/-- An aborted fetch is the Prefetch Abort or, in ARM state, may be skipped (60_exceptions.md R166). -/
theorem runAborted_sound {s t : State} (hs : s.Sound) (h : runAborted s = .next t) : t.Sound := by
  unfold runAborted at h
  split at h
  · exact next_inj h ▸ takeException_sound .pabt _ hs.mem
  split at h
  · exact next_inj h ▸ takeException_sound .pabt _ hs.mem
  · exact next_inj h ▸ hs.advanced rfl rfl rfl hs.mem

theorem fetchAndRun_sound {s t : State} (hs : s.Sound) (h : fetchAndRun s = .next t) : t.Sound := by
  have hs' : s.consulted.Sound := hs.congr rfl rfl rfl
  obtain ⟨-, ⟨-, h⟩ | ⟨-, h⟩⟩ := fetchAndRun_next h
  · exact runAborted_sound hs' h
  · exact runDecoded_sound hs' h

/-- Settles O52: a step takes Reset, FIQ or IRQ, each of which enters a sound state, or runs an instruction. -/
theorem stepKeepsSoundState : Obligations.StepKeepsSoundState := by
  intro s t hs h
  have hs' : s.passBoundary.Sound := hs.congr rfl rfl rfl
  obtain ⟨-, ⟨-, rfl⟩ | ⟨-, -, rfl⟩ | ⟨-, -, -, rfl⟩ | ⟨-, -, -, h⟩⟩ := step_next h
  · exact takeException_sound .reset s.pc hs'.mem
  · exact sound_of_entered rfl rfl hs'.mem
  · exact sound_of_entered rfl rfl hs'.mem
  · exact fetchAndRun_sound hs' h

end Sys2Proof.Machine
end

section
/-! PROOFS. The state (10_state.md): the register banks and the saved status registers. -/

namespace Sys2Proof.Machine

/-! ## The modes and the banking map -/

theorem bankOf_of_mode {p : Word} {m : Mode} (h : psrM p = m.bits) : bankOf p = m.bank := by
  simp [bankOf, h]

/-- No bank of its own: an illegal number, User or System mode (R22, log 18). -/
theorem bankOf_eq_none {p : Word} :
    bankOf p = none ↔ legalMode p = false ∨ psrM p = Mode.usr.bits ∨ psrM p = Mode.sys.bits := by
  cases hm : Mode.ofBits (psrM p) with
  | none =>
    have hbank : bankOf p = none := by simp [bankOf, hm]
    have hlegal : legalMode p = false := by simp [legalMode, hm]
    exact iff_of_true hbank (.inl hlegal)
  | some m =>
    have hbits := Mode.bits_of_ofBits hm
    have hlegal : legalMode p = true := by simp [legalMode, hm]
    rw [bankOf_of_mode hbits, hbits, hlegal]
    cases m <;> decide

/-- Settles O59: each of the seven numbers is looked up; every other one fails all seven tests. -/
theorem modeNumbers : Obligations.ModeNumbers := by
  refine ⟨rfl, rfl, rfl, rfl, rfl, rfl, rfl, ?_, fun p => ?_⟩
  · intro m h1 h2 h3 h4 h5 h6 h7
    simp [Mode.ofBits, h1, h2, h3, h4, h5, h6, h7]
  · exact ⟨bankOf_of_mode (m := .fiq), bankOf_of_mode (m := .irq), bankOf_of_mode (m := .svc),
      bankOf_of_mode (m := .abt), bankOf_of_mode (m := .und), bankOf_eq_none⟩

theorem physReg_low {n : RegNum} (b : Bank) (h : n.toNat < 8) : physReg b n = some (.low ⟨n.toNat, h⟩) := by
  simp [physReg, h]

theorem physReg_mid {n : RegNum} (b : Bank) (h8 : 8 ≤ n.toNat) (h12 : n.toNat ≤ 12) :
    physReg b n = if b = some .fiq then some (.midFiq ⟨n.toNat - 8, by omega⟩)
      else some (.mid ⟨n.toNat - 8, by omega⟩) := by
  simp [physReg, Nat.not_lt.mpr h8, show n.toNat < 13 by omega]

theorem physReg_sp (b : Bank) : physReg b 13#4 = some (.sp b) := rfl

/-- Every physical register is named by some number in some bank. -/
theorem exists_physReg (q : PhysReg) : ∃ b n, physReg b n = some q := by
  cases q with
  | low i => exact ⟨none, BitVec.ofNat 4 i, by revert i; decide⟩
  | mid i => exact ⟨none, BitVec.ofNat 4 (8 + i), by revert i; decide⟩
  | midFiq i => exact ⟨some .fiq, BitVec.ofNat 4 (8 + i), by revert i; decide⟩
  | sp b => exact ⟨b, 13#4, physReg_sp b⟩
  | lr b => exact ⟨b, 14#4, physReg_lr b⟩

/-- Settles O60, by the three ranges of register numbers. -/
theorem bankingMap : Obligations.BankingMap := by
  intro b b' n n'
  refine ⟨fun h => ?_, fun h8 h12 => ?_, fun h => ?_, physReg_eq_none, fun h => ?_, exists_physReg⟩
  · rw [physReg_low b h, physReg_low b' h]
  · rw [physReg_mid b h8 h12, physReg_mid b' h8 h12]
    by_cases hb : b = some .fiq <;> by_cases hb' : b' = some .fiq <;> simp [hb, hb']
  · rcases h with rfl | rfl
    · simp [physReg_sp]
    · simp [physReg_lr]
  · cases hq : physReg b n' with
    | none => exact (physReg_eq_none.mp (h.trans hq)).trans (physReg_eq_none.mp hq).symm
    | some q => exact physReg_inj (h.trans hq) hq

/-! ## Reset -/

/-- Settles O53. -/
theorem resetStateIsSound : Obligations.ResetStateIsSound where
  mode := by decide
  pc := by unfold State.pcAligned; decide
  mem := rfl

/-- Settles O54. -/
theorem resetValues : Obligations.ResetValues := by
  unfold Obligations.ResetValues
  decide

/-! ## The saved status registers -/

/-- Settles O58: of what an instruction can do to the status registers, only an exception entry and an MSR to the
SPSR write a saved one. -/
theorem savedStatusFrame : Obligations.SavedStatusFrame := by
  intro i s t h
  cases (exec_tame h).status with
  | kept _ hs _ => exact .inl hs
  | thumbNext _ _ hs _ => exact .inl hs
  | returned _ _ _ _ hs _ => exact .inl hs
  | msr _ _ _ _ _ hs _ => exact .inl hs
  | msrSpsr _ _ hi _ _ _ _ => exact .inr (hi.imp_right .inl)
  | entered e he hpc hc hs =>
    refine .inr (.inr (.inr ⟨e, he, hpc, ?_, ?_, fun m hm => ?_⟩))
    · rw [hc]; exact psrM_entryPsr e s.cpsr
    · rw [hs, SpsrFile.get_set_same]
    · rw [hs, SpsrFile.get_set, if_neg hm]

/-! ## Registers of banks that are not current -/

/-- Between `s` and `u` only registers that the mode of `s` can name were written, and the CPSR was kept. -/
structure WritesOwnBank (s u : State) : Prop where
  cpsr : u.cpsr = s.cpsr
  regs : ∀ q, (∀ n, ¬ s.names n q) → u.regs.get q = s.regs.get q

theorem WritesOwnBank.of_regs {s u : State} (hc : u.cpsr = s.cpsr) (hr : u.regs = s.regs) : WritesOwnBank s u :=
  ⟨hc, fun _ _ => by rw [hr]⟩

theorem writesOwnBank_refl (s : State) : WritesOwnBank s s := .of_regs rfl rfl

theorem Accessed.writesOwnBank {s u : State} (h : Accessed s u) : WritesOwnBank s u := .of_regs h.cpsr h.regs

section
variable {s u : State} (h : WritesOwnBank s u)
include h

theorem WritesOwnBank.bank : u.bank = s.bank := by rw [State.bank, h.cpsr]; rfl

theorem WritesOwnBank.writeBank (n : RegNum) (v : Word) : WritesOwnBank s (u.writeBank s.bank n v) where
  cpsr := by simp [h.cpsr]
  regs q hq := by rw [State.writeBank_get, if_neg (show ¬ physReg s.bank n = some q from hq n), h.regs q hq]

theorem WritesOwnBank.writeReg (n : RegNum) (v : Word) : WritesOwnBank s (u.writeReg n v) := by
  rw [State.writeReg, h.bank]; exact h.writeBank n v

theorem WritesOwnBank.writeBackIf (wb : Bool) (n : RegNum) (v : Word) : WritesOwnBank s (u.writeBackIf wb n v) := by
  unfold State.writeBackIf
  split
  · exact h.writeReg n v
  · exact h

theorem WritesOwnBank.drew (n : Nat) : WritesOwnBank s (u.drew n) := ⟨h.cpsr, h.regs⟩

end

theorem WritesOwnBank.writeLoaded {s u : State} (h : WritesOwnBank s u) (l : Loaded) :
    WritesOwnBank s (writeLoaded s.bank l u) := by
  induction l generalizing u with
  | nil => exact h
  | cons x l ih => exact ih (h.writeBank x.1 x.2)

/-- A register `q` that the mode of `s` cannot name is kept, or is the r14 of an exception entered. -/
def OtherBanksKept (s t : State) : Prop :=
  ∀ q, (∀ n, ¬ s.names n q) → t.regs.get q = s.regs.get q ∨
    ∃ e : Exc, q = .lr (some e.mode) ∧ t.pc = e.vector ∧ t.spsrs.get e.mode = s.cpsr

theorem WritesOwnBank.otherBanksKept {s u t : State} (h : WritesOwnBank s u) (hr : t.regs = u.regs) :
    OtherBanksKept s t := fun q hq => .inl (by rw [hr, h.regs q hq])

/-! ### The ends of an instruction -/

section
variable {s u t : State} (hu : WritesOwnBank s u)
include hu

theorem otherBanksKept_setPc {target : Word} (h : setPc target u = .next t) : OtherBanksKept s t := by
  obtain ⟨-, rfl⟩ := setPc_next.mp h
  exact hu.otherBanksKept rfl

theorem otherBanksKept_exceptionReturn {target : Word} (h : exceptionReturn target u = .next t) :
    OtherBanksKept s t := by
  obtain ⟨_, -, -, -, rfl⟩ := exceptionReturn_next h
  exact hu.otherBanksKept rfl

theorem otherBanksKept_advanceArm (h : (Host.Outcome.next u.advanceArm : Result) = .next t) : OtherBanksKept s t := by
  cases h
  exact hu.otherBanksKept rfl

theorem otherBanksKept_raise {e : Exc} (he : e ≠ .reset) (h : raise e u = .next t) : OtherBanksKept s t := by
  obtain ⟨k, hk⟩ : ∃ k, e.offset u.thumb = some k := by cases e <;> simp_all [Exc.offset]
  obtain rfl := next_inj h
  rw [takeException_eq hk]
  intro q hq
  by_cases hlink : q = .lr (some e.mode)
  · exact .inr ⟨e, hlink, rfl, by simp [hu.cpsr]⟩
  · exact .inl (by rw [enterException_regs, RegFile.get_set_ne _ _ hlink, hu.regs q hq])

end

theorem otherBanksKept_whenPassed {c : Cond} {s t : State} {run : Result} (h : whenPassed c s run = .next t)
    (hrun : run = .next t → OtherBanksKept s t) : OtherBanksKept s t := by
  rcases whenPassed_next h with ⟨-, h⟩ | ⟨-, rfl⟩
  · exact hrun h
  · exact (writesOwnBank_refl s).otherBanksKept rfl

/-! ### The operations -/

theorem otherBanksKept_finishData {setsFlags : Bool} {rd : RegNum} {result flags : Word} {s t : State}
    (h : finishData setsFlags rd result flags s = .next t) : OtherBanksKept s t := by
  have hs := writesOwnBank_refl s
  unfold finishData at h
  split at h
  · split at h
    · exact otherBanksKept_exceptionReturn hs h
    · exact otherBanksKept_setPc hs h
  · cases h
    exact (hs.writeReg rd result).otherBanksKept (by split <;> rfl)

theorem otherBanksKept_mrsOp {r : Bool} {rd : RegNum} {s t : State} (h : mrsOp r rd s = .next t) :
    OtherBanksKept s t := by
  have hs := writesOwnBank_refl s
  unfold mrsOp at h
  split at h
  · cases h
  split at h
  · split at h
    · cases h
    · exact otherBanksKept_advanceArm (hs.writeReg _ _) h
  · exact otherBanksKept_advanceArm (hs.writeReg _ _) h

theorem otherBanksKept_msrOp {r : Bool} {m : BitVec 4} {v : Word} {s t : State} (h : msrOp r m v s = .next t) :
    OtherBanksKept s t := by
  have hs := writesOwnBank_refl s
  unfold msrOp msrSpsr msrCpsr at h
  dsimp only at h
  split at h
  · split at h
    · cases h
    · cases h; exact hs.otherBanksKept rfl
  · split at h
    · cases h
    split at h
    · cases h
    · cases h; exact hs.otherBanksKept rfl

theorem otherBanksKept_coprocOp {c : Cond} {w : Word} {s t : State} (h : coprocOp c w s = .next t) :
    OtherBanksKept s t :=
  otherBanksKept_whenPassed h fun h => by
    split at h
    · cases h
    · exact otherBanksKept_raise (writesOwnBank_refl s) (by decide) h

theorem otherBanksKept_loadOp {w : Width} {a : Addressing} {rd : RegNum} {s t : State}
    (h : loadOp w a rd s = .next t) : OtherBanksKept s t := by
  unfold loadOp at h
  split at h
  · cases h
  · rename_i u hu
    exact otherBanksKept_raise ((accessed_memRead_abort hu).writesOwnBank.writeBackIf _ _ _) (by decide) h
  · rename_i v u hu
    have hu' := (accessed_memRead_ok hu).writesOwnBank.writeBackIf a.writesBack a.rn (a.index s)
    dsimp only at h
    split at h
    · exact otherBanksKept_setPc hu' h
    · exact otherBanksKept_advanceArm (hu'.writeReg rd v) h

theorem otherBanksKept_storeOp {w : Width} {a : Addressing} {rd : RegNum} {s t : State}
    (h : storeOp w a rd s = .next t) : OtherBanksKept s t := by
  unfold storeOp at h
  split at h
  · cases h
  · rename_i u hu
    exact otherBanksKept_raise ((accessed_memWrite_abort hu).writesOwnBank.writeBackIf _ _ _) (by decide) h
  · rename_i u hu
    exact otherBanksKept_advanceArm ((accessed_memWrite_ok hu).writesOwnBank.writeBackIf _ _ _) h

theorem otherBanksKept_ldrOp {c : Cond} {a : Addressing} {rd : RegNum} {s t : State} (h : ldrOp c a rd s = .next t) :
    OtherBanksKept s t :=
  otherBanksKept_whenPassed h fun h => by
    split at h
    · cases h
    · exact otherBanksKept_loadOp h

theorem otherBanksKept_ldrbOp {c : Cond} {a : Addressing} {rd : RegNum} {s t : State}
    (h : ldrbOp c a rd s = .next t) : OtherBanksKept s t :=
  otherBanksKept_whenPassed h fun h => by
    split at h
    · cases h
    split at h
    · cases h
    · exact otherBanksKept_loadOp h

theorem otherBanksKept_strOp {w : Width} {c : Cond} {a : Addressing} {rd : RegNum} {s t : State}
    (h : strOp w c a rd s = .next t) : OtherBanksKept s t :=
  otherBanksKept_whenPassed h fun h => by
    split at h
    · cases h
    split at h
    · cases h
    · exact otherBanksKept_storeOp h

theorem otherBanksKept_swapOp {w : Width} {rn rd rm : RegNum} {s t : State} (h : swapOp w rn rd rm s = .next t) :
    OtherBanksKept s t := by
  unfold swapOp at h
  split at h
  · cases h
  · rename_i u hu
    exact otherBanksKept_raise (accessed_memRead_abort hu).writesOwnBank (by decide) h
  · rename_i v u hu
    have hread := accessed_memRead_ok hu
    split at h
    · cases h
    · rename_i x hx
      exact otherBanksKept_raise (hread.trans (accessed_memWrite_abort hx)).writesOwnBank (by decide) h
    · rename_i x hx
      exact otherBanksKept_advanceArm ((hread.trans (accessed_memWrite_ok hx)).writesOwnBank.writeReg rd v) h

theorem otherBanksKept_swpOp {w : Width} {c : Cond} {rn rd rm : RegNum} {s t : State}
    (h : swpOp w c rn rd rm s = .next t) : OtherBanksKept s t :=
  otherBanksKept_whenPassed h fun h => by
    split at h
    · cases h
    · exact otherBanksKept_swapOp h

/-- An LDM with S = 0 loads the bank of the current mode (42_data_transfer.md R117). -/
theorem otherBanksKept_ldm {c : Cond} {p u w : Bool} {rn : RegNum} {list : BitVec 16} {s t : State}
    (h : execLdm c p u false w rn list s = .next t) : OtherBanksKept s t :=
  otherBanksKept_whenPassed h fun h => by
    split at h
    · cases h
    have hbank : ldmBank false list s.bank = s.bank := by simp [ldmBank]
    simp only [loadMultiple, hbank] at h
    split at h
    · cases h
    · rename_i l x hx
      exact otherBanksKept_raise (((accessed_loadBlock hx).writesOwnBank.writeLoaded l).writeReg _ _) (by decide) h
    · rename_i l x hx
      have hv := ((accessed_loadBlock hx).writesOwnBank.writeBackIf w rn
        (blockFinalBase u (s.readReg rn) (blockSize list))).writeLoaded l
      split at h
      · exact otherBanksKept_setPc hv (by simpa using h)
      · exact otherBanksKept_advanceArm hv h

theorem otherBanksKept_stm {c : Cond} {p u b w : Bool} {rn : RegNum} {list : BitVec 16} {s t : State}
    (h : execStm c p u b w rn list s = .next t) : OtherBanksKept s t :=
  otherBanksKept_whenPassed h fun h => by
    split at h
    · cases h
    unfold storeMultiple at h
    dsimp only at h
    split at h
    · cases h
    · rename_i x hx
      exact otherBanksKept_raise ((accessed_storeBlock (.inr hx)).writesOwnBank.writeBackIf _ _ _) (by decide) h
    · rename_i x hx
      exact otherBanksKept_advanceArm ((accessed_storeBlock (.inl hx)).writesOwnBank.writeBackIf _ _ _) h

/-! ### Every instruction -/

/-- Every instruction but an LDM with S = 1 writes registers through the bank of the current mode. -/
theorem exec_otherBanksKept {i : Instr} {s t : State} (hi : ∀ c p u w rn l, i ≠ .ldm c p u true w rn l)
    (h : exec i s = .next t) : OtherBanksKept s t := by
  have hs := writesOwnBank_refl s
  cases i <;> simp only [exec] at h
  case b => exact otherBanksKept_whenPassed h (otherBanksKept_setPc hs)
  case bl => exact otherBanksKept_whenPassed h (otherBanksKept_setPc (hs.writeReg _ _))
  case swi | udef => exact otherBanksKept_whenPassed h (otherBanksKept_raise hs (by decide))
  case thumbSwi => exact otherBanksKept_raise hs (by decide) h
  case thumbBlFirst => cases h; exact (hs.writeReg _ _).otherBanksKept rfl
  case thumbBlSecond => exact otherBanksKept_setPc ((hs.writeReg _ _).drew 1) h
  case thumbMovPcR14 => exact otherBanksKept_setPc hs h
  case mrs => exact otherBanksKept_whenPassed h otherBanksKept_mrsOp
  case msrReg =>
    refine otherBanksKept_whenPassed h fun h => ?_
    split at h
    · cases h
    · exact otherBanksKept_msrOp h
  case msrImm => exact otherBanksKept_whenPassed h otherBanksKept_msrOp
  case swp | swpb => exact otherBanksKept_swpOp h
  case stm => exact otherBanksKept_stm h
  case ldm c p u b w rn list =>
    cases b with
    | true => exact absurd rfl (hi c p u w rn list)
    | false => exact otherBanksKept_ldm h
  case movReg | movsReg | movImm | movsImm | subReg | subsReg | subImm | subsImm | movPcR14 | movsPcR14 |
      subsPcR14Imm4 | subsPcR14Imm8 => exact otherBanksKept_whenPassed h otherBanksKept_finishData
  case ldrImmPre | ldrImmPost | ldrRegPre | ldrRegPost | ldrRdR14Minus8 => exact otherBanksKept_ldrOp h
  case ldrbImmPre | ldrbImmPost | ldrbRegPre | ldrbRegPost => exact otherBanksKept_ldrbOp h
  case strImmPre | strImmPost | strRegPre | strRegPost | strbImmPre | strbImmPost | strbRegPre | strbRegPost =>
    exact otherBanksKept_strOp h
  case cdp | mrc | mcr | ldc | stc => exact otherBanksKept_coprocOp h

/-- Settles O57: an LDM with S = 1 is the one instruction that writes another bank without an exception. -/
theorem otherBanksAreKept : Obligations.OtherBanksAreKept := by
  intro i s t q h hq
  by_cases hi : ∃ c p u w rn l, i = .ldm c p u true w rn l
  · exact .inr (.inl hi)
  · have hkept := exec_otherBanksKept (fun c p u w rn l he => hi ⟨c, p, u, w, rn, l, he⟩) h
    exact (hkept q hq).imp_right .inr

end Sys2Proof.Machine
end

section
/-! PROOFS. Memory (20_memory.md): the byte order, memory as a map, the parameters, and single transfers that meet a
device. -/

namespace Sys2Proof.Machine

/-! ## Byte order (20_memory.md R52) -/

/-- The bytes of a word from place `k` up are the first bytes of the word shifted down by `k` bytes. -/
theorem littleBytes_ushiftRight (n k : Nat) (v : Word) :
    littleBytes n (v >>> (8 * k)) = (littleBytes (k + n) v).drop k := by
  induction k generalizing v with
  | zero => simp
  | succ k ih =>
    rw [show k + 1 + n = (k + n) + 1 by omega, littleBytes, List.drop_succ_cons, ← ih, ← BitVec.shiftRight_add]
    congr 2; omega

theorem take_littleBytes (n m : Nat) (v : Word) : (littleBytes (n + m) v).take n = littleBytes n v := by
  induction n generalizing v with
  | zero => rfl
  | succ n ih => rw [show n + 1 + m = (n + m) + 1 by omega, littleBytes, List.take_succ_cons, ih, littleBytes]

/-- The `n` bytes at place `k` of four are those of the word of all four, shifted down by `k` bytes. -/
theorem littleBytes_slice {l : List Byte} (hl : l.length = 4) {k n : Nat} (h : k + n ≤ 4) :
    littleBytes n (ofLittleBytes l >>> (8 * k)) = (l.drop k).take n := by
  obtain ⟨m, hm⟩ := Nat.le.dest h
  have hall : littleBytes (k + (n + m)) (ofLittleBytes l) = l := by
    rw [← Nat.add_assoc, hm, ← hl]; exact littleBytes_ofLittleBytes hl.le
  rw [← take_littleBytes n m, littleBytes_ushiftRight, hall]

/-- By how many bytes the `n` bytes at place `k` of a word stand above its low end (R52). -/
def bytePlace (bigEndian : Bool) (k n : Nat) : Nat := if bigEndian then 4 - (k + n) else k

/-- The value of `n` bytes at place `k` of four, taken out of the value of the four. -/
theorem ofBytes_slice (big : Bool) {l : List Byte} (hl : l.length = 4) {k n : Nat} (h : k + n ≤ 4) :
    ofBytes big ((l.drop k).take n) = ofLittleBytes (littleBytes n (ofBytes big l >>> (8 * bytePlace big k n))) := by
  cases big with
  | false => exact congrArg ofLittleBytes (littleBytes_slice hl h).symm
  | true =>
    have hrev : ((l.drop k).take n).reverse = (l.reverse.drop (4 - (k + n))).take n := by
      rw [List.reverse_take, List.reverse_drop, List.drop_take, List.length_drop, hl]
      congr 2 <;> omega
    simp only [ofBytes, bytePlace, if_true, hrev]
    rw [littleBytes_slice (by simpa using hl) (by omega)]

theorem Memory.readList_eq_map (m : Memory) (a n : Nat) : m.readList a n = (List.range' a n).map m.read := by
  induction n generalizing a with
  | zero => rfl
  | succ n ih => rw [Memory.readList, ih, List.range'_succ, List.map_cons]

/-- The bytes an access reads inside four. -/
theorem Memory.readList_slice (m : Memory) (a : Nat) {k n : Nat} (h : k + n ≤ 4) :
    ((m.readList a 4).drop k).take n = m.readList (a + k) n := by
  simp only [Memory.readList_eq_map, ← List.map_drop, ← List.map_take, List.drop_range', Nat.mul_one]
  rw [List.take_range'_of_length_ge (by omega)]

theorem ofLittleBytes_littleBytes (w : Width) (v : Word) : ofLittleBytes (littleBytes w.bytes v) = w.truncate v :=
  ofBytes_toBytes false w v

/-- An address inside an aligned word does not wrap. -/
theorem toNat_add_of_aligned {a : Word} (ha : AlignedTo 4 a) {k : Nat} (hk : k < 4) :
    (a + BitVec.ofNat 32 k).toNat = a.toNat + k := by
  have := end_of_aligned (w := .word) ha
  simp only [Width.bytes] at this
  simp only [BitVec.toNat_add, BitVec.toNat_ofNat]
  omega

/-- An access inside an aligned word reads the bits of that word that the byte order gives (R52). -/
theorem State.memValue_slice (s : State) {a : Word} (ha : AlignedTo 4 a) (w : Width) {k : Nat} (h : k + w.bytes ≤ 4) :
    s.memValue w (a + BitVec.ofNat 32 k) =
      w.truncate (s.memValue .word a >>> (8 * bytePlace s.platform.bigEndian k w.bytes)) := by
  have hk : k < 4 := by cases w <;> simp only [Width.bytes] at h <;> omega
  rw [State.memValue, toNat_add_of_aligned ha hk, ← Memory.readList_slice _ _ h,
    ofBytes_slice _ (by simp [Memory.readList_eq_map]) h, ofLittleBytes_littleBytes]
  rfl

/-- The upper half of a word has no bit above a halfword's. -/
theorem truncate_half_ushiftRight (v : Word) : Width.half.truncate (v >>> 16) = v >>> 16 := by
  apply BitVec.eq_of_toNat_eq
  have := v.isLt
  simp only [Width.truncate, BitVec.toNat_and, BitVec.toNat_ushiftRight, Nat.shiftRight_eq_div_pow,
    show (0xFFFF#32).toNat = 2 ^ 16 - 1 by rfl, Nat.and_two_pow_sub_one_eq_mod]
  omega

/-- Settles O49: bytes and halfwords are accesses inside the word. -/
theorem byteOrder : Obligations.ByteOrder := by
  intro s a ha
  have byteAt := fun k (hk : k < 4) => s.memValue_slice ha .byte (k := k) hk
  have half0 := s.memValue_slice ha .half (k := 0) (by decide)
  have half2 := s.memValue_slice ha .half (k := 2) (by decide)
  refine ⟨fun hb => ?_, fun hb => ?_⟩
  · rw [hb] at byteAt half0 half2
    exact ⟨byteAt, half0, half2.trans (truncate_half_ushiftRight _)⟩
  · rw [hb] at byteAt half0 half2
    refine ⟨fun k hk => ?_, half0.trans (truncate_half_ushiftRight _), half2⟩
    have hplace : bytePlace true k Width.byte.bytes = 3 - k := by simp only [bytePlace, Width.bytes, if_true]; omega
    exact hplace ▸ byteAt k hk

/-! ## Memory as a map (R60) -/

/-- Settles O50, by the laws of one write; two memories in the form are compared entry by entry. -/
theorem memoryIsAMap : Obligations.MemoryIsAMap := by
  intro m a b hm ha
  refine ⟨Memory.wf_write hm ha b, fun c => ?_, fun m' hm' h => Memory.eq_of_read hm' hm h⟩
  split
  · next hc => exact hc ▸ Memory.read_write_same (Memory.sorted_of_wf hm) a b
  · next hc => exact Memory.read_write_ne m b hc

/-! ## The parameters (00_scope.md section 5) -/

theorem whenPassed_platform {c : Cond} {s t : State} {run : Result} (h : whenPassed c s run = .next t)
    (hrun : run = .next t → t.platform = s.platform) : t.platform = s.platform := by
  rcases whenPassed_next h with ⟨-, h⟩ | ⟨-, rfl⟩
  · exact hrun h
  · rfl

theorem runDecoded_platform {d : Decoded} {s t : State} (h : runDecoded d s = .next t) : t.platform = s.platform := by
  cases d with
  | instr i => exact (exec_tame h).platform
  | other c w => exact whenPassed_platform h fun h => (execOther_next h).1
  | refused r => cases h

theorem raise_platform {e : Exc} {s t : State} (h : raise e s = .next t) : t.platform = s.platform := by
  rw [← next_inj h, takeException_platform]

theorem runAborted_platform {s t : State} (h : runAborted s = .next t) : t.platform = s.platform := by
  unfold runAborted at h
  split at h
  · exact raise_platform h
  split at h
  · exact (raise_platform h).trans (s.drew_platform 1)
  · rw [← next_inj h]; rfl

theorem fetchAndRun_platform {s t : State} (h : fetchAndRun s = .next t) : t.platform = s.platform := by
  obtain ⟨-, ⟨-, h⟩ | ⟨-, h⟩⟩ := fetchAndRun_next h
  · exact (runAborted_platform h).trans s.consulted_platform
  · exact (runDecoded_platform h).trans s.consulted_platform

/-- Settles O55: neither an exception taken at the boundary nor an instruction writes the parameters. -/
theorem stepKeepsParameters : Obligations.StepKeepsParameters := by
  intro s t h
  obtain ⟨-, ⟨-, rfl⟩ | ⟨-, -, rfl⟩ | ⟨-, -, -, rfl⟩ | ⟨-, -, -, h⟩⟩ := step_next h
  · rfl
  · rfl
  · rfl
  · exact (fetchAndRun_platform h).trans s.passBoundary_platform

end Sys2Proof.Machine
end

section
/-! PROOFS. Single transfers (42_data_transfer.md R110 to R112): what each form runs, what a completed access leaves in
the registers, and the accesses that meet a device (20_memory.md R60, R64). -/

namespace Sys2Proof.Machine

/-! ## What a form runs -/

theorem Addressing.writesBack_iff {a : Addressing} : a.writesBack = true ↔ WritesBack a := by
  simp [Addressing.writesBack, WritesBack]

/-- The operand tests of the model are those of R110. -/
theorem Addressing.refusal?_eq_none {a : Addressing} {rd : RegNum} :
    a.refusal? rd = none ↔ ¬ TransferOperandsRefused a rd := by
  simp [Addressing.refusal?, TransferOperandsRefused, ← Addressing.writesBack_iff, ite_eq_iff]

/-- LDR has a word and LDRB a byte. -/
theorem exec_of_loadForm {i : Instr} {f : TransferForm} (hf : loadForm i = some f) (s : State) :
    (f.width = .word ∧ exec i s = ldrOp f.cond f.at_ f.rd s) ∨
      (f.width = .byte ∧ exec i s = ldrbOp f.cond f.at_ f.rd s) := by
  cases i <;> cases hf
  case ldrImmPre | ldrImmPost | ldrRegPre | ldrRegPost | ldrRdR14Minus8 => exact .inl ⟨rfl, rfl⟩
  case ldrbImmPre | ldrbImmPost | ldrbRegPre | ldrbRegPost => exact .inr ⟨rfl, rfl⟩

theorem exec_of_storeForm {i : Instr} {f : TransferForm} (hf : storeForm i = some f) (s : State) :
    exec i s = strOp f.width f.cond f.at_ f.rd s := by
  cases i <;> cases hf <;> rfl

/-- A load whose condition passes and whose operands are not refused is the load itself. -/
theorem exec_load {i : Instr} {f : TransferForm} {s : State} (hf : loadForm i = some f)
    (hc : condPassed f.cond s.cpsr = true) (ho : ¬ TransferOperandsRefused f.at_ f.rd)
    (hrd : f.width = .byte → f.rd ≠ 15#4) : exec i s = loadOp f.width f.at_ f.rd s := by
  have ho' := Addressing.refusal?_eq_none.mpr ho
  obtain ⟨hw, h⟩ | ⟨hw, h⟩ := exec_of_loadForm hf s
  · rw [h, ldrOp, whenPassed_pos _ hc, ho', hw]
  · rw [h, ldrbOp, whenPassed_pos _ hc, ho', hw]
    exact if_neg (hrd hw)

/-- A store whose condition passes and whose operands are not refused is the store itself. -/
theorem exec_store {i : Instr} {f : TransferForm} {s : State} (hf : storeForm i = some f)
    (hc : condPassed f.cond s.cpsr = true) (ho : ¬ TransferOperandsRefused f.at_ f.rd) (hrd : f.rd ≠ 15#4) :
    exec i s = storeOp f.width f.at_ f.rd s := by
  rw [exec_of_storeForm hf, strOp, whenPassed_pos _ hc, Addressing.refusal?_eq_none.mpr ho]
  exact if_neg hrd

theorem loadOp_of_ok {w : Width} {a : Addressing} {rd : RegNum} {v : Word} {s t : State}
    (h : memRead w (a.addr s) s = .ok v t) (hrd : rd ≠ 15#4) :
    loadOp w a rd s = .next ((t.writeBackIf a.writesBack a.rn (a.index s)).writeReg rd v).advanceArm := by
  simp only [loadOp, h, if_neg hrd]

theorem storeOp_of_ok {w : Width} {a : Addressing} {rd : RegNum} {s t : State}
    (h : memWrite w (a.addr s) (s.readReg rd) s = .ok () t) :
    storeOp w a rd s = .next (t.writeBackIf a.writesBack a.rn (a.index s)).advanceArm := by
  simp only [storeOp, h]

/-! ## The registers after it -/

@[simp] theorem State.writeBackIf_bank (s : State) (wb : Bool) (n : RegNum) (v : Word) :
    (s.writeBackIf wb n v).bank = s.bank := by simp [State.bank]

theorem State.writeBackIf_get (s : State) (wb : Bool) (n : RegNum) (v : Word) (q : PhysReg) :
    (s.writeBackIf wb n v).regs.get q = if wb = true ∧ physReg s.bank n = some q then v else s.regs.get q := by
  cases wb <;> simp [State.writeBackIf, State.writeReg_get]

theorem Accessed.bank {s t : State} (h : Accessed s t) : t.bank = s.bank := by simp [State.bank, h.cpsr]

/-- Write-back after an access (R110). -/
theorem Accessed.baseWrittenBack {s t : State} (h : Accessed s t) (a : Addressing) (idx : Word) (q : PhysReg) :
    BaseWrittenBack a idx s q ((t.writeBackIf a.writesBack a.rn idx).regs.get q) := by
  rw [State.writeBackIf_get, h.bank, h.regs, BaseWrittenBack, ← Addressing.writesBack_iff]
  exact ⟨fun hw hq => if_pos ⟨hw, hq⟩, fun hn => if_neg hn⟩

/-! ## Transfers that meet a device -/

/-- The store of R56 to a device: recorded once, its bytes in ordinary memory stored. -/
theorem deviceWritten_deviceStore {s t : State} (hm : Memory.wf s.mem = true) {w : Width} {a v : Word}
    (hlog : t.deviceLog = (s.deviceStore w a v).deviceLog) (hmem : t.mem = (s.deviceStore w a v).mem) :
    DeviceWritten w a v s t := by
  refine ⟨hlog, fun i hi hk => ?_, fun c hc => ?_⟩
  · rw [hmem, State.deviceStore_read_of_memory (Memory.sorted_of_wf hm) w a v hi hk]
  · rw [hmem]
    rcases hc with hc | hc | hc
    · exact State.deviceStore_read_outside s w a v (.inl hc)
    · exact State.deviceStore_read_outside s w a v (.inr hc)
    · exact State.deviceStore_read_of_ne s w a v hc

theorem deviceStore_completes {i : Instr} {f : TransferForm} {s : State} (hf : storeForm i = some f)
    (hc : condPassed f.cond s.cpsr = true) (ho : ¬ TransferOperandsRefused f.at_ f.rd) (hrd : f.rd ≠ 15#4)
    (hm : Memory.wf s.mem = true) (hready : DeviceWriteReady f.width (f.at_.addr s) s) :
    ∃ t, exec i s = .next t ∧ t.pc = s.pc + 4#32 ∧ SameStatus s t ∧
      DeviceWritten f.width (f.at_.addr s) (s.readReg f.rd) s t ∧
      ∀ q, BaseWrittenBack f.at_ (f.at_.index s) s q (t.regs.get q) := by
  obtain ⟨hal, hab, hcode, hnothing, hdevice⟩ := hready
  have hw := memWrite_of_device (s.readReg f.rd) hal hab hcode hnothing hdevice
  have hacc := accessed_memWrite_ok hw
  refine ⟨_, (exec_store hf hc ho hrd).trans (storeOp_of_ok hw), by simp, ⟨by simp, by simp⟩,
    deviceWritten_deviceStore hm (by simp) ?_, hacc.baseWrittenBack f.at_ _⟩
  simp [State.deviceStore]

theorem deviceLoad_completes {i : Instr} {f : TransferForm} {s : State} (hf : loadForm i = some f)
    (hc : condPassed f.cond s.cpsr = true) (ho : ¬ TransferOperandsRefused f.at_ f.rd) (hrd : f.rd ≠ 15#4)
    (hal : AlignedTo f.width.bytes (f.at_.addr s)) (hab : s.abortNext = false)
    (hnothing : s.touches .nothing f.width (f.at_.addr s) = false)
    (hdevice : s.touches .device f.width (f.at_.addr s) = true) :
    ∃ t, exec i s = .next t ∧ t.pc = s.pc + 4#32 ∧ SameStatus s t ∧ SameMemory s t ∧
      (∀ q, s.names f.rd q → t.regs.get q = s.deviceValue f.width (f.at_.addr s)) ∧
      ∀ q, ¬ s.names f.rd q → BaseWrittenBack f.at_ (f.at_.index s) s q (t.regs.get q) := by
  have hr := memRead_of_device hal hab hnothing hdevice
  have hacc := accessed_memRead_ok hr
  refine ⟨_, (exec_load hf hc ho fun _ => hrd).trans (loadOp_of_ok hr hrd), by simp, ⟨by simp, by simp⟩,
    ⟨by simp, by simp⟩, fun q hq => ?_, fun q hq => ?_⟩
  · rw [State.advanceArm_regs, State.writeReg_get, State.writeBackIf_bank, hacc.bank]
    exact if_pos hq
  · rw [State.advanceArm_regs, State.writeReg_get, State.writeBackIf_bank, hacc.bank,
      if_neg (show ¬ physReg s.bank f.rd = some q from hq)]
    exact hacc.baseWrittenBack f.at_ _ q

/-- Settles O30. Of what a load reads, the bytes that are memory's are taken back out of the value put together. -/
theorem deviceTransfersComplete : Obligations.DeviceTransfersComplete := by
  refine ⟨fun i f s => deviceStore_completes, fun i f s hf hc ho hrd hal hab hnothing hdevice => ?_⟩
  obtain ⟨t, h, hpc, hstatus, hmem, hvalue, hbase⟩ := deviceLoad_completes hf hc ho hrd hal hab hnothing hdevice
  refine ⟨t, h, hpc, hstatus, hmem, fun q i hq hi hk => ?_, hbase⟩
  rw [hvalue q hq, s.deviceValue_byte f.width _ hi hk]

end Sys2Proof.Machine
end

section
/-! PROOFS. The encoding (30_encoding.md): the general rows are disjoint, the condition field, and the register list. -/

namespace Sys2Proof.Machine

/-! ## The rows of the opcode table (30_encoding.md R86) -/

/-- The patterns of two rows differ at a bit that both masks test. -/
def RowsClash (r r' : ArmRow) : Prop := r.bits &&& r'.mask ≠ r'.bits &&& r.mask

/-- No word has two values at the bit where the patterns differ. -/
theorem RowsClash.not_both {r r' : ArmRow} (h : RowsClash r r') (w : Word) :
    ¬ (w &&& r.mask = r.bits ∧ w &&& r'.mask = r'.bits) := by
  rintro ⟨hr, hr'⟩
  apply h
  calc r.bits &&& r'.mask = w &&& r.mask &&& r'.mask := by rw [hr]
    _ = w &&& r'.mask &&& r.mask := by rw [BitVec.and_assoc, BitVec.and_comm r.mask, BitVec.and_assoc]
    _ = r'.bits &&& r.mask := by rw [hr']

theorem generalRows_clash : generalRows.Pairwise RowsClash := by
  unfold RowsClash
  decide

/-- Settles O3: any two of the rows have a bit that both test and on which their patterns differ. -/
theorem generalRowsNeverOverlap : Obligations.GeneralRowsNeverOverlap :=
  ⟨rfl, generalRows_clash.imp RowsClash.not_both⟩

/-! ## The condition (30_encoding.md R72, R73) -/

/-- Every instruction with a condition field tests it before anything else. -/
theorem exec_eq_whenPassed {i : Instr} {c : Cond} (h : condOf i = some c) (s : State) :
    ∃ run, exec i s = whenPassed c s run := by
  cases i <;> cases h <;> exact ⟨_, rfl⟩

/-- Settles O6: what the instruction would have run does not matter. -/
theorem failedConditionOnlyAdvances : Obligations.FailedConditionOnlyAdvances := by
  intro i c s hi hc
  obtain ⟨run, hrun⟩ := exec_eq_whenPassed hi s
  rw [hrun, whenPassed_neg run hc, State.advanceArm]

/-- The reserved condition is refused whatever the other bits are. -/
theorem decode_of_condNv {w : Word} (h : w.extractLsb' 28 4 = 0b1111#4) : decode (.arm w) = .refused .condNv := by
  have hcond : Cond.ofBits (bitsAt w 28 4) = none := by rw [bitsAt, h]; rfl
  rw [decode, decodeArm, hcond]

theorem fetchAndRun_of_ok {w : Word} {s t : State} (h : fetch (fetchWidth s.thumb) s.pc s = .ok w t) :
    fetchAndRun s = runDecoded (decode (fetchedCode s.thumb w)) t := by
  simp only [fetchAndRun, h]

/-- A step at which nothing is taken runs what the decoder finds in the bits at the pc. -/
theorem step_of_readReady {s : State} (hq : s.Quiet) (h : ReadReady (fetchWidth s.thumb) s.pc s) :
    step s = runDecoded (decode (fetchedCode s.thumb (s.memValue (fetchWidth s.thumb) s.pc))) s.passBoundary.consulted := by
  obtain ⟨hal, hab, hnothing, hdevice⟩ := h
  have hf : fetch (fetchWidth s.thumb) s.pc s.passBoundary =
      .ok (s.memValue (fetchWidth s.thumb) s.pc) s.passBoundary.consulted :=
    fetch_of_memory hal hab ⟨by simpa using hnothing, by simpa using hdevice⟩
  rw [step_of_quiet hq.halted hq.reset hq.fiq hq.irq]
  exact fetchAndRun_of_ok hf

/-- Settles O5. The rows of the table are in the order of the condition field. -/
theorem conditionTable : Obligations.ConditionTable := by
  refine ⟨fun p => ?_, fun w => decode_of_condNv, fun s hq harm hready hcond => ?_⟩
  · refine ⟨⟨.eq, rfl, ?_⟩, ⟨.ne, rfl, ?_⟩, ⟨.cs, rfl, ?_⟩, ⟨.cc, rfl, ?_⟩, ⟨.mi, rfl, ?_⟩, ⟨.pl, rfl, ?_⟩, ⟨.vs, rfl, ?_⟩,
      ⟨.vc, rfl, ?_⟩, ⟨.hi, rfl, ?_⟩, ⟨.ls, rfl, ?_⟩, ⟨.ge, rfl, ?_⟩, ⟨.lt, rfl, ?_⟩, ⟨.gt, rfl, ?_⟩, ⟨.le, rfl, ?_⟩,
      ⟨.al, rfl, ?_⟩⟩ <;>
    simp [condPassed, psrN, psrZ, psrC, psrV]
  · rw [step_of_readReady hq (by rw [harm]; exact hready), harm]
    exact congrArg (runDecoded · _) (decode_of_condNv hcond)

/-! ## The register list (30_encoding.md R78) -/

/-- Settles O36, by the two facts of the list that the block transfers rest on. -/
theorem registerListAscends : Obligations.RegisterListAscends :=
  fun list => ⟨pairwise_registersOf list, fun _ => mem_registersOf⟩

end Sys2Proof.Machine
end

section
/-! PROOFS. MOV and SUB (40_exception_return.md): the words of the spec, the flags of a subtraction, a register or the pc
as destination, and the returns. -/

namespace Sys2Proof.Machine

/-! ## The words the spec writes out (30_encoding.md) -/

/-- Settles O4: the decoder is evaluated on each word. -/
theorem wordsOfTheSpecDecode : Obligations.WordsOfTheSpecDecode := by
  unfold Obligations.WordsOfTheSpecDecode
  decide

/-! ## The flags of a subtraction (R92) -/

/-- The signs of the operands and of the difference tell a signed overflow. -/
theorem subOverflow_eq_ssubOverflow (a b : Word) : subOverflow a b = a.ssubOverflow b := by
  have hmsb : ∀ x : Word, x.getLsbD 31 = x.msb := fun x => x.msb_eq_getLsbD_last.symm
  rw [BitVec.ssubOverflow_eq, subOverflow, hmsb, hmsb, hmsb]
  cases a.msb <;> cases b.msb <;> cases (a - b).msb <;> rfl

/-- A difference of words is exact as long as the exact one lies between the least and the greatest signed word. -/
theorem subOverflow_iff_inexact (a b : Word) : subOverflow a b = true ↔ (a - b).toInt ≠ a.toInt - b.toInt := by
  rw [subOverflow_eq_ssubOverflow]
  refine ⟨fun hover hexact => ?_, fun hinexact => ?_⟩
  · have hlt := (a - b).toInt_lt
    have hle := (a - b).le_toInt
    simp only [BitVec.ssubOverflow, ← hexact, Bool.or_eq_true, decide_eq_true_eq] at hover
    omega
  · by_contra hno
    exact hinexact (BitVec.toInt_sub_of_not_ssubOverflow hno)

/-- Without a borrow the difference is exact; with one the exact difference is negative. -/
theorem subCarry_iff_exact (a b : Word) : subCarry a b = true ↔ ((a - b).toNat : Int) = (a.toNat : Int) - b.toNat := by
  rw [subCarry, decide_eq_true_eq]
  refine ⟨fun hle => ?_, fun hexact => by omega⟩
  rw [BitVec.toNat_sub_of_le hle, Int.ofNat_sub hle]

theorem getLsbD_last_iff_neg (v : Word) : v.getLsbD 31 = true ↔ v.toInt < 0 := by
  rw [← show v.msb = v.getLsbD 31 from v.msb_eq_getLsbD_last, BitVec.msb_eq_toInt, decide_eq_true_eq]

/-- Settles O19, flag by flag. -/
theorem subFlagsAreExactArithmetic : Obligations.SubFlagsAreExactArithmetic := by
  intro p a b
  simp only [subFlags, psrV_withNZCV, psrC_withNZCV, psrN_withNZCV, psrZ_withNZCV]
  exact ⟨subOverflow_iff_inexact a b, subCarry_iff_exact a b, getLsbD_last_iff_neg (a - b),
    beq_iff_eq.trans sub_eq_zero⟩

/-! ## What a form runs -/

theorem exec_of_movForm {s : State} {i : Instr} {c : Cond} {setsFlags : Bool} {rd : RegNum} {v : Word} {carry : Bool}
    (hf : movForm s i = some (c, setsFlags, rd, v, carry)) :
    exec i s = whenPassed c s (finishData setsFlags rd v (movFlags s.cpsr v carry) s) := by
  cases i <;> cases hf <;> rfl

theorem exec_of_subForm {s : State} {i : Instr} {c : Cond} {setsFlags : Bool} {rd : RegNum} {a b : Word}
    (hf : subForm s i = some (c, setsFlags, rd, a, b)) :
    exec i s = whenPassed c s (finishData setsFlags rd (a - b) (subFlags s.cpsr a b) s) := by
  cases i <;> cases hf <;> rfl

/-! ## A register as destination -/

theorem State.readReg_pc_of_arm {s : State} (h : s.thumb = false) : s.readReg 15#4 = s.pc + 8#32 := by
  simp [State.readReg, State.readBank, physReg_pc, State.pcOperand, h]

theorem State.writeReg_onlyReg (s : State) (rd : RegNum) (v : Word) : OnlyReg rd v s (s.writeReg rd v) :=
  ⟨fun q hq => (s.writeReg_get rd v q).trans (if_pos hq), fun q hq => (s.writeReg_get rd v q).trans (if_neg hq)⟩

/-- A write to a register changes the register file alone. -/
theorem State.writeReg_eq (s : State) (rd : RegNum) (v : Word) :
    s.writeReg rd v = { s with regs := (s.writeReg rd v).regs } := by
  unfold State.writeReg State.writeBank
  split <;> rfl

/-- R90 with a register as destination: value, CPSR and frame. -/
theorem finishData_of_ne_pc {rd : RegNum} (hrd : rd ≠ 15#4) (setsFlags : Bool) (v flags : Word) (s : State) :
    ∃ t, finishData setsFlags rd v flags s = .next t ∧
      t = { s with pc := s.pc + 4#32, regs := t.regs, cpsr := t.cpsr } ∧ OnlyReg rd v s t ∧
      t.cpsr = if setsFlags then flags else s.cpsr := by
  rw [finishData, if_neg hrd]
  refine ⟨_, rfl, ?_⟩
  have hwrite := s.writeReg_eq rd v
  cases setsFlags <;> exact ⟨by rw [hwrite]; rfl, s.writeReg_onlyReg rd v, by simp⟩

theorem flagsOnly_withNZCV (p : Word) (n z c v : Bool) : FlagsOnly n z c v p (withNZCV p n z c v) :=
  ⟨psrN_withNZCV p n z c v, psrZ_withNZCV p n z c v, psrC_withNZCV p n z c v, psrV_withNZCV p n z c v,
    withNZCV_low p n z c v⟩

theorem flagsOnly_movFlags (p v : Word) (carry : Bool) :
    FlagsOnly (v.getLsbD 31) (decide (v = 0#32)) carry (p.getLsbD 28) p (movFlags p v carry) :=
  flagsOnly_withNZCV ..

theorem subOverflow_eq_decide (a b : Word) :
    subOverflow a b = decide (a.getLsbD 31 ≠ b.getLsbD 31 ∧ (a - b).getLsbD 31 ≠ a.getLsbD 31) := by
  simp only [subOverflow, bne, beq_eq_decide, Bool.decide_and, ne_eq, decide_not]

theorem flagsOnly_subFlags (p a b : Word) :
    FlagsOnly ((a - b).getLsbD 31) (decide (a - b = 0#32)) (decide (b.toNat ≤ a.toNat))
      (decide (a.getLsbD 31 ≠ b.getLsbD 31 ∧ (a - b).getLsbD 31 ≠ a.getLsbD 31)) p (subFlags p a b) := by
  rw [← subOverflow_eq_decide]
  exact flagsOnly_withNZCV ..

/-- Settles O17. -/
theorem movWritesValueAndFlags : Obligations.MovWritesValueAndFlags := by
  obtain ⟨hmov, hmovs, -⟩ := wordsOfTheSpecDecode
  refine ⟨hmov, hmovs, fun s => State.readReg_pc_of_arm, fun s i c setsFlags rd v carry hf hrd hc => ?_⟩
  obtain ⟨t, hrun, hframe, hreg, hcpsr⟩ := finishData_of_ne_pc hrd setsFlags v (movFlags s.cpsr v carry) s
  refine ⟨t, by rw [exec_of_movForm hf, whenPassed_pos _ hc, hrun], hframe, hreg, fun hS => ?_,
    fun hS => by simp [hcpsr, hS]⟩
  rw [hcpsr, hS]
  exact flagsOnly_movFlags s.cpsr v carry

/-- Settles O18. -/
theorem subWritesDifferenceAndFlags : Obligations.SubWritesDifferenceAndFlags := by
  obtain ⟨-, -, hsub, hsubs, -⟩ := wordsOfTheSpecDecode
  refine ⟨hsub, hsubs, fun s => State.readReg_pc_of_arm, fun s i c setsFlags rd a b hf hrd hc => ?_⟩
  obtain ⟨t, hrun, hframe, hreg, hcpsr⟩ := finishData_of_ne_pc hrd setsFlags (a - b) (subFlags s.cpsr a b) s
  refine ⟨t, by rw [exec_of_subForm hf, whenPassed_pos _ hc, hrun], hframe, hreg, fun hS => ?_,
    fun hS => by simp [hcpsr, hS]⟩
  rw [hcpsr, hS]
  exact flagsOnly_subFlags s.cpsr a b

/-! ## The pc as destination -/

/-- R90 with the pc as destination, for MOV and SUB alike: the flags computed are not used. -/
theorem exec_of_pcResult {s : State} {i : Instr} {c : Cond} {setsFlags : Bool} {result : Word}
    (h : PcResult s i c setsFlags result) (hc : condPassed c s.cpsr = true) :
    exec i s = if setsFlags then exceptionReturn result s else setPc result s := by
  obtain ⟨carry, hf⟩ | ⟨a, b, hf, rfl⟩ := h
  · rw [exec_of_movForm hf, whenPassed_pos _ hc, finishData, if_pos rfl]
  · rw [exec_of_subForm hf, whenPassed_pos _ hc, finishData, if_pos rfl]

theorem State.instrSize_of_arm {s : State} (h : s.thumb = false) : s.instrSize = 4 := by simp [State.instrSize, h]

theorem State.instrSize_of_thumb {s : State} (h : s.thumb = true) : s.instrSize = 2 := by simp [State.instrSize, h]

/-- Settles O20. -/
theorem pcDestinationWithoutStatus : Obligations.PcDestinationWithoutStatus := by
  intro s i c result h hc harm
  have hrun : exec i s = setPc result s := exec_of_pcResult h hc
  rw [hrun, ← s.instrSize_of_arm harm]
  exact ⟨setPc_of_aligned, setPc_of_misaligned⟩

theorem exceptionReturn_of_noSpsr {s : State} (target : Word) (hb : s.bank = none) :
    exceptionReturn target s = .refused .noSpsr := by
  simp [exceptionReturn, State.spsr?, hb]

theorem exceptionReturn_of_spsr {s : State} {m : ExcMode} (target : Word) (hb : s.bank = some m) :
    exceptionReturn target s =
      if legalMode (s.spsrs.get m) then setPc target { s with cpsr := s.spsrs.get m } else .refused .illegalMode := by
  simp [exceptionReturn, State.spsr?, hb]

/-- Settles O21. The alignment tested is that of the state restored. -/
theorem pcDestinationRestoresStatus : Obligations.PcDestinationRestoresStatus := by
  intro s i c result h hc
  have hrun : exec i s = exceptionReturn result s := exec_of_pcResult h hc
  rw [hrun]
  refine ⟨exceptionReturn_of_noSpsr result, fun m hb => ?_⟩
  rw [exceptionReturn_of_spsr result hb]
  refine ⟨fun hillegal => by simp [hillegal], fun hlegal => ?_⟩
  rw [if_pos hlegal]
  exact ⟨setPc_of_aligned (s := { s with cpsr := s.spsrs.get m }),
    setPc_of_misaligned (s := { s with cpsr := s.spsrs.get m })⟩

/-! ## The return from a subroutine (R93) -/

/-- An address whose bit 0 is cleared suits Thumb state. -/
theorem alignedTo_two_withBit (a : Word) : AlignedTo 2 (withBit a 0 false) :=
  Nat.mod_two_eq_zero_iff_testBit_zero.mpr (getLsbD_withBit a 0 false 0 (by decide))

theorem exec_thumbMovPcR14 {s : State} (h : s.thumb = true) :
    exec .thumbMovPcR14 s = .next { s with pc := withBit (s.readReg 14#4) 0 false } := by
  have hal := alignedTo_two_withBit (s.readReg 14#4)
  rw [← s.instrSize_of_thumb h] at hal
  exact setPc_of_aligned hal

/-- Settles O22. In ARM state it is a MOV to the pc like every other. -/
theorem subroutineReturn : Obligations.SubroutineReturn := by
  refine ⟨by decide, by decide, fun s => ⟨fun harm => ⟨rfl, ?_⟩, fun hthumb => ?_⟩⟩
  · have hform : PcResult s (.movPcR14 .al) .al false (s.readReg 14#4) := .inl ⟨_, rfl⟩
    exact pcDestinationWithoutStatus s _ _ _ hform rfl harm
  · refine ⟨_, exec_thumbMovPcR14 hthumb, rfl, ?_, fun j hj => ?_⟩
    · rw [getLsbD_withBit _ _ _ _ (by decide), if_pos rfl]
    · rw [getLsbD_withBit _ _ _ _ (by decide), if_neg (by omega)]

end Sys2Proof.Machine
end

section
/-! PROOFS. Branches (41_branch_link.md): B and BL in ARM state, the two halves of BL in Thumb state. -/

namespace Sys2Proof.Machine

/-! ## The offsets -/

theorem signExtend_shiftLeft {n : Nat} (x : BitVec n) (w k : Nat) :
    x.signExtend w <<< k = BitVec.ofInt w (2 ^ k * x.toInt) := by
  have hpow : BitVec.twoPow w k = BitVec.ofInt w (2 ^ k) := by
    apply BitVec.eq_of_toNat_eq
    rw [← Nat.cast_ofNat, ← Nat.cast_pow, BitVec.ofInt_natCast, BitVec.toNat_twoPow, BitVec.toNat_ofNat]
  rw [BitVec.ofInt_mul, ← hpow, BitVec.twoPow_mul_eq_shiftLeft]
  rfl

theorem setWidth_shiftLeft_one {n : Nat} (x : BitVec n) (w : Nat) :
    x.setWidth w <<< 1 = BitVec.ofNat w (2 * x.toNat) := by
  apply BitVec.eq_of_toNat_eq
  simp [Nat.shiftLeft_eq, Nat.mul_comm]

/-! ## The target in ARM state (R100, R101) -/

theorem branchTarget_eq (s : State) (off : BitVec 24) :
    branchTarget s off = s.pc + 8#32 + BitVec.ofInt 32 (4 * off.toInt) :=
  congrArg (s.pc + 8#32 + ·) (signExtend_shiftLeft off 32 2)

theorem alignedTo_four_shiftLeft_two (v : Word) : AlignedTo 4 (v <<< 2) := by
  rw [AlignedTo, BitVec.toNat_shiftLeft, Nat.shiftLeft_eq]
  omega

/-- R100: the target is a multiple of 4 since the address of the branch is. -/
theorem branchTarget_aligned {s : State} (hpc : AlignedTo 4 s.pc) (off : BitVec 24) :
    AlignedTo 4 (branchTarget s off) := by
  have hnext : AlignedTo 4 (s.pc + 8#32) := alignedTo_add (by decide) hpc (by decide)
  exact alignedTo_add (by decide) hnext (alignedTo_four_shiftLeft_two _)

/-- Settles O23: the target suits ARM state, so both branches complete; the link is the one register written. -/
theorem branchAndLink : Obligations.BranchAndLink := by
  refine ⟨by decide, by decide, fun s c off hc harm hal => ?_⟩
  have hsuits : AlignedTo s.instrSize (branchTarget s off) := by
    rw [s.instrSize_of_arm harm]
    exact branchTarget_aligned ((State.pcAligned_iff.mp hal).2 harm) off
  have hlinked : (s.writeReg 14#4 (s.pc + 4#32)).instrSize = s.instrSize := instrSize_congr (by simp)
  rw [← branchTarget_eq]
  refine ⟨(whenPassed_pos _ hc).trans (setPc_of_aligned hsuits), _,
    (whenPassed_pos _ hc).trans (setPc_of_aligned (hlinked ▸ hsuits)), ?_, s.writeReg_onlyReg 14#4 (s.pc + 4#32)⟩
  rw [s.writeReg_eq]

/-! ## The two halves in Thumb state (R102, R103) -/

theorem exec_thumbBlFirst (hi : BitVec 11) (s : State) :
    exec (.thumbBlFirst hi) s =
      .next (s.writeReg 14#4 (s.pc + 4#32 + BitVec.ofInt 32 (4096 * hi.toInt))).advanceThumb := by
  rw [← show hi.signExtend 32 <<< 12 = BitVec.ofInt 32 (4096 * hi.toInt) from signExtend_shiftLeft hi 32 12]
  rfl

/-- The state in which the second half sets the pc: the link written, bit 0 of it drawn (D19). -/
def State.thumbLinked (s : State) : State :=
  (s.writeReg 14#4 (withBit (s.pc + 2#32) 0 (Config.freeBit s.draws))).drew 1

theorem exec_thumbBlSecond (lo : BitVec 11) (s : State) :
    exec (.thumbBlSecond lo) s = setPc (s.readReg 14#4 + BitVec.ofNat 32 (2 * lo.toNat)) s.thumbLinked := by
  rw [← setWidth_shiftLeft_one]
  rfl

@[simp] theorem State.thumbLinked_cpsr (s : State) : s.thumbLinked.cpsr = s.cpsr := by simp [State.thumbLinked]

theorem State.thumbLinked_eq (s : State) :
    s.thumbLinked = { s with regs := s.thumbLinked.regs, draws := s.thumbLinked.draws } := by
  rw [State.thumbLinked, s.writeReg_eq]
  rfl

theorem State.thumbLinked_onlyReg (s : State) :
    OnlyReg 14#4 (withBit (s.pc + 2#32) 0 (Config.freeBit s.draws)) s s.thumbLinked :=
  s.writeReg_onlyReg 14#4 _

/-- In a state of the same bank the register written reads as the value. -/
theorem OnlyReg.readReg {rd : RegNum} {v : Word} {s t : State} (h : OnlyReg rd v s t) (hbank : t.bank = s.bank)
    (hrd : rd ≠ 15#4) : t.readReg rd = v := by
  obtain ⟨q, hq⟩ := physReg_some (b := s.bank) hrd
  simp [State.readReg, State.readBank, hbank, hq, h.1 q hq]

/-- R103: wherever the branch goes, the link is the address after the second half, bit 0 apart. -/
theorem State.thumbLinked_link (s : State) (target : Word) {j : Nat} (hj : 1 ≤ j) :
    (({ s.thumbLinked with pc := target } : State).readReg 14#4).getLsbD j = (s.pc + 2#32).getLsbD j := by
  have honly : OnlyReg 14#4 (withBit (s.pc + 2#32) 0 (Config.freeBit s.draws)) s { s.thumbLinked with pc := target } :=
    s.thumbLinked_onlyReg
  rw [honly.readReg (by simp [State.bank]) (by decide), getLsbD_withBit _ _ _ _ (by decide), if_neg (by omega)]

/-- Settles O24: the second half is a `setPc` in the state with the link written, which is still in Thumb state. -/
theorem thumbBranchAndLink : Obligations.ThumbBranchAndLink := by
  refine ⟨by decide, by decide, fun s hthumb => ⟨fun hi => ?first, fun lo => ?second⟩⟩
  case first =>
    refine ⟨_, exec_thumbBlFirst hi s, ?_, s.writeReg_onlyReg 14#4 _⟩
    rw [s.writeReg_eq]
    rfl
  case second =>
    have hsize : s.thumbLinked.instrSize = 2 :=
      (instrSize_congr s.thumbLinked_cpsr).trans (s.instrSize_of_thumb hthumb)
    rw [exec_thumbBlSecond]
    refine ⟨fun heven => ⟨{ s.thumbLinked with pc := _ }, setPc_of_aligned (hsize ▸ heven), ?_,
      fun _ => s.thumbLinked_link _, s.thumbLinked_onlyReg.2⟩, fun hodd => setPc_of_misaligned (hsize ▸ hodd)⟩
    rw [s.thumbLinked_eq]

end Sys2Proof.Machine
end

section
/-! PROOFS. Single transfers (42_data_transfer.md R110): the shifts of a register offset and the address. -/

namespace Sys2Proof.Machine

theorem toNat_shiftOffset_lsl (v : Word) (n : BitVec 5) (carry : Bool) :
    (shiftOffset v .lsl n carry).toNat = v.toNat * 2 ^ n.toNat % 2 ^ 32 := by
  simp [shiftOffset, Nat.shiftLeft_eq]

theorem toNat_shiftOffset_lsr (v : Word) (n : BitVec 5) (carry : Bool) :
    (shiftOffset v .lsr n carry).toNat = if n = 0#5 then 0 else v.toNat / 2 ^ n.toNat := by
  rw [shiftOffset]
  split
  · rfl
  · rw [BitVec.toNat_ushiftRight, Nat.shiftRight_eq_div_pow]

theorem toInt_shiftOffset_asr (v : Word) (n : BitVec 5) (carry : Bool) :
    (shiftOffset v .asr n carry).toInt = v.toInt / 2 ^ (if n = 0#5 then 32 else n.toNat) := by
  rw [shiftOffset]
  split <;> simp [BitVec.toInt_sshiftRight, Int.shiftRight_eq_div_pow]

/-- A rotation by 0 is the one by 1 through the carry. -/
theorem getLsbD_shiftOffset_rrx (v : Word) (carry : Bool) (j : Nat) :
    (shiftOffset v .ror 0#5 carry).getLsbD j = if j = 31 then carry else v.getLsbD (j + 1) := by
  rw [shiftOffset, if_pos rfl, getLsbD_withBit _ _ _ _ (by decide), BitVec.getLsbD_ushiftRight, Nat.add_comm]

theorem getLsbD_shiftOffset_ror (v : Word) {n : BitVec 5} (hn : n ≠ 0#5) (carry : Bool) {j : Nat} (hj : j < 32) :
    (shiftOffset v .ror n carry).getLsbD j = v.getLsbD ((j + n.toNat) % 32) := by
  have hlt := n.isLt
  rw [shiftOffset, if_neg hn, ror, BitVec.getLsbD_rotateRight, Nat.mod_eq_of_lt hlt]
  by_cases hwrap : j < 32 - n.toNat
  · rw [Nat.mod_eq_of_lt (by omega), Nat.add_comm]
    simp [hwrap]
  · rw [show (j + n.toNat) % 32 = j - (32 - n.toNat) by omega]
    simp [hwrap, hj]

/-- Settles O25, shift by shift. -/
theorem shiftedOffsets : Obligations.ShiftedOffsets := by
  refine fun v n carry => ⟨toNat_shiftOffset_lsl v n carry, toNat_shiftOffset_lsr v n carry,
    toInt_shiftOffset_asr v n carry, ?_, fun hn j => getLsbD_shiftOffset_ror v hn carry⟩
  rintro rfl
  exact fun j _ => getLsbD_shiftOffset_rrx v carry j

theorem Offset.value_imm (i : BitVec 12) (s : State) : (Offset.imm i).value s = BitVec.ofNat 32 i.toNat :=
  (BitVec.ofNat_toNat 32 i).symm

theorem Addressing.index_of_up {a : Addressing} (h : a.up = true) (s : State) :
    a.index s = s.readReg a.rn + a.offset.value s := if_pos h

theorem Addressing.index_of_down {a : Addressing} (h : a.up = false) (s : State) :
    a.index s = s.readReg a.rn - a.offset.value s := if_neg (by simp [h])

theorem Addressing.addr_of_pre {a : Addressing} (h : a.pre = true) (s : State) : a.addr s = a.index s := if_pos h

theorem Addressing.addr_of_post {a : Addressing} (h : a.pre = false) (s : State) : a.addr s = s.readReg a.rn :=
  if_neg (by simp [h])

/-- Settles O26: in either form of the offset, `off` of R110 is the offset's value. -/
theorem transferAddress : Obligations.TransferAddress := by
  intro a s off
  have hoff : off = a.offset.value s := by
    cases h : a.offset with
    | imm i => simp only [off, h, Offset.value_imm]
    | reg n t rm => simp only [off, h]; rfl
  rw [hoff]
  exact ⟨fun h => a.index_of_up h s, fun h => a.index_of_down h s, fun h => a.addr_of_pre h s,
    fun h => a.addr_of_post h s⟩

end Sys2Proof.Machine
end

section
/-! PROOFS. The Data Abort that ends an access (60_exceptions.md R152, R168). -/

namespace Sys2Proof.Machine

theorem enteredStatus_enterException (e : Exc) (link : Word) (s : State) :
    EnteredStatus e.vector e.mode e.masksFiq s (enterException e link s) where
  pc := rfl
  saved := SpsrFile.get_set_same ..
  otherSpsrs n hn := by rw [enterException_spsrs, SpsrFile.get_set, if_neg hn]
  mode := psrM_entryPsr e s.cpsr
  irq := psrI_entryPsr e s.cpsr
  fiq := psrF_entryPsr e s.cpsr
  thumb := psrT_entryPsr e s.cpsr
  rest j hj := by
    rw [enterException_cpsr, getLsbD_entryPsr, if_neg (by omega), if_neg (by omega), if_neg (by omega), if_neg (by omega)]

/-- Of the state before, an entry shows the status registers. -/
theorem EnteredStatus.congr {vector : Word} {m : ExcMode} {setsF : Bool} {s u t : State} (hc : u.cpsr = s.cpsr)
    (hs : u.spsrs = s.spsrs) (h : EnteredStatus vector m setsF u t) : EnteredStatus vector m setsF s t where
  pc := h.pc
  saved := hc ▸ h.saved
  otherSpsrs n hn := hs ▸ h.otherSpsrs n hn
  mode := h.mode
  irq := h.irq
  fiq := hc ▸ h.fiq
  thumb := h.thumb
  rest j hj := hc ▸ h.rest j hj

/-- `t` is the Data Abort of the instruction at the pc of `s`, entered when the instruction had come to `u`. -/
structure DataAborted (s u t : State) : Prop where
  status : EnteredStatus 0x00000010#32 .abt false s t
  link : t.regs.get (.lr (some .abt)) = s.pc + 8#32
  otherRegs : ∀ q, q ≠ .lr (some .abt) → t.regs.get q = u.regs.get q
  mem : t.mem = u.mem
  deviceLog : t.deviceLog = u.deviceLog

/-- An instruction that raises a Data Abort with pc and status registers kept saves those of `s` and `A + 8`. -/
theorem dataAborted_raise {s u : State} (hpc : u.pc = s.pc) (hc : u.cpsr = s.cpsr) (hs : u.spsrs = s.spsrs) :
    ∃ t, raise .dabt u = .next t ∧ DataAborted s u t :=
  ⟨enterException .dabt (u.pc + 8#32) u, rfl,
    { status := (enteredStatus_enterException .dabt _ u).congr hc hs
      link := (RegFile.get_set_same u.regs (.lr (some .abt)) (u.pc + 8#32)).trans (by rw [hpc])
      otherRegs := fun _ hq => RegFile.get_set_ne _ _ hq
      mem := rfl
      deviceLog := rfl }⟩

theorem Accessed.dataAborted {s u : State} (h : Accessed s u) : ∃ t, raise .dabt u = .next t ∧ DataAborted s u t :=
  dataAborted_raise h.pc h.cpsr h.spsrs

theorem Accessed.dataAborted_writeBackIf {s u : State} (h : Accessed s u) (wb : Bool) (rn : RegNum) (idx : Word) :
    ∃ t, raise .dabt (u.writeBackIf wb rn idx) = .next t ∧ DataAborted s (u.writeBackIf wb rn idx) t :=
  dataAborted_raise (by simp [h.pc]) (by simp [h.cpsr]) (by simp [h.spsrs])

end Sys2Proof.Machine
end

section
/-! PROOFS. Single transfers (42_data_transfer.md R111 to R114): the loads and stores of memory, register 15 as the
destination, aborts and refusals. -/

namespace Sys2Proof.Machine

/-! ## The accesses -/

theorem sameMemory_of_eq {s t : State} (hm : t.mem = s.mem) (hl : t.deviceLog = s.deviceLog) : SameMemory s t :=
  ⟨fun _ => by rw [hm], hl⟩

theorem SameMemory.outside {s t : State} (h : SameMemory s t) (w : Width) (a : Word) : SameMemoryOutside w a s t :=
  ⟨fun c _ => h.1 c, h.2⟩

/-- A read that is answered changes neither memory nor the device record, and uses up one answer of ABORT. -/
theorem memRead_ok_frame {w : Width} {a v : Word} {s t : State} (h : memRead w a s = .ok v t) :
    t.mem = s.mem ∧ t.deviceLog = s.deviceLog ∧ t.inputs.aborts = s.inputs.aborts.tail := by
  obtain ⟨-, -, -, ⟨-, -, rfl⟩ | ⟨-, -, rfl⟩⟩ := memRead_ok h <;> exact ⟨rfl, rfl, rfl⟩

theorem Memory.readList_getD (m : Memory) (a : Nat) {n i : Nat} (h : i < n) :
    (m.readList a n).getD i 0#8 = m.read (a + i) := by
  simp [Memory.readList_eq_map, List.getD_eq_getElem?_getD, h]

/-- A byte of an access, taken back out of its value. -/
theorem State.memValue_byte (s : State) (w : Width) (a : Word) {i : Nat} (hi : i < w.bytes) :
    (toBytes s.platform.bigEndian w.bytes (s.memValue w a)).getD i 0#8 = s.mem.read (a.toNat + i) := by
  have hlen : (s.mem.readList a.toNat w.bytes).length = w.bytes := by simp [Memory.readList_eq_map]
  have hw : w.bytes ≤ 4 := by cases w <;> decide
  have hbytes := toBytes_ofBytes s.platform.bigEndian (l := s.mem.readList a.toNat w.bytes) (by omega)
  rw [hlen] at hbytes
  rw [State.memValue, hbytes, Memory.readList_getD _ _ hi]

/-- A read that ABORT does not answer, of an address with something there: its value, where no device gives it. -/
theorem memRead_of_mapped {w : Width} {a : Word} {s : State} (hal : AlignedTo w.bytes a) (hab : s.abortNext = false)
    (hn : s.touches .nothing w a = false) :
    ∃ v t, memRead w a s = .ok v t ∧ (s.touches .device w a = false → v = s.memValue w a) ∧
      ∀ i, i < w.bytes → kindAt s.platform.memMap (a.toNat + i) ≠ .device →
        (toBytes s.platform.bigEndian w.bytes v).getD i 0#8 = s.mem.read (a.toNat + i) := by
  cases hd : s.touches .device w a with
  | false => exact ⟨_, _, memRead_of_memory hal hab ⟨hn, hd⟩, fun _ => rfl, fun i hi _ => s.memValue_byte w a hi⟩
  | true => exact ⟨_, _, memRead_of_device hal hab hn hd, nofun, fun i hi hk => s.deviceValue_byte w a hi hk⟩

/-! ## Loads (R111) -/

/-- The registers when the last write of an instruction is to Rd. -/
theorem State.writeReg_advanceArm_get {s x : State} (hbank : x.bank = s.bank) (rd : RegNum) (v : Word) (q : PhysReg) :
    (x.writeReg rd v).advanceArm.regs.get q = if physReg s.bank rd = some q then v else x.regs.get q := by
  rw [State.advanceArm_regs, State.writeReg_get, hbank]

/-- A load that is answered: its register, the base, and nothing else. -/
theorem load_completes {i : Instr} {f : TransferForm} {s u : State} {v : Word} (hf : loadForm i = some f)
    (hc : condPassed f.cond s.cpsr = true) (ho : ¬ TransferOperandsRefused f.at_ f.rd) (hrd : f.rd ≠ 15#4)
    (hr : memRead f.width (f.at_.addr s) s = .ok v u) :
    ∃ t, exec i s = .next t ∧ t.pc = s.pc + 4#32 ∧ SameStatus s t ∧ SameMemory s t ∧ t.platform = s.platform ∧
      ∀ q, (s.names f.rd q → t.regs.get q = v) ∧
        (¬ s.names f.rd q → BaseWrittenBack f.at_ (f.at_.index s) s q (t.regs.get q)) := by
  have hacc := accessed_memRead_ok hr
  obtain ⟨hmem, hlog, -⟩ := memRead_ok_frame hr
  have hbank : (u.writeBackIf f.at_.writesBack f.at_.rn (f.at_.index s)).bank = s.bank := by
    rw [State.writeBackIf_bank, hacc.bank]
  refine ⟨_, (exec_load hf hc ho fun _ => hrd).trans (loadOp_of_ok hr hrd), by simp [hacc.pc],
    ⟨by simp [hacc.cpsr], by simp [hacc.spsrs]⟩, sameMemory_of_eq (by simp [hmem]) (by simp [hlog]),
    by simp [hacc.platform], fun q => ⟨fun hq => ?_, fun hq => ?_⟩⟩
  · exact (State.writeReg_advanceArm_get hbank f.rd v q).trans (if_pos hq)
  · rw [State.writeReg_advanceArm_get hbank, if_neg (show ¬ physReg s.bank f.rd = some q from hq)]
    exact hacc.baseWrittenBack f.at_ _ q

/-- Settles O27: with no device in the way the value read is the one in memory. -/
theorem loadWritesRegister : Obligations.LoadWritesRegister := by
  intro i f s hf hc ho hrd hready
  obtain ⟨hal, hab, hnothing, hdevice⟩ := hready
  exact load_completes hf hc ho hrd (memRead_of_memory hal hab ⟨hnothing, hdevice⟩)

theorem loadOp_to_pc {w : Width} {a : Addressing} {v : Word} {s u : State} (h : memRead w (a.addr s) s = .ok v u) :
    loadOp w a 15#4 s = setPc v (u.writeBackIf a.writesBack a.rn (a.index s)) := by
  simp only [loadOp, h, if_true]

theorem exec_ldrb_to_pc {i : Instr} {f : TransferForm} {s : State} (hf : loadForm i = some f)
    (hc : condPassed f.cond s.cpsr = true) (ho : ¬ TransferOperandsRefused f.at_ f.rd) (hrd : f.rd = 15#4)
    (hw : f.width = .byte) : exec i s = .refused .ldrbPc := by
  obtain ⟨hw', -⟩ | ⟨-, hrun⟩ := exec_of_loadForm hf s
  · rw [hw] at hw'; cases hw'
  · rw [hrun, ldrbOp, whenPassed_pos _ hc, Addressing.refusal?_eq_none.mpr ho]
    exact if_pos hrd

/-- Settles O28. The word that goes to the pc is the one read; the state it has to suit is still ARM state. -/
theorem loadToPc : Obligations.LoadToPc := by
  intro i f s hf hc ho hrd harm
  refine ⟨exec_ldrb_to_pc hf hc ho hrd, fun hw => ?_⟩
  intro a hal hab hnothing
  obtain ⟨v, u, hr, hvalue, hbytes⟩ := memRead_of_mapped (w := .word) hal hab hnothing
  have hacc := accessed_memRead_ok hr
  obtain ⟨hmem, hlog, -⟩ := memRead_ok_frame hr
  have hrun : exec i s = setPc v (u.writeBackIf f.at_.writesBack f.at_.rn (f.at_.index s)) := by
    rw [exec_load hf hc ho (by simp [hw]), hw, hrd, loadOp_to_pc hr]
  have hsize : (u.writeBackIf f.at_.writesBack f.at_.rn (f.at_.index s)).instrSize = 4 :=
    (instrSize_congr (by simp [hacc.cpsr])).trans (s.instrSize_of_arm harm)
  refine ⟨v, hvalue, hbytes, fun h4 => ⟨_, hrun.trans (setPc_of_aligned (hsize ▸ h4)), rfl,
    ⟨by simp [hacc.cpsr], by simp [hacc.spsrs]⟩, sameMemory_of_eq (by simp [hmem]) (by simp [hlog]),
    by simp [hacc.platform], hacc.baseWrittenBack f.at_ _⟩, fun h4 => hrun.trans (setPc_of_misaligned (hsize ▸ h4))⟩

/-- The instruction of R114 is a load like every other, from the address that the Data Abort saved, less 8. -/
theorem addr_ldrRdR14Minus8 (a : Word) (s : State) :
    (preForm false false 14#4 (.imm 8#12)).addr (takeException .dabt a s) = a := by
  have hlink : (takeException .dabt a s).readReg 14#4 = a + 8#32 := by
    have hbank : (takeException .dabt a s).bank = some .abt := bankOf_entryPsr .dabt s.cpsr
    rw [State.readReg, hbank, State.readBank, physReg_lr]
    exact RegFile.get_set_same s.regs (.lr (some .abt)) (a + 8#32)
  have haddr : (preForm false false 14#4 (.imm 8#12)).addr (takeException .dabt a s) =
      (takeException .dabt a s).readReg 14#4 - 8#32 := rfl
  rw [haddr, hlink, BitVec.add_sub_cancel]

/-- Settles O33, by what every load of memory leaves. -/
theorem handlerReadsAbortedInstruction : Obligations.HandlerReadsAbortedInstruction := by
  intro s a c rd h hc hrd hready
  have haddr : (preForm false false 14#4 (.imm 8#12)).addr h = a := addr_ldrRdR14Minus8 a s
  have hkeeps : ¬ WritesBack (preForm false false 14#4 (.imm 8#12)) := by simp [WritesBack, preForm]
  have ho : ¬ TransferOperandsRefused (preForm false false 14#4 (.imm 8#12)) rd := by
    rintro (⟨hw, -⟩ | hpc | ⟨hw, -⟩ | ⟨hw, -⟩)
    · exact hkeeps hw
    · cases hpc
    · exact hkeeps hw
    · exact hkeeps hw
  obtain ⟨t, hrun, hpc, hstatus, hmem, -, hregs⟩ := loadWritesRegister (.ldrRdR14Minus8 c rd) _ h rfl hc ho hrd
    (by rw [haddr]; exact hready)
  refine ⟨t, hrun, ⟨fun q hq => ?_, fun q hq => ((hregs q).2 hq).2 fun hb => hkeeps hb.1⟩, hpc, hstatus, hmem⟩
  rw [(hregs q).1 hq, haddr]
  exact memValue_congr (by simp [h]) _ _ fun _ _ _ => by simp [h]

/-! ## Stores (R112) -/

theorem exec_store_pc {i : Instr} {f : TransferForm} {s : State} (hf : storeForm i = some f)
    (hc : condPassed f.cond s.cpsr = true) (ho : ¬ TransferOperandsRefused f.at_ f.rd) (hrd : f.rd = 15#4) :
    exec i s = .refused .strPc := by
  rw [exec_of_storeForm hf, strOp, whenPassed_pos _ hc, Addressing.refusal?_eq_none.mpr ho]
  exact if_pos hrd

/-- What a completed write to memory leaves in memory, other fields of the state apart. -/
theorem stored_of_mem_eq {s t : State} (hm : Memory.wf s.mem = true) {w : Width} {a v : Word}
    (hp : t.platform = s.platform) (hl : t.deviceLog = s.deviceLog) (hmem : t.mem = (s.storeValue w a v).mem) :
    t.memValue w a = w.truncate v ∧ SameMemoryOutside w a s t := by
  refine ⟨?_, fun c hc => ?_, hl⟩
  · have hcongr : t.memValue w a = (s.storeValue w a v).memValue w a :=
      memValue_congr (s := s.storeValue w a v) hp w a fun _ _ _ => by rw [hmem]
    rw [hcongr, State.memValue_storeValue (Memory.sorted_of_wf hm)]
  · rw [hmem]
    exact s.storeValue_read_outside w a v hc

/-- Settles O29: write-back and the advance of the pc leave memory as the write has left it. -/
theorem storeWritesMemory : Obligations.StoreWritesMemory := by
  intro i f s hf hc ho
  refine ⟨exec_store_pc hf hc ho, fun hrd hm hready => ?_⟩
  obtain ⟨hal, hab, hcode, hnothing, hdevice⟩ := hready
  have hw := memWrite_of_memory (s.readReg f.rd) hal hab ⟨hcode, hnothing, hdevice⟩
  have hacc := accessed_memWrite_ok hw
  obtain ⟨hvalue, houtside⟩ := stored_of_mem_eq (w := f.width) (a := f.at_.addr s) (v := s.readReg f.rd) hm
    (t := ((s.consulted.storeValue f.width (f.at_.addr s) (s.readReg f.rd)).writeBackIf f.at_.writesBack f.at_.rn
      (f.at_.index s)).advanceArm) (by simp) (by simp) (by simp [State.storeValue])
  exact ⟨_, (exec_store hf hc ho hrd).trans (storeOp_of_ok hw), by simp, ⟨by simp, by simp⟩, by simp, hvalue,
    houtside, hacc.baseWrittenBack f.at_ _⟩

/-! ## Aborts (R113) -/

theorem loadOp_of_abort {w : Width} {a : Addressing} {rd : RegNum} {s t : State} (h : memRead w (a.addr s) s = .abort t) :
    loadOp w a rd s = raise .dabt (t.writeBackIf a.writesBack a.rn (a.index s)) := by
  simp only [loadOp, h]

theorem storeOp_of_abort {w : Width} {a : Addressing} {rd : RegNum} {s t : State}
    (h : memWrite w (a.addr s) (s.readReg rd) s = .abort t) :
    storeOp w a rd s = raise .dabt (t.writeBackIf a.writesBack a.rn (a.index s)) := by
  simp only [storeOp, h]

/-- No instruction loads and stores a register by itself. -/
theorem loadForm_of_storeForm {i : Instr} {f : TransferForm} (h : storeForm i = some f) : loadForm i = none := by
  cases i <;> cases h <;> rfl

/-- What an aborted write leaves in memory and in the device record: at most the addressed bytes changed (R56, log 8). -/
theorem sameMemoryOutside_of_scramble {s t : State} {w : Width} {a : Word} (hmem : t.mem = (s.scramble w a).mem)
    (hl : t.deviceLog = s.deviceLog) : SameMemoryOutside w a s t :=
  ⟨fun c hc => by rw [hmem]; exact s.scramble_read_outside w a hc, hl⟩

/-- Settles O31. Load and store alike enter the Data Abort with the base written back. -/
theorem abortedSingleTransfer : Obligations.AbortedSingleTransfer := by
  intro i f s hc ho hal hab hform
  rcases hform with ⟨hf, hrd⟩ | ⟨hf, hrd, hcode⟩
  case inl =>
    have hr := memRead_of_abort hal hab
    have hacc := accessed_memRead_abort hr
    obtain ⟨t, hrun, h⟩ := hacc.dataAborted_writeBackIf f.at_.writesBack f.at_.rn (f.at_.index s)
    have hsame : SameMemory s t := sameMemory_of_eq (by simp [h.mem]) (by simp [h.deviceLog])
    refine ⟨t, ?_, h.status, h.link, fun q hq => ?_, fun _ => hsame, hsame.outside _ _⟩
    · rw [exec_load hf hc ho fun hw hpc => hrd ⟨hw, hpc⟩, loadOp_of_abort hr, hrun]
    · rw [h.otherRegs q hq]
      exact hacc.baseWrittenBack f.at_ _ q
  case inr =>
    have hw := memWrite_of_abort (s.readReg f.rd) hal hab hcode
    have hacc := accessed_memWrite_abort hw
    obtain ⟨t, hrun, h⟩ := hacc.dataAborted_writeBackIf f.at_.writesBack f.at_.rn (f.at_.index s)
    refine ⟨t, ?_, h.status, h.link, fun q hq => ?_, fun hload => ?_, ?_⟩
    · rw [exec_store hf hc ho hrd, storeOp_of_abort hw, hrun]
    · rw [h.otherRegs q hq]
      exact hacc.baseWrittenBack f.at_ _ q
    · rw [loadForm_of_storeForm hf] at hload; cases hload
    · exact sameMemoryOutside_of_scramble (by simp [h.mem, State.scramble]) (by simp [h.deviceLog])

/-! ## Refusals -/

theorem loadOp_of_refused {w : Width} {a : Addressing} {rd : RegNum} {s : State} {r : Refusal}
    (h : memRead w (a.addr s) s = .refused r) : loadOp w a rd s = .refused r := by
  simp only [loadOp, h]

theorem storeOp_of_refused {w : Width} {a : Addressing} {rd : RegNum} {s : State} {r : Refusal}
    (h : memWrite w (a.addr s) (s.readReg rd) s = .refused r) : storeOp w a rd s = .refused r := by
  simp only [storeOp, h]

/-- The operands of R110 are refused before the access, by every form. -/
theorem exec_of_operandsRefused {i : Instr} {f : TransferForm} {s : State}
    (hf : loadForm i = some f ∨ storeForm i = some f) (hc : condPassed f.cond s.cpsr = true)
    (ho : TransferOperandsRefused f.at_ f.rd) : ∃ r, exec i s = .refused r := by
  obtain ⟨r, hr⟩ : ∃ r, f.at_.refusal? f.rd = some r :=
    Option.ne_none_iff_exists'.mp fun hnone => Addressing.refusal?_eq_none.mp hnone ho
  refine ⟨r, ?_⟩
  rcases hf with hf | hf
  · obtain ⟨-, hrun⟩ | ⟨-, hrun⟩ := exec_of_loadForm hf s
    · rw [hrun, ldrOp, whenPassed_pos _ hc, hr]
    · rw [hrun, ldrbOp, whenPassed_pos _ hc, hr]
  · rw [exec_of_storeForm hf, strOp, whenPassed_pos _ hc, hr]

/-- Settles O32: with allowed operands a form is its access, and refused as that is. -/
theorem refusedSingleTransfer : Obligations.RefusedSingleTransfer := by
  intro i f s hform hc
  refine ⟨exec_of_operandsRefused hform hc, fun ho hpc => ?_⟩
  rcases hform with hf | hf
  case inl =>
    have hrun : exec i s = loadOp f.width f.at_ f.rd s :=
      exec_load hf hc ho fun hw hrd => by rw [(hpc hrd).2] at hw; cases hw
    have hnot : storeForm i ≠ some f := fun hs => by rw [loadForm_of_storeForm hs] at hf; cases hf
    rw [hrun]
    exact ⟨fun hal => loadOp_of_refused (memRead_of_misaligned hal), fun hal => ⟨fun hs => absurd hs hnot,
      fun hab hnothing _ => loadOp_of_refused (memRead_of_nothing hal hab hnothing)⟩⟩
  case inr =>
    have hrd : f.rd ≠ 15#4 := fun hrd => by simpa [loadForm_of_storeForm hf] using (hpc hrd).1
    rw [exec_store hf hc ho hrd]
    exact ⟨fun hal => storeOp_of_refused (memWrite_of_misaligned _ hal),
      fun hal => ⟨fun _ hcode => storeOp_of_refused (memWrite_of_code _ hal hcode),
        fun hab hnothing hcode => storeOp_of_refused (memWrite_of_nothing _ hal hab (hcode hf) hnothing)⟩⟩

end Sys2Proof.Machine
end

section
/-! PROOFS. Swaps (42_data_transfer.md R115, R116). -/

namespace Sys2Proof.Machine

/-! ## The two accesses -/

theorem exec_of_swapForm {i : Instr} {w : Width} {c : Cond} {rn rd rm : RegNum}
    (hf : swapForm i = some (w, c, rn, rd, rm)) (s : State) : exec i s = swpOp w c rn rd rm s := by
  cases i <;> cases hf <;> rfl

theorem swpOp_of_pc {w : Width} {c : Cond} {rn rd rm : RegNum} {s : State} (hc : condPassed c s.cpsr = true)
    (h : rn = 15#4 ∨ rd = 15#4 ∨ rm = 15#4) : swpOp w c rn rd rm s = .refused .swpPc := by
  rw [swpOp, whenPassed_pos _ hc, if_pos h]

theorem swpOp_of_registers {w : Width} {c : Cond} {rn rd rm : RegNum} {s : State} (hc : condPassed c s.cpsr = true)
    (hrn : rn ≠ 15#4) (hrd : rd ≠ 15#4) (hrm : rm ≠ 15#4) : swpOp w c rn rd rm s = swapOp w rn rd rm s := by
  rw [swpOp, whenPassed_pos _ hc, if_neg (by simp [hrn, hrd, hrm])]

/-- The write of a swap is answered by the second answer of ABORT. -/
theorem abortNext_of_memRead_ok {w : Width} {a v : Word} {s t : State} (h : memRead w a s = .ok v t) :
    t.abortNext = s.inputs.aborts.getD 1 false := by
  rw [abortNext_eq_getD, (memRead_ok_frame h).2.2, getD_tail]

section
variable {w : Width} {rn rd rm : RegNum} {v : Word} {s u x : State}

theorem swapOp_of_readRefused {r : Refusal} (hr : memRead w (s.readReg rn) s = .refused r) :
    swapOp w rn rd rm s = .refused r := by
  simp only [swapOp, hr]

theorem swapOp_of_readAbort (hr : memRead w (s.readReg rn) s = .abort u) : swapOp w rn rd rm s = raise .dabt u := by
  simp only [swapOp, hr]

theorem swapOp_of_writeRefused {r : Refusal} (hr : memRead w (s.readReg rn) s = .ok v u)
    (hw : memWrite w (s.readReg rn) (s.readReg rm) u = .refused r) : swapOp w rn rd rm s = .refused r := by
  simp only [swapOp, hr, hw]

theorem swapOp_of_writeAbort (hr : memRead w (s.readReg rn) s = .ok v u)
    (hw : memWrite w (s.readReg rn) (s.readReg rm) u = .abort x) : swapOp w rn rd rm s = raise .dabt x := by
  simp only [swapOp, hr, hw]

/-- A swap both of whose accesses are answered: the value read to Rd, memory and devices as the write left them. -/
theorem swapOp_completes (hr : memRead w (s.readReg rn) s = .ok v u)
    (hw : memWrite w (s.readReg rn) (s.readReg rm) u = .ok () x) :
    ∃ t, swapOp w rn rd rm s = .next t ∧ t.pc = s.pc + 4#32 ∧ SameStatus s t ∧ t.platform = s.platform ∧
      OnlyReg rd v s t ∧ t.mem = x.mem ∧ t.deviceLog = x.deviceLog := by
  have hacc := (accessed_memRead_ok hr).trans (accessed_memWrite_ok hw)
  have hget : ∀ q, (x.writeReg rd v).advanceArm.regs.get q = if physReg s.bank rd = some q then v else s.regs.get q :=
    fun q => by rw [State.writeReg_advanceArm_get hacc.bank, hacc.regs]
  exact ⟨_, by simp only [swapOp, hr, hw], by simp [hacc.pc],
    ⟨by simp [hacc.cpsr], by simp [hacc.spsrs]⟩, by simp [hacc.platform],
    ⟨fun q hq => (hget q).trans (if_pos hq), fun q hq => (hget q).trans (if_neg hq)⟩, by simp, by simp⟩

end

/-! ## The obligations -/

/-- A swap of ordinary memory (R115). -/
theorem swapOp_of_memory {w : Width} {rn rd rm : RegNum} {s : State} (hm : Memory.wf s.mem = true)
    (hready : WriteReady w (s.readReg rn) s) (hab1 : s.inputs.aborts.getD 1 false = false) :
    ∃ t, swapOp w rn rd rm s = .next t ∧ t.pc = s.pc + 4#32 ∧ SameStatus s t ∧ t.platform = s.platform ∧
      OnlyReg rd (s.memValue w (s.readReg rn)) s t ∧ t.memValue w (s.readReg rn) = w.truncate (s.readReg rm) ∧
      SameMemoryOutside w (s.readReg rn) s t := by
  obtain ⟨hal, hab, hcode, hnothing, hdevice⟩ := hready
  have hr := memRead_of_memory hal hab ⟨hnothing, hdevice⟩
  have hw := memWrite_of_memory (s := s.consulted) (s.readReg rm) hal (by rw [abortNext_of_memRead_ok hr, hab1])
    ⟨by simpa using hcode, by simpa using hnothing, by simpa using hdevice⟩
  obtain ⟨t, hrun, hpc, hstatus, hplatform, hreg, hmem, hlog⟩ := swapOp_completes (rd := rd) hr hw
  exact ⟨t, hrun, hpc, hstatus, hplatform, hreg,
    stored_of_mem_eq hm hplatform (by simp [hlog]) (by simp [hmem, State.storeValue])⟩

/-- A swap that meets a device (D3): the value read is the device's. -/
theorem swapOp_of_device {w : Width} {rn rd rm : RegNum} {s : State} (hm : Memory.wf s.mem = true)
    (hready : DeviceWriteReady w (s.readReg rn) s) (hab1 : s.inputs.aborts.getD 1 false = false) :
    ∃ t, swapOp w rn rd rm s = .next t ∧ t.pc = s.pc + 4#32 ∧ SameStatus s t ∧ t.platform = s.platform ∧
      DeviceWritten w (s.readReg rn) (s.readReg rm) s t ∧ OnlyReg rd (s.deviceValue w (s.readReg rn)) s t := by
  obtain ⟨hal, hab, hcode, hnothing, hdevice⟩ := hready
  have hr := memRead_of_device hal hab hnothing hdevice
  have hw := memWrite_of_device (s := s.consulted.drew w.bytes) (s.readReg rm) hal
    (by rw [abortNext_of_memRead_ok hr, hab1]) (by simpa using hcode) (by simpa using hnothing) (by simpa using hdevice)
  obtain ⟨t, hrun, hpc, hstatus, hplatform, hreg, hmem, hlog⟩ := swapOp_completes (rd := rd) hr hw
  exact ⟨t, hrun, hpc, hstatus, hplatform,
    deviceWritten_deviceStore hm (by simp [hlog]) (by simp [hmem, State.deviceStore]), hreg⟩

/-- Settles O34: the refusals are those of the read or, for a code region, of the write after it. -/
theorem swapExchanges : Obligations.SwapExchanges := by
  intro i w c rn rd rm s hf hc
  rw [exec_of_swapForm hf]
  refine ⟨swpOp_of_pc hc, fun hrn hrd hrm => ?_⟩
  rw [swpOp_of_registers hc hrn hrd hrm]
  refine ⟨swapOp_of_memory, fun hm hready hab1 => ?device,
    fun hal => swapOp_of_readRefused (memRead_of_misaligned hal), fun hal hab => ⟨fun hnothing =>
      swapOp_of_readRefused (memRead_of_nothing hal hab hnothing), fun hnothing hcode => ?code⟩⟩
  case device =>
    obtain ⟨t, hrun, hpc, hstatus, hplatform, hwritten, hreg⟩ := swapOp_of_device hm hready hab1
    exact ⟨t, hrun, hpc, hstatus, hplatform, hwritten, hreg.2⟩
  case code =>
    obtain ⟨v, u, hr, -, -⟩ := memRead_of_mapped hal hab hnothing
    have hcode' := (accessed_memRead_ok hr).touches .code w (s.readReg rn)
    exact swapOp_of_writeRefused hr (memWrite_of_code _ hal (hcode'.trans hcode))

/-- Settles O35. Neither access has written a register when the Data Abort is entered. -/
theorem abortedSwap : Obligations.AbortedSwap := by
  intro i w c rn rd rm s hf hc hrn hrd hrm hal
  rw [exec_of_swapForm hf, swpOp_of_registers hc hrn hrd hrm]
  refine ⟨fun hab => ?read, fun hab hab1 hcode hnothing => ?write⟩
  case read =>
    have hr := memRead_of_abort hal hab
    obtain ⟨t, hrun, h⟩ := (accessed_memRead_abort hr).dataAborted
    exact ⟨t, (swapOp_of_readAbort hr).trans hrun, h.status, h.link, h.otherRegs, sameMemory_of_eq h.mem h.deviceLog⟩
  case write =>
    obtain ⟨v, u, hr, -, -⟩ := memRead_of_mapped hal hab hnothing
    have hread := accessed_memRead_ok hr
    obtain ⟨hmem, hlog, -⟩ := memRead_ok_frame hr
    have hw := memWrite_of_abort (s.readReg rm) hal ((abortNext_of_memRead_ok hr).trans hab1)
      ((hread.touches .code w (s.readReg rn)).trans hcode)
    have hacc := hread.trans (accessed_memWrite_abort hw)
    obtain ⟨t, hrun, h⟩ := hacc.dataAborted
    refine ⟨t, (swapOp_of_writeAbort hr hw).trans hrun, h.status, h.link, fun q hq => ?_, fun b hb => ?_, ?_⟩
    · rw [h.otherRegs q hq, hacc.regs]
    · rw [h.mem, State.scramble_read_outside _ _ _ hb, State.consulted_mem, hmem]
    · simp [h.deviceLog, hlog]

end Sys2Proof.Machine
end

section
/-! PROOFS. Block transfers (42_data_transfer.md R117, R118): the operands, and the sequence of accesses an LDM or an STM
comes to. -/

namespace Sys2Proof.Machine

/-! ## Addresses and operands -/

theorem blockStart_eq (p u : Bool) (base : Word) (list : BitVec 16) :
    blockStart p u base (blockSize list) = startOf p u base (blockCount list) := by
  cases p <;> cases u <;> rfl

theorem blockFinalBase_eq (u : Bool) (base : Word) (list : BitVec 16) :
    blockFinalBase u base (blockSize list) = finalOf u base (blockCount list) := rfl

/-- The operand tests of the model are those of R117. -/
theorem ldmRefusal?_eq_none {b w : Bool} {rn : RegNum} {list : BitVec 16} {s : State} :
    ldmRefusal? b w rn list s.bank = none ↔ ¬ LdmRefused b w rn list s := by
  simp [ldmRefusal?, LdmRefused, listsReg, listsPc, ite_eq_iff]

/-- A listed register is the lowest one unless a lower one is listed. -/
theorem head?_registersOf_ne {list : BitVec 16} {rn : RegNum} (hrn : list.getLsbD rn.toNat = true) :
    (registersOf list).head? ≠ some rn ↔ ∃ j, j < rn.toNat ∧ list.getLsbD j = true := by
  have hsorted := pairwise_registersOf list
  have hmem := mem_registersOf.mpr hrn
  have hlisted : ∀ r : RegNum, r ∈ registersOf list ↔ list.getLsbD r.toNat = true := fun r => mem_registersOf
  cases hl : registersOf list with
  | nil => rw [hl] at hmem; cases hmem
  | cons r rs =>
    rw [hl] at hsorted hmem hlisted
    have hlow := (List.pairwise_cons.mp hsorted).1
    rw [List.head?_cons, ne_eq, Option.some.injEq]
    refine ⟨fun hne => ⟨r.toNat, ?_, (hlisted r).mp (by simp)⟩, ?_⟩
    · exact hlow rn ((List.mem_cons.mp hmem).resolve_left (Ne.symm hne))
    · rintro ⟨j, hj, hbit⟩ rfl
      have hj4 : (BitVec.ofNat 4 j).toNat = j := by simp; omega
      rcases List.mem_cons.mp ((hlisted (BitVec.ofNat 4 j)).mpr (by rwa [hj4])) with he | he
      · rw [← he, hj4] at hj; omega
      · have := hlow _ he; omega

/-- The operand tests of the model are those of R118. -/
theorem stmRefusal?_eq_none {b w : Bool} {rn : RegNum} {list : BitVec 16} {s : State} :
    stmRefusal? b w rn list s.bank = none ↔ ¬ StmRefused b w rn list s := by
  have hbase : (w = true ∧ listsReg list rn = true ∧ (registersOf list).head? ≠ some rn) ↔
      (w = true ∧ list.getLsbD rn.toNat = true ∧ ∃ j, j < rn.toNat ∧ list.getLsbD j = true) :=
    and_congr_right fun _ => and_congr_right head?_registersOf_ne
  simp only [stmRefusal?, hbase]
  simp [StmRefused, listsPc, ite_eq_iff]

theorem registersOf_ne_nil {list : BitVec 16} (h : list ≠ 0#16) : registersOf list ≠ [] :=
  fun hnil => h (registersOf_eq_nil hnil)

/-! ## LDM -/

section
variable {c : Cond} {p u b w : Bool} {rn : RegNum} {list : BitVec 16} {s t : State} {l : Loaded}

theorem exec_ldm (hc : condPassed c s.cpsr = true) (ho : ¬ LdmRefused b w rn list s) :
    exec (.ldm c p u b w rn list) s = loadMultiple p u b w rn list s := by
  rw [exec, execLdm, whenPassed_pos _ hc, ldmRefusal?_eq_none.mpr ho]

theorem exec_ldm_of_operandsRefused (hc : condPassed c s.cpsr = true) (ho : LdmRefused b w rn list s) :
    ∃ r, exec (.ldm c p u b w rn list) s = .refused r := by
  obtain ⟨r, hr⟩ : ∃ r, ldmRefusal? b w rn list s.bank = some r :=
    Option.ne_none_iff_exists'.mp fun hnone => ldmRefusal?_eq_none.mp hnone ho
  exact ⟨r, by rw [exec, execLdm, whenPassed_pos _ hc, hr]⟩

/-- The registers after the loads of an LDM, the pc apart: write-back first, then the words read (R117). -/
def State.blockLoaded (t : State) (bank : Bank) (l : Loaded) (w : Bool) (rn : RegNum) (final : Word) : State :=
  writeLoaded bank l (t.writeBackIf w rn final)

theorem loadMultiple_of_refused {r : Refusal}
    (h : loadBlock (registersOf list) (startOf p u (s.readReg rn) (blockCount list)) s = .refused r) :
    loadMultiple p u b w rn list s = .refused r := by
  rw [← blockStart_eq] at h
  simp only [loadMultiple, h]

theorem loadMultiple_of_abort
    (h : loadBlock (registersOf list) (startOf p u (s.readReg rn) (blockCount list)) s = .done l true t) :
    loadMultiple p u b w rn list s =
      raise .dabt ((writeLoaded (ldmBank b list s.bank) l t).writeReg rn
        (if w then finalOf u (s.readReg rn) (blockCount list) else s.readReg rn)) := by
  rw [← blockStart_eq] at h
  simp only [loadMultiple, h, blockFinalBase_eq]

theorem loadMultiple_of_done
    (h : loadBlock (registersOf list) (startOf p u (s.readReg rn) (blockCount list)) s = .done l false t)
    (hpc : l.lookup 15#4 = none) :
    loadMultiple p u b w rn list s =
      .next (t.blockLoaded (ldmBank b list s.bank) l w rn (finalOf u (s.readReg rn) (blockCount list))).advanceArm := by
  rw [← blockStart_eq] at h
  simp only [loadMultiple, h, hpc]
  rfl

theorem loadMultiple_of_pc {target : Word}
    (h : loadBlock (registersOf list) (startOf p u (s.readReg rn) (blockCount list)) s = .done l false t)
    (hpc : l.lookup 15#4 = some target) :
    loadMultiple p u b w rn list s =
      let v := t.blockLoaded (ldmBank b list s.bank) l w rn (finalOf u (s.readReg rn) (blockCount list))
      if b then exceptionReturn target v else setPc target v := by
  rw [← blockStart_eq] at h
  simp only [loadMultiple, h, hpc]
  rfl

theorem loadBlock_of_misaligned {rs : List RegNum} {a : Word} (hrs : rs ≠ []) (ha : ¬ AlignedTo 4 a) :
    loadBlock rs a s = .refused .misaligned := by
  cases rs with
  | nil => exact absurd rfl hrs
  | cons r rs => rw [loadBlock, memRead_of_misaligned ha]

end

/-! ## STM -/

section
variable {c : Cond} {p u b w : Bool} {rn : RegNum} {list : BitVec 16} {s t : State}

theorem exec_stm (hc : condPassed c s.cpsr = true) (ho : ¬ StmRefused b w rn list s) :
    exec (.stm c p u b w rn list) s = storeMultiple p u b w rn list s := by
  rw [exec, execStm, whenPassed_pos _ hc, stmRefusal?_eq_none.mpr ho]

theorem exec_stm_of_operandsRefused (hc : condPassed c s.cpsr = true) (ho : StmRefused b w rn list s) :
    ∃ r, exec (.stm c p u b w rn list) s = .refused r := by
  obtain ⟨r, hr⟩ : ∃ r, stmRefusal? b w rn list s.bank = some r :=
    Option.ne_none_iff_exists'.mp fun hnone => stmRefusal?_eq_none.mp hnone ho
  exact ⟨r, by rw [exec, execStm, whenPassed_pos _ hc, hr]⟩

theorem storeMultiple_of_refused {r : Refusal}
    (h : storeBlock (stmBank b s.bank) (registersOf list) (startOf p u (s.readReg rn) (blockCount list)) s = .refused r) :
    storeMultiple p u b w rn list s = .refused r := by
  rw [← blockStart_eq] at h
  simp only [storeMultiple, h]

theorem storeMultiple_of_abort
    (h : storeBlock (stmBank b s.bank) (registersOf list) (startOf p u (s.readReg rn) (blockCount list)) s = .abort t) :
    storeMultiple p u b w rn list s =
      raise .dabt (t.writeBackIf w rn (finalOf u (s.readReg rn) (blockCount list))) := by
  rw [← blockStart_eq] at h
  simp only [storeMultiple, h, blockFinalBase_eq]

theorem storeMultiple_of_ok
    (h : storeBlock (stmBank b s.bank) (registersOf list) (startOf p u (s.readReg rn) (blockCount list)) s = .ok () t) :
    storeMultiple p u b w rn list s =
      .next (t.writeBackIf w rn (finalOf u (s.readReg rn) (blockCount list))).advanceArm := by
  rw [← blockStart_eq] at h
  simp only [storeMultiple, h, blockFinalBase_eq]

theorem storeBlock_of_misaligned {bank : Bank} {rs : List RegNum} {a : Word} (hrs : rs ≠ []) (ha : ¬ AlignedTo 4 a) :
    storeBlock bank rs a s = .refused .misaligned := by
  cases rs with
  | nil => exact absurd rfl hrs
  | cons r rs => rw [storeBlock, memWrite_of_misaligned _ ha]

end

/-! ## Refusals -/

/-- Settles O42. The accesses come one after the other, so the first that is refused decides; for an STM after an abort it
is the first that meets a code region. -/
theorem refusedBlockTransfer : Obligations.RefusedBlockTransfer := by
  intro c p u b w rn list s hc n start
  refine ⟨exec_ldm_of_operandsRefused hc, exec_stm_of_operandsRefused hc, fun ho hal => ?ldmMisaligned,
    fun ho hal => ?stmMisaligned, fun k hk => ⟨fun ho hready hab hnothing => ?ldmNothing, fun ho hm hready => ?stm⟩⟩
  case ldmMisaligned =>
    rw [exec_ldm hc ho]
    exact loadMultiple_of_refused
      (loadBlock_of_misaligned (registersOf_ne_nil fun hempty => ho (.inr (.inl hempty))) hal)
  case stmMisaligned =>
    rw [exec_stm hc ho]
    exact storeMultiple_of_refused
      (storeBlock_of_misaligned (registersOf_ne_nil fun hempty => ho (.inr (.inl hempty))) hal)
  case ldmNothing =>
    rw [exec_ldm hc ho]
    exact loadMultiple_of_refused (loadBlock_of_nothing hk hready hab hnothing)
  case stm =>
    rw [exec_stm hc ho]
    exact ⟨fun hcode => storeMultiple_of_refused (storeBlock_refused hm hk hready (.inl ⟨hcode, rfl⟩)),
      fun hab hcode hnothing => storeMultiple_of_refused
        (storeBlock_refused hm hk hready (.inr (.inl ⟨hab, hcode, hnothing, rfl⟩))),
      fun hab hcode => storeMultiple_of_refused (storeBlock_refused hm hk hready (.inr (.inr ⟨hab, hcode, rfl⟩)))⟩

end Sys2Proof.Machine
end

section
/-! PROOFS. LDM (42_data_transfer.md R117, R119): the registers loaded, the pc among them, and the abort at any place. -/

namespace Sys2Proof.Machine

/-! ## The words read -/

theorem ldmBank_eq (b : Bool) (list : BitVec 16) (bank : Bank) :
    ldmBank b list bank = if b = true ∧ list.getLsbD 15 = false then none else bank := by
  simp [ldmBank, listsPc]

/-- What an LDM of any bank leaves when its reads are answered: every field but the registers, ABORT's answers and the
counter of draws. -/
theorem State.blockLoaded_frame {s t : State} {rs : List RegNum} {a : Word} {l : Loaded} {ab : Bool}
    (h : loadBlock rs a s = .done l ab t) (bank : Bank) (w : Bool) (rn : RegNum) (final : Word) :
    (t.blockLoaded bank l w rn final).pc = s.pc ∧ (t.blockLoaded bank l w rn final).cpsr = s.cpsr ∧
      (t.blockLoaded bank l w rn final).spsrs = s.spsrs ∧ (t.blockLoaded bank l w rn final).platform = s.platform ∧
      SameMemory s (t.blockLoaded bank l w rn final) := by
  obtain ⟨hacc, hmem, hlog, -⟩ := loadBlock_frame h
  simp only [State.blockLoaded]
  exact ⟨by simp [hacc.pc], by simp [hacc.cpsr], by simp [hacc.spsrs], by simp [hacc.platform],
    sameMemory_of_eq (by simp [hmem]) (by simp [hlog])⟩

section
variable {bank : Bank} {s : State} {a : Word} {rs : List RegNum} {l : Loaded} {q : PhysReg}

/-- The register at place `k` holds the word at place `k`, where no device gives it. -/
theorem PairsFrom.get_loaded (h : PairsFrom s a rs l) (hn : rs.Nodup) (t : State) {k : Nat} {r : RegNum}
    (hr : rs[k]? = some r) (hq : physReg bank r = some q) (hd : NoDeviceAt a k s) :
    (writeLoaded bank l t).regs.get q = s.memValue .word (blockWord a k) :=
  writeLoaded_get_of_mem (by rw [h.1]; exact hn) t (List.mem_of_getElem? (h.2 k r hr hd)) hq

theorem PairsFrom.get_other (h : PairsFrom s a rs l) (t : State) (hq : ∀ r ∈ rs, physReg bank r ≠ some q) :
    (writeLoaded bank l t).regs.get q = t.regs.get q :=
  writeLoaded_get_of_not t fun r _ hm => hq r (h.1 ▸ List.mem_map_of_mem (f := Prod.fst) hm)

end

/-- The registers after an LDM, of the bank it loads (R117): the words read, the base written back, every other one as
before. -/
structure BlockLoaded (bank : Bank) (list : BitVec 16) (start : Word) (w : Bool) (rn : RegNum) (final : Word)
    (s t : State) : Prop where
  listed : ∀ k r q, (registersOf list)[k]? = some r → physReg bank r = some q → NoDeviceAt start k s →
    t.regs.get q = s.memValue .word (blockWord start k)
  others : ∀ q, (∀ r, list.getLsbD r.toNat = true → physReg bank r ≠ some q) →
    (w = true → s.names rn q → t.regs.get q = final) ∧ (¬ (w = true ∧ s.names rn q) → t.regs.get q = s.regs.get q)

theorem BlockLoaded.of_pairs {s t : State} {list : BitVec 16} {start : Word} {l : Loaded} (hacc : Accessed s t)
    (h : PairsFrom s start (registersOf list) l) (bank : Bank) (w : Bool) (rn : RegNum) (final : Word) :
    BlockLoaded bank list start w rn final s (t.blockLoaded bank l w rn final) where
  listed k r q hr hq hd := h.get_loaded (nodup_registersOf list) _ hr hq hd
  others q hq := by
    rw [State.blockLoaded, h.get_other _ fun r hr => hq r (mem_registersOf.mp hr), State.writeBackIf_get, hacc.bank,
      hacc.regs]
    exact ⟨fun hw hrn => if_pos ⟨hw, hrn⟩, fun hn => if_neg hn⟩

/-! ## Without register 15 -/

theorem lookup_pc_eq_none {s : State} {start : Word} {list : BitVec 16} {l : Loaded}
    (h : PairsFrom s start (registersOf list) l) (hpc : list.getLsbD 15 = false) : l.lookup 15#4 = none := by
  rw [List.lookup_eq_none_iff]
  rintro ⟨r, v⟩ hm
  have hr : list.getLsbD r.toNat = true := mem_registersOf.mp (h.1 ▸ List.mem_map_of_mem (f := Prod.fst) hm)
  have hne : 15#4 ≠ r := by
    rintro rfl
    rw [show (15#4).toNat = 15 from rfl, hpc] at hr
    cases hr
  simpa using hne

/-- Settles O37: no word read goes to the pc, which advances. -/
theorem loadMultiple_holds : Obligations.LoadMultiple := by
  intro c p u b w rn list s n start bank hc ho hpc hready
  obtain ⟨l, t, hl, hpairs⟩ := loadBlock_of_readable (rs := registersOf list) hready
  obtain ⟨hacc, -, -, -⟩ := loadBlock_frame hl
  have hbank : ldmBank b list s.bank = bank := by simp only [ldmBank_eq, hpc, and_true, bank]
  have hrun := (exec_ldm hc ho).trans (loadMultiple_of_done hl (lookup_pc_eq_none hpairs hpc))
  rw [hbank] at hrun
  have hregs := BlockLoaded.of_pairs hacc hpairs bank w rn (finalOf u (s.readReg rn) n)
  obtain ⟨hpc', hcpsr, hspsrs, hplatform, hmem⟩ :=
    State.blockLoaded_frame hl bank w rn (finalOf u (s.readReg rn) n)
  exact ⟨_, hrun, congrArg (· + 4#32) hpc', ⟨hcpsr, hspsrs⟩, hmem, hplatform, hregs.listed, hregs.others⟩

/-! ## With register 15 -/

/-- Register 15 is the highest, so it comes last in its list. -/
theorem last_registersOf {list : BitVec 16} (h : list.getLsbD 15 = true) :
    (registersOf list)[blockCount list - 1]? = some 15#4 := by
  obtain ⟨k, hk, hget⟩ := List.mem_iff_getElem.mp (mem_registersOf (list := list) (r := 15#4) |>.mpr h)
  have hlast : k = blockCount list - 1 := by
    by_contra hne
    have hk' : k + 1 < (registersOf list).length := by unfold blockCount at hne; omega
    have hlt := List.pairwise_iff_getElem.mp (pairwise_registersOf list) k (k + 1) hk hk' (by omega)
    rw [hget] at hlt
    have := (registersOf list)[k + 1].isLt
    simp at hlt
    omega
  rw [← hlast, List.getElem?_eq_getElem hk, hget]

theorem lookup_of_mem {l : Loaded} (hn : (l.map Prod.fst).Nodup) {r : RegNum} {v : Word} (hm : (r, v) ∈ l) :
    l.lookup r = some v := by
  induction l with
  | nil => cases hm
  | cons x l ih =>
    obtain ⟨r', v'⟩ := x
    obtain ⟨hx, hn'⟩ := List.nodup_cons.mp hn
    rcases List.mem_cons.mp hm with he | hrest
    · cases he; simp
    · have hne : r ≠ r' := by
        rintro rfl
        exact hx (List.mem_map.mpr ⟨_, hrest, rfl⟩)
      rw [List.lookup_cons, beq_false_of_ne hne]
      exact ih hn' hrest

/-- The word that goes to the pc is the one at the last place of the block. -/
theorem lookup_pc_eq_some {s : State} {start : Word} {list : BitVec 16} {l : Loaded}
    (h : PairsFrom s start (registersOf list) l) (hpc : list.getLsbD 15 = true) :
    ∃ target, l.lookup 15#4 = some target ∧
      (NoDeviceAt start (blockCount list - 1) s → target = s.memValue .word (blockWord start (blockCount list - 1))) := by
  have hlast := last_registersOf hpc
  have hn : (l.map Prod.fst).Nodup := by rw [h.1]; exact nodup_registersOf list
  obtain ⟨⟨r, target⟩, hget, rfl⟩ : ∃ x : RegNum × Word, l[blockCount list - 1]? = some x ∧ x.1 = 15#4 := by
    rw [← h.1] at hlast
    simpa using hlast
  refine ⟨target, lookup_of_mem hn (List.mem_of_getElem? hget), fun hd => ?_⟩
  have hword := h.2 _ _ hlast hd
  rw [hget] at hword
  cases hword
  rfl

/-- Settles O38: the pc is set in the state with the registers loaded, with S = 1 by the return from an exception. -/
theorem loadMultipleWithPc : Obligations.LoadMultipleWithPc := by
  intro c p u b w rn list s n start regsLoaded hc ho hpc hready harm
  obtain ⟨l, t, hl, hpairs⟩ := loadBlock_of_readable (rs := registersOf list) hready
  obtain ⟨hacc, -, -, -⟩ := loadBlock_frame hl
  obtain ⟨target, hlookup, htarget⟩ := lookup_pc_eq_some hpairs hpc
  have hbank : ldmBank b list s.bank = s.bank := by simp [ldmBank_eq, hpc]
  have hrun := (exec_ldm hc ho).trans (loadMultiple_of_pc hl hlookup)
  rw [hbank] at hrun
  have hregs := BlockLoaded.of_pairs hacc hpairs s.bank w rn (finalOf u (s.readReg rn) n)
  obtain ⟨-, hcpsr, hspsrs, -, hmem⟩ := State.blockLoaded_frame hl s.bank w rn (finalOf u (s.readReg rn) n)
  generalize t.blockLoaded s.bank l w rn (finalOf u (s.readReg rn) n) = v at *
  have hloaded : regsLoaded v := ⟨hregs.listed, hregs.others⟩
  refine ⟨target, htarget, fun hb => ?keeps, fun m hb hm => ?restores⟩
  case keeps =>
    have hset : exec (.ldm c p u b w rn list) s = setPc target v := by rw [hrun, hb]; rfl
    have hsize : v.instrSize = 4 := (instrSize_congr hcpsr).trans (s.instrSize_of_arm harm)
    exact ⟨fun h4 => ⟨_, hset.trans (setPc_of_aligned (hsize ▸ h4)), rfl, ⟨hcpsr, hspsrs⟩, hmem, hloaded⟩,
      fun h4 => hset.trans (setPc_of_misaligned (hsize ▸ h4))⟩
  case restores =>
    have hvbank : v.bank = some m := by rw [State.bank, hcpsr]; exact hm
    have hreturn : exec (.ldm c p u b w rn list) s =
        if legalMode (s.spsrs.get m) then setPc target { v with cpsr := s.spsrs.get m } else .refused .illegalMode := by
      rw [hrun, hb, ← hspsrs]
      exact exceptionReturn_of_spsr target hvbank
    refine ⟨fun hillegal => by simp [hreturn, hillegal], fun hlegal => ?_⟩
    rw [if_pos hlegal] at hreturn
    exact ⟨fun hsuits => ⟨_, hreturn.trans (setPc_of_aligned hsuits), rfl, rfl, hspsrs, hmem, hloaded⟩,
      fun hsuits => hreturn.trans (setPc_of_misaligned hsuits)⟩

/-! ## The abort at place `k` (R119) -/

/-- Settles O40. The base is written last, so it holds its value even if it was loaded. -/
theorem abortedLoadMultiple : Obligations.AbortedLoadMultiple := by
  intro c p u b w rn list s k n start bank hc ho hk hready hab
  obtain ⟨l, t, hl, hpairs⟩ := loadBlock_of_abort (rs := registersOf list) hk hready hab
  obtain ⟨hacc, hmem, hlog, -⟩ := loadBlock_frame hl
  have hrun := (exec_ldm hc ho).trans (loadMultiple_of_abort hl)
  rw [ldmBank_eq] at hrun
  obtain ⟨x, hraise, h⟩ := dataAborted_raise (s := s)
    (u := (writeLoaded bank l t).writeReg rn (if w then finalOf u (s.readReg rn) n else s.readReg rn))
    (by simp [hacc.pc]) (by simp [hacc.cpsr]) (by simp [hacc.spsrs])
  have hbank : (writeLoaded bank l t).bank = s.bank := by simp [State.bank, hacc.cpsr]
  refine ⟨x, hrun.trans hraise, h.status, sameMemory_of_eq (by simp [h.mem, hmem]) (by simp [h.deviceLog, hlog]), h.link,
    fun q hq => ?_⟩
  rw [h.otherRegs q hq, State.writeReg_get, hbank]
  refine ⟨fun hrn => if_pos hrn, fun hrn => ?_⟩
  rw [if_neg (show ¬ physReg s.bank rn = some q from hrn)]
  refine ⟨fun j r hj hr hqr hd => hpairs.get_loaded ((nodup_registersOf list).take) t ?_ hqr hd, fun hother => ?_⟩
  · rw [List.getElem?_take_of_lt hj, hr]
  · rw [hpairs.get_other t fun r hr => ?_, hacc.regs]
    obtain ⟨j, hj, rfl⟩ := List.mem_take_iff_getElem.mp hr
    exact hother j _ (by omega) (List.getElem?_eq_getElem (by omega))

end Sys2Proof.Machine
end

section
/-! PROOFS. STM (42_data_transfer.md R118, R120): the words stored, and the abort at any place. -/

namespace Sys2Proof.Machine

theorem length_registersOf_lt (list : BitVec 16) : (registersOf list).length < 2 ^ 29 :=
  Nat.lt_of_le_of_lt (length_registersOf list) (by decide)

/-- What the stores of an STM leave in memory and in the device record (R118, R120), said of any later state that has kept
them: of the block of all `n` words, the registers `rs` stored. -/
structure BlockStored (bank : Bank) (rs : List RegNum) (start : Word) (n : Nat) (s t : State) : Prop where
  deviceLog : t.deviceLog = s.deviceLog ++ deviceWrites s bank rs start
  words : ∀ k r, rs[k]? = some r → NoDeviceAt start k s → t.memValue .word (blockWord start k) = s.readBank bank r
  others : ∀ c, OutsideBlock start n s c → t.mem.read c = s.mem.read c

theorem Stored.blockStored {bank : Bank} {rs : List RegNum} {start : Word} {n : Nat} {s t v : State}
    (h : Stored bank rs start n s t) (hp : v.platform = t.platform) (hm : v.mem = t.mem) (hl : v.deviceLog = t.deviceLog) :
    BlockStored bank rs start n s v where
  deviceLog := by rw [hl, h.log, writesFrom_eq_filterMap]; rfl
  words k r hr hd := by
    have hvalue : v.memValue .word (blockWord start k) = t.memValue .word (blockWord start k) :=
      memValue_congr hp _ _ fun _ _ _ => by rw [hm]
    exact hvalue.trans (h.words k r hr hd)
  others c hc := by rw [hm]; exact h.others c hc

theorem Accessed.writeBackIf_get {s t : State} (h : Accessed s t) (w : Bool) (rn : RegNum) (final : Word) (q : PhysReg) :
    (t.writeBackIf w rn final).regs.get q = if w = true ∧ physReg s.bank rn = some q then final else s.regs.get q := by
  rw [State.writeBackIf_get, h.bank, h.regs]

/-- Settles O39: every store is taken, and the base is written after the last of them. -/
theorem storeMultiple_holds : Obligations.StoreMultiple := by
  intro c p u b w rn list s n start bank hc ho hm hready
  obtain ⟨t, hstore, h⟩ :=
    storeBlock_of_writable (b := bank) (rs := registersOf list) hm (length_registersOf_lt list) hready
  have hacc := h.accessed
  have hget := hacc.writeBackIf_get w rn (finalOf u (s.readReg rn) n)
  obtain ⟨hlog, hwords, hothers⟩ :=
    h.blockStored (v := (t.writeBackIf w rn (finalOf u (s.readReg rn) n)).advanceArm) (by simp) (by simp) (by simp)
  refine ⟨_, (exec_stm hc ho).trans (storeMultiple_of_ok hstore), by simp [hacc.pc],
    ⟨by simp [hacc.cpsr], by simp [hacc.spsrs]⟩, hlog, by simp [hacc.platform], hwords, hothers,
    fun hw => ⟨fun q hq => ?_, fun q hq => ?_⟩, fun hw q => ?_⟩
  · exact (hget q).trans (if_pos ⟨hw, hq⟩)
  · exact (hget q).trans (if_neg fun hn => hq hn.2)
  · exact (hget q).trans (if_neg (by simp [hw]))

/-- Settles O41: the stores before place `k` are those of the list's first `k` registers. -/
theorem abortedStoreMultiple : Obligations.AbortedStoreMultiple := by
  intro c p u b w rn list s k n start bank hc ho hm hk hready hab hcode
  obtain ⟨t, hstore, h⟩ := storeBlock_of_abort (b := bank) hm (length_registersOf_lt list) hk hready hab hcode
  obtain ⟨x, hraise, hx⟩ := h.accessed.dataAborted_writeBackIf w rn (finalOf u (s.readReg rn) n)
  have hrun := ((exec_stm hc ho).trans (storeMultiple_of_abort hstore)).trans hraise
  have hplatform : x.platform = t.platform := by
    rw [(exec_tame hrun).platform, h.accessed.platform]
  obtain ⟨hlog, hwords, hothers⟩ := h.blockStored (v := x) hplatform (by simp [hx.mem]) (by simp [hx.deviceLog])
  refine ⟨x, hrun, hx.status, hx.link, hlog, fun j r hj hr hd => hwords j r ?_ hd, hothers, fun q hq => ?_⟩
  · rw [List.getElem?_take_of_lt hj, hr]
  · rw [hx.otherRegs q hq, h.accessed.writeBackIf_get]
    exact ⟨fun hw hrn => if_pos ⟨hw, hrn⟩, fun hn => if_neg hn⟩

end Sys2Proof.Machine
end

section
/-! PROOFS. SWI, undefined and coprocessor instructions (43_swi_undefined_coprocessor.md R125 to R130): what runs is the
entry of R152 with the offset of R154. -/

namespace Sys2Proof.Machine

/-! ## The entry -/

theorem entered_enterException (e : Exc) (link : Word) (s : State) :
    Entered e.vector e.mode link e.masksFiq s (enterException e link s) where
  status := enteredStatus_enterException e link s
  link := RegFile.get_set_same s.regs (.lr (some e.mode)) link
  otherRegs _ hq := RegFile.get_set_ne _ _ hq
  memory := sameMemory_of_eq rfl rfl

/-- An instruction that raises any exception but Reset saves its own address and the offset. -/
theorem entered_raise {e : Exc} {k : Word} {s : State} (h : e.offset s.thumb = some k) :
    ∃ t, raise e s = .next t ∧ Entered e.vector e.mode (s.pc + k) e.masksFiq s t :=
  ⟨_, by rw [raise, takeException_eq h], entered_enterException e (s.pc + k) s⟩

theorem entered_raise_udef_of_arm {s : State} (harm : s.thumb = false) :
    ∃ t, raise .udef s = .next t ∧ Entered 0x00000004#32 .und (s.pc + 4#32) false s t :=
  entered_raise (by rw [harm]; rfl)

/-! ## SWI and the undefined instruction (R125, R126, R128) -/

theorem exec_swi (c : Cond) (n : BitVec 24) (s : State) : exec (.swi c n) s = whenPassed c s (raise .swi s) := rfl

theorem exec_thumbSwi (n : BitVec 8) (s : State) : exec (.thumbSwi n) s = raise .swi s := rfl

theorem exec_udef (c : Cond) (x : BitVec 20) (y : BitVec 4) (s : State) :
    exec (.udef c x y) s = whenPassed c s (raise .udef s) := rfl

/-- Settles O43: the two states differ in the offset of R154; a failed condition is that of every instruction. -/
theorem softwareInterrupt : Obligations.SoftwareInterrupt := by
  refine ⟨by decide, by decide, fun s => ⟨fun c n harm hc => ?arm,
    fun c n hc => failedConditionOnlyAdvances (.swi c n) c s rfl hc, fun n hthumb => ?thumb⟩⟩
  case arm =>
    rw [exec_swi, whenPassed_pos _ hc]
    exact entered_raise (by rw [harm]; rfl)
  case thumb =>
    rw [exec_thumbSwi]
    exact entered_raise (by rw [hthumb]; rfl)

/-- Settles O44. -/
theorem undefinedInstruction : Obligations.UndefinedInstruction := by
  intro s c x y harm hc
  rw [exec_udef, whenPassed_pos _ hc]
  exact entered_raise_udef_of_arm harm

/-! ## Coprocessor instructions (R130) -/

/-- All five classes run one operation, on the word that is shown to the coprocessors. -/
theorem exec_of_isCoprocessor {i : Instr} {c : Cond} {word : Word} (hi : isCoprocessor i) (hc : condOf i = some c)
    (hw : encode i = .arm word) (s : State) : exec i s = coprocOp c word s := by
  cases i
  case cdp | mrc | mcr | ldc | stc => cases hc; cases hw; rfl
  all_goals cases hi

theorem coprocOp_of_unaccepted {c : Cond} {word : Word} {s : State} (hc : condPassed c s.cpsr = true)
    (h : coprocAccepts s.platform.coproc word = false) : coprocOp c word s = raise .udef s := by
  rw [coprocOp, whenPassed_pos _ hc, if_neg (by simp [h])]

theorem coprocOp_of_accepted {c : Cond} {word : Word} {s : State} (hc : condPassed c s.cpsr = true)
    (h : coprocAccepts s.platform.coproc word = true) :
    coprocOp c word s = .refused .coprocessorSemanticsUnmodelled := by
  rw [coprocOp, whenPassed_pos _ hc, if_pos h]

/-- Settles O45: by default there is no coprocessor to accept a word; otherwise the word decides. -/
theorem coprocessorInstruction : Obligations.CoprocessorInstruction := by
  refine ⟨fun _ => rfl, fun s i c word hi hcond hw harm hc => ?_⟩
  rw [exec_of_isCoprocessor hi hcond hw]
  refine ⟨fun hun => ?unaccepted, coprocOp_of_accepted hc⟩
  case unaccepted =>
    rw [coprocOp_of_unaccepted hc hun]
    exact entered_raise_udef_of_arm harm

end Sys2Proof.Machine
end

section
/-! PROOFS. Status registers (44_status_register_access.md R135 to R137): MRS and MSR, and how User mode is left. -/

namespace Sys2Proof.Machine

/-! ## The bits an MSR writes (R136, R137) -/

theorem getLsbD_mergeBits (mask old v : Word) {j : Nat} (hj : j < 32) :
    (mergeBits mask old v).getLsbD j = if mask.getLsbD j = true then v.getLsbD j else old.getLsbD j := by
  simp only [mergeBits, BitVec.getLsbD_or, BitVec.getLsbD_and, BitVec.getLsbD_not, hj]
  cases mask.getLsbD j <;> simp

theorem getLsbD_fieldByteMask (mask : BitVec 4) {j : Nat} (hj : j < 32) :
    (byteMask mask).getLsbD j = mask.getLsbD (j / 8) := by
  have hall : ∀ (m : BitVec 4) (k : Fin 32), (byteMask m).getLsbD k = m.getLsbD (k / 8) := by decide
  exact hall mask ⟨j, hj⟩

theorem getLsbD_flagsMask : ∀ k : Fin 32, (0xFF000000#32).getLsbD k = decide (24 ≤ k.val) := by decide

theorem getLsbD_cpsrWriteMask (mask : BitVec 4) (p : Word) {j : Nat} (hj : j < 32) :
    (cpsrWriteMask mask p).getLsbD j = true ↔ mask.getLsbD (j / 8) = true ∧ (psrM p = 0b10000#5 → 24 ≤ j) := by
  have hflags : (0xFF000000#32).getLsbD j = decide (24 ≤ j) := getLsbD_flagsMask ⟨j, hj⟩
  by_cases huser : psrM p = 0b10000#5
  · simp [cpsrWriteMask, userMode, Mode.bits, huser, getLsbD_fieldByteMask mask hj, hflags]
  · simp [cpsrWriteMask, userMode, Mode.bits, huser, getLsbD_fieldByteMask mask hj]

/-! ## User mode is left by an exception (R137, 60_exceptions.md R182) -/

/-- The CPSR `q` has the mode, I and F of `p`. -/
structure SameControl (p q : Word) : Prop where
  mode : psrM q = psrM p
  irq : psrI q = psrI p
  fiq : psrF q = psrF p

theorem sameControl_refl (p : Word) : SameControl p p := ⟨rfl, rfl, rfl⟩

/-- The mode, I and F are all of the low byte but T. -/
theorem sameControl_of_lowByte {p q : Word} (h : ∀ j, j < 8 → j ≠ 5 → q.getLsbD j = p.getLsbD j) :
    SameControl p q where
  mode := psrM_congr fun j hj => h j (by omega) (by omega)
  irq := h 7 (by decide) (by decide)
  fiq := h 6 (by decide) (by decide)

/-- What the contract of `ExecOther` keeps in User mode (45_other_instructions.md R141 item 2). -/
theorem sameControl_of_and {p q : Word} (h : q &&& 0xDF#32 = p &&& 0xDF#32) : SameControl p q := by
  refine sameControl_of_lowByte fun j hj hT => ?_
  have hmask : ∀ k : Fin 8, k.val ≠ 5 → (0xDF#32).getLsbD k = true := by decide
  simpa [hmask ⟨j, hj⟩ hT] using congrArg (·.getLsbD j) h

/-- In User mode an MSR writes none of the bits below 24. -/
theorem sameControl_msr {p : Word} (huser : psrM p = 0b10000#5) (mask : BitVec 4) (v : Word) :
    SameControl p (mergeBits (cpsrWriteMask mask p) p v) := by
  refine sameControl_of_lowByte fun j hj _ => ?_
  rw [getLsbD_mergeBits _ _ _ (by omega), if_neg]
  intro hwritten
  have hflags := ((getLsbD_cpsrWriteMask mask p (by omega)).mp hwritten).2 huser
  omega

/-- `t` is a state just entered by an exception, the CPSR before it being `p`. -/
def ExceptionTaken (p : Word) (t : State) : Prop :=
  ∃ e : Exc, t.pc = e.vector ∧ psrM t.cpsr = e.mode.mode.bits ∧ psrI t.cpsr = true ∧ psrT t.cpsr = false ∧
    (e ≠ .reset → t.spsrs.get e.mode = p)

theorem exceptionTaken_of_entryPsr {e : Exc} {p q : Word} {t : State} (hpc : t.pc = e.vector)
    (hc : t.cpsr = entryPsr e q) (hsaved : e ≠ .reset → t.spsrs.get e.mode = p) : ExceptionTaken p t :=
  ⟨e, hpc, by rw [hc, psrM_entryPsr], by rw [hc, psrI_entryPsr], by rw [hc, psrT_entryPsr], hsaved⟩

theorem exceptionTaken_enterException (e : Exc) (link : Word) (s : State) :
    ExceptionTaken s.cpsr (enterException e link s) :=
  exceptionTaken_of_entryPsr rfl rfl fun _ => SpsrFile.get_set_same ..

theorem exceptionTaken_takeReset (p : Word) (s : State) : ExceptionTaken p (takeReset s) :=
  exceptionTaken_of_entryPsr (e := .reset) rfl rfl fun h => absurd rfl h

/-- From a CPSR `p` the state `t` was come to with mode, I and F kept or by an exception. -/
def ControlKeptOrTaken (p : Word) (t : State) : Prop := SameControl p t.cpsr ∨ ExceptionTaken p t

section
variable {s t : State} (huser : psrM s.cpsr = 0b10000#5)
include huser

/-- In User mode there is no SPSR to return from, and an MSR keeps the control bits. -/
theorem exec_controlKeptOrTaken {i : Instr} (h : exec i s = .next t) : ControlKeptOrTaken s.cpsr t := by
  cases (exec_tame h).status with
  | kept hc _ _ => exact .inl (sameControl_of_lowByte fun j hj _ => hc j (by omega))
  | thumbNext _ hc _ _ => exact .inl (hc ▸ sameControl_refl s.cpsr)
  | entered e _ hpc hc hs =>
    exact .inr (exceptionTaken_of_entryPsr hpc hc fun _ => by rw [hs, SpsrFile.get_set_same])
  | returned m hbank _ _ _ _ =>
    have hnone : s.bank = none := bankOf_of_mode (m := .usr) huser
    rw [hnone] at hbank
    cases hbank
  | msr mask v hc _ _ _ _ => exact .inl (hc ▸ sameControl_msr huser mask v)
  | msrSpsr _ _ _ _ hc _ _ => exact .inl (hc ▸ sameControl_refl s.cpsr)

theorem execOther_controlKeptOrTaken {w : Word} (h : execOther w s = .next t) : ControlKeptOrTaken s.cpsr t := by
  obtain ⟨-, -, ⟨e, -, hpc, hc, hs⟩ | ⟨-, -, hkept⟩⟩ := execOther_next h
  · exact .inr (exceptionTaken_of_entryPsr hpc hc fun _ => by rw [hs, SpsrFile.get_set_same])
  · exact .inl (sameControl_of_and (hkept (beq_iff_eq.mpr huser)))

theorem runDecoded_controlKeptOrTaken {d : Decoded} (h : runDecoded d s = .next t) : ControlKeptOrTaken s.cpsr t := by
  cases d with
  | instr i => exact exec_controlKeptOrTaken huser h
  | other c w =>
    rcases whenPassed_next h with ⟨-, h⟩ | ⟨-, rfl⟩
    · exact execOther_controlKeptOrTaken huser h
    · exact .inl (sameControl_refl s.cpsr)
  | refused r => cases h

end

theorem runAborted_controlKeptOrTaken {s t : State} (h : runAborted s = .next t) : ControlKeptOrTaken s.cpsr t := by
  unfold runAborted at h
  split at h
  · exact next_inj h ▸ .inr (exceptionTaken_enterException .pabt _ s)
  split at h
  · exact next_inj h ▸ .inr (exceptionTaken_enterException .pabt _ (s.drew 1))
  · exact next_inj h ▸ .inl (sameControl_refl s.cpsr)

theorem fetchAndRun_controlKeptOrTaken {s t : State} (huser : psrM s.cpsr = 0b10000#5)
    (h : fetchAndRun s = .next t) : ControlKeptOrTaken s.cpsr t := by
  obtain ⟨-, ⟨-, h⟩ | ⟨-, h⟩⟩ := fetchAndRun_next h
  · exact runAborted_controlKeptOrTaken (s := s.consulted) h
  · exact runDecoded_controlKeptOrTaken (s := s.consulted) huser h

theorem step_controlKeptOrTaken {s t : State} (huser : psrM s.cpsr = 0b10000#5) (h : step s = .next t) :
    ControlKeptOrTaken s.cpsr t := by
  obtain ⟨-, ⟨-, rfl⟩ | ⟨-, -, rfl⟩ | ⟨-, -, -, rfl⟩ | ⟨-, -, -, h⟩⟩ := step_next h
  · exact .inr (exceptionTaken_takeReset s.cpsr s.passBoundary)
  · exact .inr (exceptionTaken_enterException .fiq _ s.passBoundary)
  · exact .inr (exceptionTaken_enterException .irq _ s.passBoundary)
  · exact fetchAndRun_controlKeptOrTaken (s := s.passBoundary) huser h

/-- Settles O56: of what a step can be, only exceptions reach the mode, I and F of User mode. -/
theorem userModeIsLeftOnlyByException : Obligations.UserModeIsLeftOnlyByException := by
  intro s t huser h
  obtain ⟨hmode, hirq, hfiq⟩ | htaken := step_controlKeptOrTaken huser h
  · exact .inl ⟨hmode.trans huser, hirq, hfiq⟩
  · exact .inr htaken

/-! ## MSR (R136) -/

/-- `i` is an MSR to the CPSR (`r` false) or to the SPSR of the operand `v`, read in `s`; register 15 is no operand. -/
def MsrForm (s : State) (i : Instr) (c : Cond) (r : Bool) (mask : BitVec 4) (v : Word) : Prop :=
  (∃ rm, rm ≠ 15#4 ∧ i = .msrReg c r mask rm ∧ v = s.readReg rm) ∨
    ∃ rot imm, i = .msrImm c r mask rot imm ∧ v = (imm.setWidth 32).rotateRight (2 * rot.toNat)

theorem exec_of_msrForm {s : State} {i : Instr} {c : Cond} {r : Bool} {mask : BitVec 4} {v : Word}
    (hf : MsrForm s i c r mask v) (hc : condPassed c s.cpsr = true) : exec i s = msrOp r mask v s := by
  obtain ⟨rm, hrm, rfl, rfl⟩ | ⟨rot, imm, rfl, rfl⟩ := hf
  · exact (whenPassed_pos _ hc).trans (if_neg hrm)
  · exact whenPassed_pos _ hc

theorem exec_msrReg_pc {s : State} {c : Cond} (hc : condPassed c s.cpsr = true) (r : Bool) (mask : BitVec 4) :
    exec (.msrReg c r mask 15#4) s = .refused .msrPc := whenPassed_pos _ hc

section
variable {mask : BitVec 4} {s : State} {v new : Word} (hnew : new = mergeBits (cpsrWriteMask mask s.cpsr) s.cpsr v)
include hnew

theorem msrCpsr_of_changesT (hT : psrT new ≠ psrT s.cpsr) : msrCpsr mask v s = .refused .msrChangesT := by
  subst hnew
  exact if_pos hT

theorem msrCpsr_of_illegal (hT : psrT new = psrT s.cpsr) (hl : legalMode new = false) :
    msrCpsr mask v s = .refused .illegalMode := by
  subst hnew
  exact (if_neg (not_not.mpr hT)).trans (if_pos (by simp [hl]))

theorem msrCpsr_of_legal (hT : psrT new = psrT s.cpsr) (hl : legalMode new = true) :
    msrCpsr mask v s = .next { s with pc := s.pc + 4#32, cpsr := new } := by
  subst hnew
  exact (if_neg (not_not.mpr hT)).trans (if_neg (not_not.mpr hl))

end

/-- Settles O47: both operand forms run one operation, whose new CPSR is the merge under R137's mask. -/
theorem writeCpsr : Obligations.WriteCpsr := by
  intro s i c mask v hc hform
  have hrun : exec i s = msrCpsr mask v s := exec_of_msrForm (r := false) hform hc
  rw [hrun]
  refine ⟨mergeBits (cpsrWriteMask mask s.cpsr) s.cpsr v, fun j hj => ?_, msrCpsr_of_changesT rfl,
    msrCpsr_of_illegal rfl, msrCpsr_of_legal rfl⟩
  rw [getLsbD_mergeBits _ _ _ hj]
  exact if_congr (getLsbD_cpsrWriteMask mask s.cpsr hj) rfl rfl

theorem msrSpsr_of_noSpsr {s : State} (mask : BitVec 4) (v : Word) (hb : s.bank = none) :
    msrSpsr mask v s = .refused .noSpsr := by
  rw [msrSpsr, hb]

theorem msrSpsr_of_bank {s : State} {m : ExcMode} (mask : BitVec 4) (v : Word) (hb : s.bank = some m) :
    msrSpsr mask v s = .next { s with
      pc := s.pc + 4#32, spsrs := s.spsrs.set m (mergeBits (byteMask mask) (s.spsrs.get m) v) } := by
  rw [msrSpsr, hb]
  rfl

/-- Settles O48, by what the SPSR file holds after one write. -/
theorem writeSpsr : Obligations.WriteSpsr := by
  intro s i c mask v hc
  refine ⟨fun r => exec_msrReg_pc hc r mask, fun hform => ?_⟩
  have hrun : exec i s = msrSpsr mask v s := exec_of_msrForm (r := true) hform hc
  rw [hrun]
  refine ⟨msrSpsr_of_noSpsr mask v, fun m hb => ⟨_, msrSpsr_of_bank mask v hb, rfl, fun j hj => ?current,
    fun m' hm' => ?others⟩⟩
  case current => rw [SpsrFile.get_set_same, getLsbD_mergeBits _ _ _ hj, getLsbD_fieldByteMask mask hj]
  case others => rw [SpsrFile.get_set, if_neg hm']

/-! ## MRS (R135) -/

theorem exec_mrs {s : State} {c : Cond} (hc : condPassed c s.cpsr = true) (r : Bool) (rd : RegNum) :
    exec (.mrs c r rd) s = mrsOp r rd s := whenPassed_pos _ hc

theorem mrsOp_to_pc (r : Bool) (s : State) : mrsOp r 15#4 s = .refused .mrsPc := rfl

section
variable {rd : RegNum} {s : State} (hrd : rd ≠ 15#4)
include hrd

theorem mrsOp_cpsr : mrsOp false rd s = .next (s.writeReg rd s.cpsr).advanceArm := if_neg hrd

theorem mrsOp_of_noSpsr (hb : s.bank = none) : mrsOp true rd s = .refused .noSpsr := by
  simp [mrsOp, hrd, State.spsr?, hb]

theorem mrsOp_of_bank {m : ExcMode} (hb : s.bank = some m) :
    mrsOp true rd s = .next (s.writeReg rd (s.spsrs.get m)).advanceArm := by
  simp [mrsOp, hrd, State.spsr?, hb]

end

theorem State.writeReg_advanceArm_frame (s : State) (rd : RegNum) (v : Word) :
    (s.writeReg rd v).advanceArm = { s with pc := s.pc + 4#32, regs := (s.writeReg rd v).advanceArm.regs } := by
  rw [s.writeReg_eq rd v]
  rfl

/-- Settles O46: both registers end in one register write and the advance of the pc. -/
theorem readStatus : Obligations.ReadStatus := by
  intro s c rd hc
  simp only [exec_mrs hc]
  refine ⟨fun r hpc => hpc ▸ mrsOp_to_pc r s, fun hrd => ⟨?cpsr, mrsOp_of_noSpsr hrd, fun m hb => ?spsr⟩⟩
  case cpsr =>
    exact ⟨_, mrsOp_cpsr hrd, s.writeReg_advanceArm_frame rd _, s.writeReg_onlyReg rd _⟩
  case spsr =>
    exact ⟨_, mrsOp_of_bank hrd hb, s.writeReg_advanceArm_frame rd _, s.writeReg_onlyReg rd _⟩

end Sys2Proof.Machine
end

section
/-! PROOFS. `ExecOther` (45_other_instructions.md R140 to R142): the accesses of an effect, the contract it is held to, and
the registers and status registers it leaves. -/

namespace Sys2Proof.Machine

/-! ## The accesses (R141 item 5) -/

section
variable {st : State} {w : Word} {a : OtherAccess} {loaded : List Word}

theorem otherAccesses_of_guardFails (hg : a.guard.holds ⟨st, w, loaded⟩ = false) (rest : List OtherAccess) (s : State) :
    otherAccesses st w (a :: rest) loaded s = otherAccesses st w rest (loaded ++ [0#32]) s := by
  rw [otherAccesses, if_neg (by rw [hg]; decide)]

/-- A guarded access is its transfer. -/
theorem accessesArePrimitives (rest : List OtherAccess) (s : State) : AccessesArePrimitives st w a rest loaded s := by
  refine ⟨fun hg => otherAccesses_of_guardFails hg rest s, fun hg => ⟨fun ws hload => ?load, fun v hstore => ?store⟩⟩
  case load =>
    simp only [otherAccesses, hg, hload, if_true]
    exact ⟨fun v t h => by rw [h], fun t h => by rw [h], fun r h => by rw [h]⟩
  case store =>
    simp only [otherAccesses, hg, hstore, if_true]
    exact ⟨fun t h => by rw [h], fun t h => by rw [h], fun r h => by rw [h]⟩

end

/-! ## The contract (R141 items 1 to 3) -/

theorem writesAllowed_iff {s : State} {l : RegWrites} : writesAllowed s.bank l = true ↔ WritesNoOtherLink s l := by
  simp only [writesAllowed, List.all_eq_true, WritesNoOtherLink]
  constructor
  · intro h b v hmem
    exact beq_iff_eq.mp (h _ hmem)
  · rintro h ⟨q, v⟩ hmem
    cases q with
    | lr b => exact beq_iff_eq.mpr (h b v hmem)
    | _ => rfl

theorem State.ofNat_instrSize (s : State) : BitVec.ofNat 32 s.instrSize = if s.thumb then 2#32 else 4#32 := by
  cases h : s.thumb <;> simp [State.instrSize, h]

theorem isVector_eq_false_iff {a : Word} :
    isVector a = false ↔
      a ≠ 0x00#32 ∧ a ≠ 0x04#32 ∧ a ≠ 0x08#32 ∧ a ≠ 0x0C#32 ∧ a ≠ 0x10#32 ∧ a ≠ 0x18#32 ∧ a ≠ 0x1C#32 := by
  simp [isVector, Exc.vector]

/-- The mask is the low byte without T. -/
theorem and_0xDF_eq_iff {p q : Word} :
    q &&& 0xDF#32 = p &&& 0xDF#32 ↔ ∀ j, j < 8 → j ≠ 5 → q.getLsbD j = p.getLsbD j := by
  have hmask : ∀ k : Fin 32, (0xDF#32).getLsbD k = decide (k.val < 8 ∧ k.val ≠ 5) := by decide
  constructor
  · intro h j hj hT
    simpa [hmask ⟨j, by omega⟩, hj, hT] using congrArg (·.getLsbD j) h
  · intro h
    refine BitVec.eq_of_getLsbD_eq fun j hj => ?_
    rw [BitVec.getLsbD_and, BitVec.getLsbD_and, hmask ⟨j, hj⟩]
    by_cases hin : j < 8 ∧ j ≠ 5
    · rw [h j hin.1 hin.2]
    · simp [hin]

/-- Item 2: in User mode the low byte of the CPSR is kept, T apart if the instruction may change it. -/
theorem userByteKept_iff {p q : Word} {bx : Bool} :
    (!userMode p || (q &&& 0xDF#32 == p &&& 0xDF#32 && (psrT q == psrT p || bx))) = true ↔
      (p.setWidth 5 = 0b10000#5 → ∀ j, j < 8 → q.getLsbD j = p.getLsbD j ∨ (j = 5 ∧ bx = true)) := by
  rw [Bool.or_eq_true, Bool.not_eq_true', ← Bool.not_eq_true, ← imp_iff_not_or]
  refine imp_congr beq_iff_eq ?_
  rw [Bool.and_eq_true, Bool.or_eq_true, beq_iff_eq, beq_iff_eq, and_0xDF_eq_iff]
  constructor
  · rintro ⟨hbits, hT⟩ j hj
    by_cases hj5 : j = 5
    · subst hj5
      exact hT.imp_right fun hbx => ⟨rfl, hbx⟩
    · exact .inl (hbits j hj hj5)
  · intro h
    exact ⟨fun j hj hj5 => (h j hj).resolve_right fun hx => hj5 hx.1, (h 5 (by decide)).imp_right And.right⟩

theorem contract_iff {s : State} {l : RegWrites} {w cpsr pc : Word} {spsr : Option Word} :
    (writesAllowed s.bank l && statusAllowed s w cpsr spsr pc) = true ↔ KeepsContract s w l cpsr spsr pc := by
  have hjump : (pc == s.pc + BitVec.ofNat 32 s.instrSize || !isVector pc) = true ↔
      pc = s.pc + (if s.thumb then 2#32 else 4#32) ∨
        (pc ≠ 0x00#32 ∧ pc ≠ 0x04#32 ∧ pc ≠ 0x08#32 ∧ pc ≠ 0x0C#32 ∧ pc ≠ 0x10#32 ∧ pc ≠ 0x18#32 ∧ pc ≠ 0x1C#32) := by
    rw [Bool.or_eq_true, beq_iff_eq, s.ofNat_instrSize, Bool.not_eq_true', isVector_eq_false_iff]
  have hspsr : (spsr.isNone || s.bank.isSome) = true ↔ spsr = none ∨ s.bank ≠ none := by
    rw [Bool.or_eq_true, Option.isNone_iff_eq_none, Option.isSome_iff_ne_none]
  simp only [statusAllowed, KeepsContract, Bool.and_eq_true, writesAllowed_iff, hjump, userByteKept_iff, hspsr, and_assoc]

/-! ## The registers left -/

theorem State.writePhys_get_eq_lastWrite (s : State) (l : RegWrites) (q : PhysReg) :
    (s.writePhys l).regs.get q = lastWrite l q (s.regs.get q) := s.writePhys_get l q

theorem lastWrite_append (l l' : RegWrites) (q : PhysReg) (v : Word) :
    lastWrite (l ++ l') q v = lastWrite l' q (lastWrite l q v) := List.foldl_append

theorem lastWrite_singleton_same (q : PhysReg) (x v : Word) : lastWrite [(q, x)] q v = x := if_pos rfl

theorem lastWrite_singleton_ne {p q : PhysReg} (h : p ≠ q) (x v : Word) : lastWrite [(p, x)] q v = v := if_neg h

/-- After an abort the base holds its original or its written-back value (R141 item 4). -/
theorem baseAfterAbort_of_base {e : OtherEffect} {c : OtherArgs} {q : PhysReg} (h : e.base.resolve c = some q) :
    ∃ v, e.baseAfterAbort c = [(q, v)] ∧ (v = c.s.regs.get q ∨ ∃ x, e.writeBack = some x ∧ v = x.eval c) := by
  rw [OtherEffect.baseAfterAbort, h]
  cases hwb : e.writeBack with
  | none => exact ⟨_, rfl, .inl rfl⟩
  | some x =>
    cases hr : e.restoresBase with
    | true => exact ⟨_, rfl, .inl rfl⟩
    | false => exact ⟨_, rfl, .inr ⟨x, rfl, rfl⟩⟩

theorem baseAfterAbort_of_noBase {e : OtherEffect} {c : OtherArgs} (h : e.base.resolve c = none) :
    e.baseAfterAbort c = [] := by
  rw [OtherEffect.baseAfterAbort, h]

theorem lastWrite_baseAfterAbort_ne {e : OtherEffect} {c : OtherArgs} {q : PhysReg} (h : e.base.resolve c ≠ some q)
    (v : Word) : lastWrite (e.baseAfterAbort c) q v = v := by
  cases hb : e.base.resolve c with
  | none => rw [baseAfterAbort_of_noBase hb]; rfl
  | some p =>
    obtain ⟨x, hx, -⟩ := baseAfterAbort_of_base hb
    rw [hx, lastWrite_singleton_ne fun hpq => h (hb.trans (congrArg some hpq))]

theorem State.writeSpsr?_get (s : State) (v : Option Word) (m : ExcMode) :
    (s.writeSpsr? v).spsrs.get m = if s.bank = some m then v.getD (s.spsrs.get m) else s.spsrs.get m := by
  cases hb : s.bank with
  | none => simp [State.writeSpsr?, hb]
  | some n =>
    cases v with
    | none => simp [State.writeSpsr?, hb]
    | some p => simp [State.writeSpsr?, hb, SpsrFile.get_set, eq_comm]

/-! ## The outcomes (R140) -/

theorem runDecoded_other {c : Cond} {s : State} (hc : condPassed c s.cpsr = true) (w : Word) :
    runDecoded (.other c w) s = execOther w s := whenPassed_pos _ hc

theorem execOther_of_noRule {w : Word} {s : State} (h : ∀ r, r ∈ s.platform.execOther → r.answers w s = false) :
    execOther w s = .refused .instructionNotInSpec := by
  have hnone : s.platform.execOther.find? (fun r => r.answers w s) = none :=
    List.find?_eq_none.mpr fun r hr => by rw [h r hr]; decide
  rw [execOther, hnone]

theorem execOther_of_rule {w : Word} {s : State} {r : OtherRule}
    (h : s.platform.execOther.find? (fun x => x.answers w s) = some r) : execOther w s = applyOther r.outcome w s := by
  rw [execOther, h]

section
variable {e : OtherEffect} {w : Word} {s t : State} {ws : RegWrites}

theorem runEffect_of_refused {x : Refusal} (h : otherAccesses s w e.accesses [] s = .refused x) :
    runEffect e w s = .refused x := by
  simp only [runEffect, h]

theorem runEffect_of_done {loaded : List Word} (h : otherAccesses s w e.accesses [] s = .done ws loaded t) :
    runEffect e w s =
      finishOther (e.baseWritten ⟨s, w, []⟩ ++ ws ++ writeResults ⟨s, w, loaded⟩ e.regs) w (e.cpsr.eval ⟨s, w, loaded⟩)
        (e.spsr.map (OtherExpr.eval ⟨s, w, loaded⟩)) (e.pc.eval ⟨s, w, loaded⟩) s t := by
  simp only [runEffect, h]

theorem runEffect_of_aborted (h : otherAccesses s w e.accesses [] s = .aborted ws t) :
    runEffect e w s = finishAborted (ws ++ e.baseAfterAbort ⟨s, w, []⟩) s t := by
  simp only [runEffect, h]

theorem accessed_of_done {l : List OtherAccess} {loaded : List Word}
    (h : otherAccesses s w l [] s = .done ws loaded t) : Accessed s t := by
  have hkeeps := otherAccesses_keeps s w l [] s
  rw [h] at hkeeps
  exact hkeeps

theorem accessed_of_aborted {l : List OtherAccess} (h : otherAccesses s w l [] s = .aborted ws t) : Accessed s t := by
  have hkeeps := otherAccesses_keeps s w l [] s
  rw [h] at hkeeps
  exact hkeeps

end

section
variable {l : RegWrites} {w cpsr pc : Word} {spsr : Option Word} {s t : State}

theorem finishOther_of_contractBroken (h : ¬ KeepsContract s w l cpsr spsr pc) :
    finishOther l w cpsr spsr pc s t = .refused .execOtherContract := if_neg (mt contract_iff.mp h)

theorem finishOther_of_contractKept (h : KeepsContract s w l cpsr spsr pc) :
    finishOther l w cpsr spsr pc s t = setPc pc { (t.writePhys l).writeSpsr? spsr with cpsr := cpsr } :=
  if_pos (contract_iff.mpr h)

theorem finishAborted_of_otherLink (h : ¬ WritesNoOtherLink s l) :
    finishAborted l s t = .refused .execOtherContract := if_neg (mt writesAllowed_iff.mp h)

theorem finishOther_of_misaligned (h : KeepsContract s w l cpsr spsr pc)
    (hal : pc.toNat % (if cpsr.getLsbD 5 then 2 else 4) ≠ 0) :
    finishOther l w cpsr spsr pc s t = .refused .misalignedPc :=
  (finishOther_of_contractKept h).trans (setPc_of_misaligned hal)

/-- The state an effect gives, its accesses having come to `t`. -/
theorem finishOther_completes (hacc : Accessed s t) (h : KeepsContract s w l cpsr spsr pc)
    (hal : pc.toNat % (if cpsr.getLsbD 5 then 2 else 4) = 0) :
    ∃ u, finishOther l w cpsr spsr pc s t = .next u ∧ u.pc = pc ∧ u.cpsr = cpsr ∧ u.mem = t.mem ∧
      u.deviceLog = t.deviceLog ∧ u.platform = s.platform ∧
      (∀ m, u.spsrs.get m = if s.bank = some m then spsr.getD (s.spsrs.get m) else s.spsrs.get m) ∧
      ∀ q, u.regs.get q = lastWrite l q (s.regs.get q) := by
  have hbank : (t.writePhys l).bank = s.bank := hacc.bank
  refine ⟨_, (finishOther_of_contractKept h).trans (setPc_of_aligned hal), rfl, rfl, by simp, by simp,
    by simp [hacc.platform], fun m => ?spsrs, fun q => ?regs⟩
  case spsrs => rw [State.writeSpsr?_get, hbank, State.writePhys_spsrs, hacc.spsrs]
  case regs => rw [State.writeSpsr?_regs, State.writePhys_get_eq_lastWrite, hacc.regs]

/-- The Data Abort from the state with the loaded registers and the base written. -/
theorem finishAborted_dataAborted (hacc : Accessed s t) (h : WritesNoOtherLink s l) :
    ∃ u, finishAborted l s t = .next u ∧ DataAborted s (t.writePhys l) u := by
  rw [finishAborted, if_pos (writesAllowed_iff.mpr h)]
  exact dataAborted_raise hacc.pc hacc.cpsr hacc.spsrs

end

/-- The registers once the base of an aborted instruction is settled. -/
theorem lastWrite_aborted {e : OtherEffect} {c : OtherArgs} (ws : RegWrites) (q : PhysReg) (v : Word) :
    let r := lastWrite (ws ++ e.baseAfterAbort c) q v
    (e.base.resolve c = some q → r = c.s.regs.get q ∨ ∃ x, e.writeBack = some x ∧ r = x.eval c) ∧
    (e.base.resolve c ≠ some q → r = lastWrite ws q v) := by
  intro r
  have hr : r = lastWrite (e.baseAfterAbort c) q (lastWrite ws q v) := lastWrite_append ..
  rw [hr]
  refine ⟨fun hbase => ?_, fun hbase => lastWrite_baseAfterAbort_ne hbase _⟩
  obtain ⟨x, hx, hvalue⟩ := baseAfterAbort_of_base hbase
  rw [hx, lastWrite_singleton_same]
  exact hvalue

/-- Settles O13: the rule that answers gives the outcome, and of an effect the accesses say which it is. -/
theorem execOtherOutcomes : Obligations.ExecOtherOutcomes := by
  refine ⟨fun st w a rest loaded s => accessesArePrimitives rest s, fun s c w hc => ?_⟩
  simp only [runDecoded_other hc]
  refine ⟨execOther_of_noRule, fun r hr => ?_⟩
  rw [execOther_of_rule hr]
  refine ⟨fun reason ho => by rw [ho, applyOther], fun ho => ?undefined, fun e ho => ?effect⟩
  case undefined =>
    rw [ho]
    exact entered_raise (e := .udef) rfl
  case effect =>
    rw [ho, applyOther]
    refine ⟨fun x => runEffect_of_refused, fun ws loaded t hdone => ?completed, fun ws t habort => ?aborted⟩
    case completed =>
      rw [runEffect_of_done hdone]
      exact ⟨finishOther_of_contractBroken, fun hkept =>
        ⟨finishOther_of_misaligned hkept, finishOther_completes (accessed_of_done hdone) hkept⟩⟩
    case aborted =>
      have hacc := accessed_of_aborted habort
      rw [runEffect_of_aborted habort]
      refine ⟨finishAborted_of_otherLink, fun hlinks => ?_⟩
      obtain ⟨u, hrun, hstatus, hlink, hregs, hmem, hlog⟩ := finishAborted_dataAborted hacc hlinks
      refine ⟨u, hrun, hstatus, hlink, hmem, hlog, fun q hq => ?_⟩
      rw [hregs q hq, State.writePhys_get_eq_lastWrite, hacc.regs]
      exact lastWrite_aborted ws q (s.regs.get q)

end Sys2Proof.Machine
end

section
/-! PROOFS. Exceptions (60_exceptions.md): the entry, the requests taken at an instruction boundary, the fetch, and the
returns. -/

namespace Sys2Proof.Machine

/-! ## Entry (R152 to R155) -/

/-- Every exception but Reset saves the address it is given plus the offset. -/
theorem entered_takeException {e : Exc} {a k : Word} {s : State} (h : e.offset s.thumb = some k) :
    Entered e.vector e.mode (a + k) e.masksFiq s (takeException e a s) := by
  rw [takeException_eq h]
  exact entered_enterException e (a + k) s

/-- An entry sees neither the answers of the environment nor the counter of free values, so it is one from the state
before they were used up. -/
theorem entered_raise_environment {e : Exc} {k : Word} {s : State} (h : e.offset s.thumb = some k) (x : Inputs)
    (n : Nat) :
    ∃ t, raise e { s with inputs := x, draws := n } = .next t ∧ Entered e.vector e.mode (s.pc + k) e.masksFiq s t ∧
      t.platform = s.platform := by
  obtain ⟨t, hraise, hentered⟩ := entered_raise (s := { s with inputs := x, draws := n }) h
  have hstatus : EnteredStatus e.vector e.mode e.masksFiq s t :=
    .congr (u := { s with inputs := x, draws := n }) rfl rfl hentered.status
  refine ⟨t, hraise, ⟨hstatus, hentered.link, hentered.otherRegs, hentered.memory⟩, ?_⟩
  rw [← next_inj hraise, takeException_platform]

/-- Supervisor mode, I and F set, ARM state: Reset gives the whole low byte (70_reset_and_hazards.md R195). -/
theorem lowByte_entryPsr_reset (p : Word) : (entryPsr .reset p).setWidth 8 = 0xD3#8 := by
  apply BitVec.eq_of_getLsbD_eq
  intro j hj
  rw [BitVec.getLsbD_setWidth, getLsbD_entryPsr]
  interval_cases j <;> rfl

/-- Settles O14: the table of R153 and R154 is what the entry is made with. -/
theorem exceptionEntryTable : Obligations.ExceptionEntryTable := by
  intro a s
  refine ⟨?udef, ?swi, ?pabt, ?dabt, ?irq, ?fiq, takeReset_pc s, lowByte_entryPsr_reset _,
    sameMemory_of_eq (takeReset_mem s) (takeReset_deviceLog s)⟩
  case udef => exact entered_takeException (e := .udef) rfl
  case swi => exact entered_takeException (e := .swi) rfl
  case pabt => exact entered_takeException (e := .pabt) rfl
  case dabt => exact entered_takeException (e := .dabt) rfl
  case irq => exact entered_takeException (e := .irq) rfl
  case fiq => exact entered_takeException (e := .fiq) rfl

/-! ## The instruction boundary (R160, R163, R175, R178) -/

theorem State.halted_eq_false_iff {s : State} : s.halted = false ↔ s.platform.haltAddr ≠ some s.pc := by
  simp [State.halted]

theorem State.resetNow_iff {s : State} : s.resetNow = true ↔ s.inputs.reset.head? = some true := by
  unfold State.resetNow
  cases s.inputs.reset <;> simp

theorem State.fiqNow_iff {s : State} :
    s.fiqNow = true ↔ s.cpsr.getLsbD 6 = false ∧ s.inputs.fiq.head? = some .low := by
  unfold State.fiqNow psrF
  cases s.inputs.fiq <;> simp

theorem State.irqNow_iff {s : State} :
    s.irqNow = true ↔ s.cpsr.getLsbD 7 = false ∧ s.inputs.irq.head? = some .low := by
  unfold State.irqNow psrI
  cases s.inputs.irq <;> simp

section
variable {s : State} (hh : s.halted = false)
include hh

theorem step_of_reset (hr : s.resetNow = true) : step s = .next (takeReset s.passBoundary) := by
  simp [step, cycle, hh, hr, raise, takeException_reset]

theorem step_of_fiq (hr : s.resetNow = false) (hf : s.fiqNow = true) : step s = raise .fiq s.passBoundary := by
  simp [step, cycle, hh, hr, hf]

theorem step_of_irq (hr : s.resetNow = false) (hf : s.fiqNow = false) (hi : s.irqNow = true) :
    step s = raise .irq s.passBoundary := by
  simp [step, cycle, hh, hr, hf, hi]

end

/-- Settles O9: no other line is looked at. -/
theorem resetWins : Obligations.ResetWins := fun s hh hr =>
  ⟨takeReset s.passBoundary, step_of_reset (State.halted_eq_false_iff.mpr hh) (State.resetNow_iff.mpr hr), rfl,
    lowByte_entryPsr_reset _, sameMemory_of_eq rfl rfl, rfl⟩

/-- Settles O10. -/
theorem fiqTakenWhenRequestedAndEnabled : Obligations.FiqTakenWhenRequestedAndEnabled := by
  intro s hh hr henabled hlow
  rw [step_of_fiq (State.halted_eq_false_iff.mpr hh) (Bool.eq_false_iff.mpr (mt State.resetNow_iff.mp hr))
    (State.fiqNow_iff.mpr ⟨henabled, hlow⟩)]
  exact entered_raise_environment rfl ..

/-- Settles O11. -/
theorem irqTakenWhenRequestedAndEnabled : Obligations.IrqTakenWhenRequestedAndEnabled := by
  intro s hh hr hf henabled hlow
  rw [step_of_irq (State.halted_eq_false_iff.mpr hh) (Bool.eq_false_iff.mpr (mt State.resetNow_iff.mp hr))
    (Bool.eq_false_iff.mpr (mt State.fiqNow_iff.mp hf)) (State.irqNow_iff.mpr ⟨henabled, hlow⟩)]
  exact entered_raise_environment rfl ..

/-! ## The fetch (R166, R167, R178; 20_memory.md R57, R64) -/

theorem bytes_fetchWidth (s : State) : (fetchWidth s.thumb).bytes = s.instrSize := by
  unfold State.instrSize
  cases s.thumb <;> rfl

theorem fetchAndRun_of_refused {s : State} {r : Refusal} (h : fetch (fetchWidth s.thumb) s.pc s = .refused r) :
    fetchAndRun s = .refused r := by
  simp only [fetchAndRun, h]

theorem fetchAndRun_of_abort {s t : State} (h : fetch (fetchWidth s.thumb) s.pc s = .abort t) :
    fetchAndRun s = runAborted t := by
  simp only [fetchAndRun, h]

/-- The Prefetch Abort, or in ARM state the advance of the pc alone, as the free bit says. -/
theorem runAborted_takenOrSkipped (s : State) (x : Inputs) (n : Nat) :
    ∃ t, runAborted { s with inputs := x, draws := n } = .next t ∧
      (Entered 0x0000000C#32 .abt (s.pc + 4#32) false s t ∨
        (s.thumb = false ∧ t.pc = s.pc + 4#32 ∧ SameRegs s t ∧ SameStatus s t ∧ SameMemory s t)) := by
  have hpabt (d : Nat) : ∃ t, raise .pabt { s with inputs := x, draws := d } = .next t ∧
      Entered 0x0000000C#32 .abt (s.pc + 4#32) false s t := by
    obtain ⟨t, hraise, hentered, -⟩ := entered_raise_environment (e := .pabt) (s := s) rfl x d
    exact ⟨t, hraise, hentered⟩
  unfold runAborted
  split
  · obtain ⟨t, hraise, hentered⟩ := hpabt n
    exact ⟨t, hraise, .inl hentered⟩
  rename_i harm
  split
  · obtain ⟨t, hraise, hentered⟩ := hpabt (n + 1)
    exact ⟨t, hraise, .inl hentered⟩
  · exact ⟨_, rfl, .inr ⟨Bool.eq_false_iff.mpr harm, rfl, fun _ => rfl, ⟨rfl, rfl⟩, sameMemory_of_eq rfl rfl⟩⟩

/-- Settles O12: ABORT is looked at before an address with nothing is refused, so it decides alone. -/
theorem abortedFetchIsTakenOrSkipped : Obligations.AbortedFetchIsTakenOrSkipped := by
  intro s hq hal hdevice habort
  rw [← bytes_fetchWidth] at hal
  have hfetch : fetch (fetchWidth s.thumb) s.pc s.passBoundary = .abort s.passBoundary.consulted :=
    fetch_of_abort hal hdevice habort
  rw [step_of_quiet hq.halted hq.reset hq.fiq hq.irq, fetchAndRun_of_abort (s := s.passBoundary) hfetch]
  exact runAborted_takenOrSkipped s ..

/-- The bits fetched, as the state reads them. -/
theorem fetchedCode_memValue (s : State) :
    fetchedCode s.thumb (s.memValue (fetchWidth s.thumb) s.pc) =
      if s.thumb then .thumb ((s.memValue .half s.pc).setWidth 16) else .arm (s.memValue .word s.pc) := by
  cases s.thumb <;> rfl

/-- Settles O7: what the decoder finds in the bits fetched, or the refusal of the fetch, is the whole step. -/
theorem stepRunsInstructionAtPc : Obligations.StepRunsInstructionAtPc := by
  refine ⟨fun s hq hready => ?_, fun s hq => ?_⟩
  · have hstep := step_of_readReady hq hready
    rw [fetchedCode_memValue] at hstep
    refine ⟨fun i hi => ?_, fun c w hother => ⟨?_, fun hc => ?_, fun hthumb => ?_, fun harm => ?_⟩⟩
    · exact hstep.trans (by rw [hi]; rfl)
    · rw [hstep, hother]; rfl
    · rw [hstep, hother]
      exact whenPassed_neg _ hc
    · rw [if_pos hthumb] at hother
      exact decodeThumb_other hother
    · rw [if_neg (Bool.eq_false_iff.mp harm)] at hother
      exact decodeArm_other hother
  · have hrefused {r : Refusal} (h : fetch (fetchWidth s.thumb) s.pc s.passBoundary = .refused r) :
        step s = .refused r := by
      rw [step_of_quiet hq.halted hq.reset hq.fiq hq.irq]
      exact fetchAndRun_of_refused (s := s.passBoundary) h
    exact ⟨fun hal => hrefused (fetch_of_misaligned hal), fun hal =>
      ⟨fun hdevice => hrefused (fetch_of_device hal hdevice), fun hdevice habort hnothing =>
        hrefused (fetch_of_nothing hal hdevice habort hnothing)⟩⟩

/-! ## Returns (R157, R158; 40_exception_return.md R94 to R96) -/

theorem EnteredStatus.bank {vector : Word} {m : ExcMode} {setsF : Bool} {s t : State}
    (h : EnteredStatus vector m setsF s t) : t.bank = some m := by
  have hmode : psrM t.cpsr = m.mode.bits := h.mode
  rw [State.bank, bankOf, hmode, Mode.ofBits_bits]
  cases m <;> rfl

section
variable {vector link target : Word} {m : ExcMode} {setsF : Bool} {s t : State} (h : Entered vector m link setsF s t)
include h

theorem Entered.readReg_link : t.readReg 14#4 = link := by
  rw [State.readReg, h.status.bank, State.readBank, physReg_lr]
  exact h.link

theorem Entered.pcResult_movsPcR14 : PcResult t (.movsPcR14 .al) .al true link :=
  .inl ⟨_, by rw [movForm, h.readReg_link]⟩

theorem Entered.pcResult_subsPcR14Imm4 (hl : link = target + 4#32) : PcResult t (.subsPcR14Imm4 .al) .al true target :=
  .inr ⟨_, _, rfl, by rw [h.readReg_link, hl, BitVec.add_sub_cancel]⟩

theorem Entered.pcResult_subsPcR14Imm8 (hl : link = target + 8#32) : PcResult t (.subsPcR14Imm8 .al) .al true target :=
  .inr ⟨_, _, rfl, by rw [h.readReg_link, hl, BitVec.add_sub_cancel]⟩

/-- A return from the mode entered restores the CPSR that was saved there. -/
theorem Entered.exec_return {i : Instr} (hi : PcResult t i .al true target) (hlegal : legalMode s.cpsr = true)
    (hal : AlignedTo s.instrSize target) : exec i t = .next { t with cpsr := s.cpsr, pc := target } := by
  have hsaved := h.status.saved
  rw [exec_of_pcResult hi rfl]
  rw [← hsaved] at hlegal ⊢
  refine exceptionReturn_of_legal h.status.bank hlegal ?_
  rwa [instrSize_congr (s := s) hsaved]

end

/-- The instruction after the one at an aligned pc is aligned. -/
theorem State.pcAligned.following {s : State} (hs : s.pcAligned) :
    AlignedTo s.instrSize (s.pc + if s.thumb then 2#32 else 4#32) := by
  unfold State.pcAligned State.instrSize at *
  cases hT : s.thumb <;> rw [hT] at hs <;> exact alignedTo_add (by decide) hs (by decide)

/-- Settles O15: each return takes the offset of its exception off again. -/
theorem returnInstructionUndoesEntry : Obligations.ReturnInstructionUndoesEntry := by
  intro s hlegal haligned back following
  have hback {e : Exc} {i : Instr} {k target : Word} (hk : e.offset s.thumb = some k)
      (hi : ∀ t, Entered e.vector e.mode (s.pc + k) e.masksFiq s t → PcResult t i .al true target)
      (hal : AlignedTo s.instrSize target) : back e i target := by
    have hentered := entered_takeException (a := s.pc) hk
    exact ⟨_, hentered.exec_return (hi _ hentered) hlegal hal, rfl, rfl, hentered.memory, hentered.otherRegs⟩
  refine ⟨?swi, ?udef, ?pabt, ?irq, ?fiq, ?dabt⟩
  case swi | udef => exact hback rfl (fun _ h => h.pcResult_movsPcR14) haligned.following
  case pabt | irq | fiq => exact hback rfl (fun _ h => h.pcResult_subsPcR14Imm4 rfl) haligned
  case dabt => exact hback rfl (fun _ h => h.pcResult_subsPcR14Imm8 rfl) haligned

/-! ## A Data Abort together with an FIQ (R177) -/

/-- Settles O16: the FIQ is taken from the state the abort entered, and its entry touches neither r14 nor the SPSR of Abort
mode. -/
theorem dataAbortThenFiq : Obligations.DataAbortThenFiq := by
  intro s a henabled hh hr hlow d
  have hdabt : Entered 0x00000010#32 .abt (a + 8#32) false s d := entered_takeException (e := .dabt) rfl
  have hF : d.cpsr.getLsbD 6 = false := hdabt.status.fiq.trans henabled
  obtain ⟨t, hstep, hfiq, -⟩ := fiqTakenWhenRequestedAndEnabled d hh hr hF hlow
  have hlink : t.regs.get (.lr (some .abt)) = a + 8#32 := (hfiq.otherRegs _ (by decide)).trans hdabt.link
  have hspsr : t.spsrs.get .abt = s.cpsr := (hfiq.status.otherSpsrs _ (by decide)).trans hdabt.status.saved
  have hreturn : exec (.subsPcR14Imm4 .al) t = .next { t with cpsr := d.cpsr, pc := 0x00000010#32 } := by
    refine hfiq.exec_return (hfiq.pcResult_subsPcR14Imm4 rfl) (legalMode_entryPsr ..) ?_
    rw [State.instrSize_of_arm hdabt.status.thumb]
    decide
  exact ⟨t, hstep, hfiq.status.pc, hfiq.link, hfiq.status.saved, hlink, hspsr, hfiq.status.mode, hfiq.status.irq,
    hfiq.status.fiq, _, hreturn, rfl, rfl, hlink, hspsr⟩

end Sys2Proof.Machine
end

section
/-! PROOFS. The end of a run (70_reset_and_hazards.md R207). -/

namespace Sys2Proof.Machine

theorem State.halted_iff {s : State} : s.halted = true ↔ s.platform.haltAddr = some s.pc := by
  simp [State.halted]

/-- The end of the run is looked at before everything else (60_exceptions.md R178). -/
theorem step_of_halted {s : State} (hh : s.halted = true) : step s = .fault .runEnded :=
  if_pos hh

/-- Past the end-of-run test the cycle enters an exception or runs an instruction, and neither faults. -/
theorem step_ne_fault_of_not_halted {s : State} (hh : s.halted = false) (f : Fault) : step s ≠ .fault f := by
  cases hr : s.resetNow with
  | true => simp [step_of_reset hh hr]
  | false =>
    cases hf : s.fiqNow with
    | true =>
      rw [step_of_fiq hh hr hf]
      exact raise_ne_fault _ _ f
    | false =>
      cases hi : s.irqNow with
      | true =>
        rw [step_of_irq hh hr hf hi]
        exact raise_ne_fault _ _ f
      | false =>
        rw [step_of_quiet hh hr hf hi]
        exact fetchAndRun_ne_fault _ f

/-- Settles O8: the end-of-run test is the only source of a fault. -/
theorem faultOnlyAtHaltAddress : Obligations.FaultOnlyAtHaltAddress := by
  intro s
  rw [← State.halted_iff]
  refine ⟨fun ⟨f, hfault⟩ => ?_, fun hh => ⟨_, step_of_halted hh⟩⟩
  by_contra hh
  exact step_ne_fault_of_not_halted (Bool.eq_false_iff.mpr hh) f hfault

end Sys2Proof.Machine
end

section
/-! PROOFS. The encoding (30_encoding.md): decoding and encoding undo each other. A row of the table tests some bits of a
word and reads all the others, so the instruction it builds determines the word; a word that a special row shares with a
general one is left to the special row (R86, log 13). -/

namespace Sys2Proof.Laws.Encoding

/-- The laws of the 49 instructions, as one. -/
theorem statement : ∀ i : Instr, Statement i
  | .b .. => b .. | .bl .. => bl .. | .swi .. => swi .. | .udef .. => udef ..
  | .ldrImmPre .. => ldrImmPre .. | .ldrImmPost .. => ldrImmPost ..
  | .ldrRegPre .. => ldrRegPre .. | .ldrRegPost .. => ldrRegPost ..
  | .ldrbImmPre .. => ldrbImmPre .. | .ldrbImmPost .. => ldrbImmPost ..
  | .ldrbRegPre .. => ldrbRegPre .. | .ldrbRegPost .. => ldrbRegPost ..
  | .strImmPre .. => strImmPre .. | .strImmPost .. => strImmPost ..
  | .strRegPre .. => strRegPre .. | .strRegPost .. => strRegPost ..
  | .strbImmPre .. => strbImmPre .. | .strbImmPost .. => strbImmPost ..
  | .strbRegPre .. => strbRegPre .. | .strbRegPost .. => strbRegPost ..
  | .ldm .. => ldm .. | .stm .. => stm .. | .swp .. => swp .. | .swpb .. => swpb ..
  | .cdp .. => cdp .. | .mrc .. => mrc .. | .mcr .. => mcr .. | .ldc .. => ldc .. | .stc .. => stc ..
  | .mrs .. => mrs .. | .msrReg .. => msrReg .. | .msrImm .. => msrImm ..
  | .movReg .. => movReg .. | .movsReg .. => movsReg .. | .movImm .. => movImm .. | .movsImm .. => movsImm ..
  | .subReg .. => subReg .. | .subsReg .. => subsReg .. | .subImm .. => subImm .. | .subsImm .. => subsImm ..
  | .movPcR14 .. => movPcR14 .. | .movsPcR14 .. => movsPcR14 ..
  | .subsPcR14Imm4 .. => subsPcR14Imm4 .. | .subsPcR14Imm8 .. => subsPcR14Imm8 ..
  | .ldrRdR14Minus8 .. => ldrRdR14Minus8 ..
  | .thumbSwi .. => thumbSwi .. | .thumbBlFirst .. => thumbBlFirst ..
  | .thumbBlSecond .. => thumbBlSecond .. | .thumbMovPcR14 => thumbMovPcR14

end Sys2Proof.Laws.Encoding

namespace Sys2Proof

open Machine (place bitsAt condOf condOf_build RowsClash generalRows_clash)

/-! ## Words that agree under a mask -/

/-- Two words have the same bits under a mask. -/
def Agree (m w w' : Word) : Prop := w &&& m = w' &&& m

theorem agree_iff {m w w' : Word} :
    Agree m w w' ↔ ∀ j, m.getLsbD j = true → w.getLsbD j = w'.getLsbD j := by
  refine BitVec.eq_of_getLsbD_eq_iff.trans ⟨fun h j hj => ?_, fun h j _ => ?_⟩
  · simpa [hj] using h j (BitVec.lt_of_getLsbD hj)
  · cases hj : m.getLsbD j with
    | false => simp [hj]
    | true => simp [h j hj]

theorem agree_zero (w w' : Word) : Agree 0#32 w w' := by simp [Agree]

/-- Agreement under two masks is agreement under both together. -/
theorem agree_and_agree {m n w w' : Word} : Agree m w w' ∧ Agree n w w' ↔ Agree (m ||| n) w w' := by
  simp only [agree_iff, BitVec.getLsbD_or, Bool.or_eq_true, or_imp, forall_and]

theorem eq_of_agree_allOnes {w w' : Word} (h : Agree (BitVec.allOnes 32) w w') : w = w' := by
  rwa [Agree, BitVec.and_allOnes, BitVec.and_allOnes] at h

/-- A field reads the same in two words that agree where it lies, and only in those. -/
theorem bitsAt_eq_iff_agree {w w' : Word} {lo n : Nat} :
    bitsAt w lo n = bitsAt w' lo n ↔ Agree (place (BitVec.allOnes n) lo) w w' := by
  simp only [agree_iff, getLsbD_place, BitVec.getLsbD_allOnes, Bool.and_eq_true, decide_eq_true_eq]
  refine BitVec.eq_of_getLsbD_eq_iff.trans ⟨fun h j ⟨⟨_, hlo⟩, hn⟩ => ?_, fun h k hk => ?_⟩
  · simpa [bitsAt, hn, hlo] using h (j - lo) hn
  · by_cases h32 : lo + k < 32
    · simpa [bitsAt, hk] using h (lo + k) (by omega)
    · simp [bitsAt, hk, BitVec.getLsbD_of_ge _ (lo + k) (Nat.le_of_not_lt h32)]

theorem bitOf_eq_iff_agree {w w' : Word} {i : Nat} : bitOf w i = bitOf w' i ↔ Agree (place 1#1 i) w w' := by
  have hbit : ∀ v : Word, bitsAt v i 1 = BitVec.ofBool (bitOf v i) := fun v => by
    ext k hk
    simp [bitsAt, bitOf, show k = 0 by omega]
  have hofBool : Function.Injective BitVec.ofBool := by decide
  rw [← hofBool.eq_iff, ← hbit, ← hbit]
  exact bitsAt_eq_iff_agree

theorem shiftTypeOfBits_injective : Function.Injective ShiftType.ofBits := by decide

theorem shiftOf_eq_iff_agree {w w' : Word} : shiftOf w = shiftOf w' ↔ Agree (place 0b11#2 5) w w' :=
  shiftTypeOfBits_injective.eq_iff.trans bitsAt_eq_iff_agree

/-! ## The rows of the table -/

/-- The bits that a row does not test and that are not the condition's. -/
def ArmRow.fieldMask (r : ArmRow) : Word := ~~~(r.mask ||| 0xF0000000#32)

/-- A row reads every bit of its field mask. -/
theorem agree_of_build_eq {r : ArmRow} (hr : r ∈ specialRows ++ generalRows) {c c' : Cond} {w w' : Word} :
    r.build c w = r.build c' w' → Agree r.fieldMask w w' := by
  revert r
  simp +contextual [specialRows, generalRows, branchAndTrapRows, loadRows, storeRows, blockAndSwapRows, coprocessorRows,
    statusRows, dataRows, ArmRow.fieldMask, rnOf, rdOf, rmOf, place, bitsAt_eq_iff_agree, bitOf_eq_iff_agree,
    shiftOf_eq_iff_agree, agree_and_agree, agree_zero]

/-- The constructor of what a row builds does not depend on the word. -/
theorem ctorIdx_build {r : ArmRow} (hr : r ∈ specialRows ++ generalRows) (c c' : Cond) (w w' : Word) :
    (r.build c w).ctorIdx = (r.build c' w').ctorIdx := by
  revert r
  simp [specialRows, generalRows, branchAndTrapRows, loadRows, storeRows, blockAndSwapRows, coprocessorRows, statusRows,
    dataRows, Instr.ctorIdx]

theorem nodup_ctorIdx_build :
    ((specialRows ++ generalRows).map fun r => (r.build .al 0#32).ctorIdx).Nodup := by decide

/-- Each row builds instructions of a constructor of its own. -/
theorem row_eq_of_build_eq {r r' : ArmRow} (hr : r ∈ specialRows ++ generalRows)
    (hr' : r' ∈ specialRows ++ generalRows) {c c' : Cond} {w w' : Word} (h : r.build c w = r'.build c' w') : r = r' := by
  refine List.inj_on_of_nodup_map nodup_ctorIdx_build hr hr' ?_
  rw [ctorIdx_build hr _ c _ w, h, ctorIdx_build hr']

theorem specialRows_clash : specialRows.Pairwise RowsClash := by
  unfold RowsClash
  decide

theorem ArmRow.hits_iff {r : ArmRow} {w : Word} : r.hits w = true ↔ w &&& r.mask = r.bits := beq_iff_eq

/-- Of rows that clash with each other the search finds the one that takes the word. -/
theorem find?_eq_of_hits {l : List ArmRow} (hl : l.Pairwise RowsClash) {r : ArmRow} {w : Word} (hr : r ∈ l)
    (hw : r.hits w = true) : l.find? (fun r => r.hits w) = some r := by
  obtain ⟨r', hfind⟩ :=
    Option.isSome_iff_exists.mp (List.find?_isSome (p := fun r : ArmRow => r.hits w).mpr ⟨r, hr, hw⟩)
  have hw' := List.find?_some hfind
  by_contra hne
  have hsymm : Std.Symm RowsClash := ⟨fun _ _ => Ne.symm⟩
  have hclash : RowsClash r r' := hl.forall hr (List.mem_of_find?_eq_some hfind) fun heq => hne (heq ▸ hfind)
  exact hclash.not_both w ⟨ArmRow.hits_iff.mp hw, ArmRow.hits_iff.mp hw'⟩

/-! ## What the encoder gives -/

/-- An instruction with a condition is encoded as a word (R71). -/
theorem encode_of_condOf {i : Instr} {c : Cond} (h : condOf i = some c) : ∃ w, encode i = .arm w := by
  cases i <;> cases h <;> exact ⟨_, rfl⟩

/-- Some row takes the word of an instruction and builds the instruction from it. -/
theorem exists_row_of_encode {i : Instr} {w : Word} (h : encode i = .arm w) :
    ∃ r ∈ specialRows ++ generalRows, r.hits w = true ∧
      ∃ c, Cond.ofBits (bitsAt w 28 4) = some c ∧ r.build c w = i := by
  have hi := Laws.Encoding.statement i
  rwa [Laws.Encoding.Statement, h] at hi

theorem condOfBits_eq_some {f : BitVec 4} {c : Cond} : Cond.ofBits f = some c → f = c.bits := by
  cases c <;> revert f <;> decide

/-- What a row builds from a word that it takes is encoded as that word: no bit is dropped. -/
theorem encode_build {r : ArmRow} (hr : r ∈ specialRows ++ generalRows) {c : Cond} {w : Word} (hw : r.hits w = true)
    (hc : Cond.ofBits (bitsAt w 28 4) = some c) : encode (r.build c w) = .arm w := by
  obtain ⟨w', he⟩ := encode_of_condOf (condOf_build hr c w)
  obtain ⟨r', hr', hw', c', hc', hb⟩ := exists_row_of_encode he
  obtain rfl := row_eq_of_build_eq hr' hr hb
  have hcond : c' = c := by simpa [condOf_build hr] using congrArg condOf hb
  have htop : Agree 0xF0000000#32 w' w :=
    bitsAt_eq_iff_agree.mp (show bitsAt w' 28 4 = bitsAt w 28 4 by
      rw [condOfBits_eq_some hc, condOfBits_eq_some hc', hcond])
  have htested : Agree r'.mask w' w := (ArmRow.hits_iff.mp hw').trans (ArmRow.hits_iff.mp hw).symm
  have hall : Agree (r'.mask ||| 0xF0000000#32 ||| r'.fieldMask) w' w :=
    agree_and_agree.mp ⟨agree_and_agree.mp ⟨htested, htop⟩, agree_of_build_eq hr hb⟩
  rw [ArmRow.fieldMask, BitVec.or_not_self] at hall
  rw [he, eq_of_agree_allOnes hall]

/-! ## The two spellings of a word (log 13) -/

/-- The general instruction with the word of one that the source writes out. -/
def Instr.generalSpelling : Instr → Option Instr
  | .movPcR14 c => some (.movReg c 0#4 15#4 14#4)
  | .movsPcR14 c => some (.movsReg c 0#4 15#4 14#4)
  | .subsPcR14Imm4 c => some (.subsImm c 14#4 15#4 0#4 4#8)
  | .subsPcR14Imm8 c => some (.subsImm c 14#4 15#4 0#4 8#8)
  | .ldrRdR14Minus8 c rd => some (.ldrImmPre c false false 14#4 rd 8#12)
  | _ => none

theorem generalSpelling_spec {i g : Instr} (h : i.generalSpelling = some g) :
    encode g = encode i ∧ g.wellFormed = false ∧ g.generalSpelling = none ∧ i.wellFormed = true := by
  cases i <;> cases h <;> exact ⟨rfl, rfl, rfl, rfl⟩

/-- What is not well formed is the general spelling of an instruction that the source writes out. -/
theorem exists_of_not_wellFormed {g : Instr} (h : g.wellFormed = false) : ∃ i : Instr, i.generalSpelling = some g := by
  cases g <;>
    simp only [Instr.wellFormed, spellsMovPcR14, spellsSubsPcR14, spellsLdrR14Minus8, Bool.not_eq_false',
      Bool.and_eq_true, Bool.or_eq_true, Bool.not_eq_true', beq_iff_eq, Bool.true_eq_false] at h
  case movReg c _ _ _ =>
    obtain ⟨⟨rfl, rfl⟩, rfl⟩ := h
    exact ⟨.movPcR14 c, rfl⟩
  case movsReg c _ _ _ =>
    obtain ⟨⟨rfl, rfl⟩, rfl⟩ := h
    exact ⟨.movsPcR14 c, rfl⟩
  case subsImm c _ _ _ _ =>
    obtain ⟨⟨⟨rfl, rfl⟩, rfl⟩, rfl | rfl⟩ := h
    · exact ⟨.subsPcR14Imm4 c, rfl⟩
    · exact ⟨.subsPcR14Imm8 c, rfl⟩
  case ldrImmPre c _ _ _ rd _ =>
    obtain ⟨⟨⟨rfl, rfl⟩, rfl⟩, rfl⟩ := h
    exact ⟨.ldrRdR14Minus8 c rd, rfl⟩

theorem generalSpelling_build_of_special {r : ArmRow} (hr : r ∈ specialRows) (c : Cond) (w : Word) :
    ∃ g, (r.build c w).generalSpelling = some g := by
  revert r
  simp [specialRows, Instr.generalSpelling]

theorem generalSpelling_build_of_general {r : ArmRow} (hr : r ∈ generalRows) (c : Cond) (w : Word) :
    (r.build c w).generalSpelling = none := by
  revert r
  simp [generalRows, branchAndTrapRows, loadRows, storeRows, blockAndSwapRows, coprocessorRows, statusRows, dataRows,
    Instr.generalSpelling]

/-- A general row builds from a word that a special row takes the general spelling, which is not well formed. -/
theorem not_wellFormed_of_special_hits {r r' : ArmRow} (hr : r ∈ generalRows) (hr' : r' ∈ specialRows)
    {c : Cond} {w : Word} (hw : r.hits w = true) (hw' : r'.hits w = true) (hc : Cond.ofBits (bitsAt w 28 4) = some c) :
    (r.build c w).wellFormed = false := by
  obtain ⟨g, hg⟩ := generalSpelling_build_of_special hr' c w
  obtain ⟨henc, hbad, hnone, -⟩ := generalSpelling_spec hg
  have hword : encode g = .arm w := henc.trans (encode_build (List.mem_append_left _ hr') hw' hc)
  obtain ⟨rg, hrg, hwg, cg, hcg, rfl⟩ := exists_row_of_encode hword
  have hrg' : rg ∈ generalRows := (List.mem_append.mp hrg).resolve_left fun hspecial => by
    obtain ⟨x, hx⟩ := generalSpelling_build_of_special hspecial cg w
    rw [hnone] at hx
    cases hx
  obtain rfl : rg = r := Option.some.inj
    ((find?_eq_of_hits generalRows_clash hrg' hwg).symm.trans (find?_eq_of_hits generalRows_clash hr hw))
  obtain rfl : cg = c := Option.some.inj (hcg.symm.trans hc)
  exact hbad

/-! ## The decoder -/

theorem decodeArm_eq_instr_iff {w : Word} {i : Instr} :
    decodeArm w = .instr i ↔ ∃ c r, Cond.ofBits (bitsAt w 28 4) = some c ∧
      (specialRows ++ generalRows).find? (fun r => r.hits w) = some r ∧ r.build c w = i := by
  unfold decodeArm
  split
  · simp [*]
  · split <;> simp [*]

/-- The search finds the row that builds a well-formed instruction. -/
theorem find?_of_wellFormed {r : ArmRow} (hr : r ∈ specialRows ++ generalRows) {c : Cond} {w : Word}
    (hw : r.hits w = true) (hc : Cond.ofBits (bitsAt w 28 4) = some c) (hwf : (r.build c w).wellFormed = true) :
    (specialRows ++ generalRows).find? (fun r => r.hits w) = some r := by
  rw [List.find?_append]
  rcases List.mem_append.mp hr with hspecial | hgeneral
  · rw [find?_eq_of_hits specialRows_clash hspecial hw, Option.some_or]
  · have hnone : specialRows.find? (fun r => r.hits w) = none := List.find?_eq_none.mpr fun r' hr' hw' => by
      rw [not_wellFormed_of_special_hits hgeneral hr' hw hw' hc] at hwf
      cases hwf
    rw [hnone, Option.none_or, find?_eq_of_hits generalRows_clash hgeneral hw]

/-- Settles O1: the row of the instruction's law is the one the search finds; in Thumb state the law is the statement. -/
theorem decodeEncodeGivesInstruction : Obligations.DecodeEncodeGivesInstruction := by
  intro i hwf
  cases he : encode i with
  | thumb h =>
    have hi := Laws.Encoding.statement i
    rwa [Laws.Encoding.Statement, he] at hi
  | arm w =>
    obtain ⟨r, hr, hw, c, hc, rfl⟩ := exists_row_of_encode he
    exact decodeArm_eq_instr_iff.mpr ⟨c, r, hc, find?_of_wellFormed hr hw hc hwf, rfl⟩

/-- An instruction decoded from its own word is well formed: otherwise the word would decode to the other spelling. -/
theorem wellFormed_of_decode_encode {i : Instr} (h : decode (encode i) = .instr i) : i.wellFormed = true := by
  by_contra hbad
  obtain ⟨j, hj⟩ := exists_of_not_wellFormed (Bool.eq_false_iff.mpr hbad)
  obtain ⟨henc, -, -, hwf⟩ := generalSpelling_spec hj
  rw [henc, decodeEncodeGivesInstruction j hwf] at h
  cases h
  exact hbad hwf

theorem encode_of_decodeArm {w : Word} {i : Instr} (h : decodeArm w = .instr i) : encode i = .arm w := by
  obtain ⟨c, r, hc, hfind, rfl⟩ := decodeArm_eq_instr_iff.mp h
  exact encode_build (List.mem_of_find?_eq_some hfind) (List.find?_some (p := fun r : ArmRow => r.hits w) hfind) hc

/-- A Thumb halfword that a mask finds in the SWI format is the format with its lower eight bits. -/
theorem half_eq_of_top8 {h : Half} {k : BitVec 8} (htop : h &&& 0xFF00#16 = (k ++ 0#8 : BitVec 16)) :
    (k ++ bitsAt h 0 8 : BitVec 16) = h := by
  have hsplit : (bitsAt h 8 8 ++ bitsAt h 0 8 : BitVec 16) = h := BitVec.extractLsb'_append_extractLsb' (w := 8)
  rw [← (append_and_top8 _ k _).mp (hsplit.symm ▸ htop), hsplit]

/-- A Thumb halfword that a mask finds in a BL format is the format with its lower eleven bits. -/
theorem half_eq_of_top5 {h : Half} {k : BitVec 5} (htop : h &&& 0xF800#16 = (k ++ 0#11 : BitVec 16)) :
    (k ++ bitsAt h 0 11 : BitVec 16) = h := by
  have hsplit : (bitsAt h 11 5 ++ bitsAt h 0 11 : BitVec 16) = h := BitVec.extractLsb'_append_extractLsb' (w := 5)
  rw [← (append_and_top5 _ k _).mp (hsplit.symm ▸ htop), hsplit]

theorem encode_of_decodeThumb {h : Half} {i : Instr} (hi : decodeThumb h = .instr i) : encode i = .thumb h := by
  unfold decodeThumb at hi
  split at hi
  · rename_i hswi
    cases hi
    exact congrArg Code.thumb (half_eq_of_top8 (k := 0b11011111#8) hswi)
  split at hi
  · rename_i hfirst
    cases hi
    exact congrArg Code.thumb (half_eq_of_top5 (k := 0b11110#5) hfirst)
  split at hi
  · rename_i hsecond
    cases hi
    exact congrArg Code.thumb (half_eq_of_top5 (k := 0b11111#5) hsecond)
  split at hi
  · rename_i hmov
    cases hi
    rw [hmov]
    rfl
  · cases hi

/-- Settles O2: the row that is found builds what encodes back, and what encodes back to its own word is well formed. -/
theorem decodedInstructionEncodesBack : Obligations.DecodedInstructionEncodesBack := by
  intro x i h
  have henc : encode i = x := by
    cases x with
    | arm w => exact encode_of_decodeArm h
    | thumb x => exact encode_of_decodeThumb h
  exact ⟨wellFormed_of_decode_encode (henc ▸ h), henc⟩

end Sys2Proof
end

section
/-! PROOFS. Memory (20_memory.md): only STR, STRB, STM, SWP and SWPB store. -/

namespace Sys2Proof.Machine

/-- Memory and the device record of `t` are those of `s`. -/
structure MemoryKept (s t : State) : Prop where
  mem : t.mem = s.mem
  deviceLog : t.deviceLog = s.deviceLog

theorem MemoryKept.sameMemory {s t : State} (h : MemoryKept s t) : SameMemory s t := sameMemory_of_eq h.mem h.deviceLog

theorem memoryKept_writeReg (s : State) (n : RegNum) (v : Word) : MemoryKept s (s.writeReg n v) := ⟨by simp, by simp⟩

/-! ## The ends of an instruction -/

section
variable {s u t : State} (hu : MemoryKept s u)
include hu

theorem MemoryKept.next (h : (Host.Outcome.next u : Result) = .next t) : MemoryKept s t := next_inj h ▸ hu

theorem MemoryKept.advanceArm : MemoryKept s u.advanceArm := ⟨hu.mem, hu.deviceLog⟩

theorem MemoryKept.setPc {target : Word} (h : setPc target u = .next t) : MemoryKept s t := by
  obtain ⟨-, rfl⟩ := setPc_next.mp h
  exact ⟨hu.mem, hu.deviceLog⟩

theorem MemoryKept.exceptionReturn {target : Word} (h : exceptionReturn target u = .next t) : MemoryKept s t := by
  obtain ⟨_, -, -, -, rfl⟩ := exceptionReturn_next h
  exact ⟨hu.mem, hu.deviceLog⟩

theorem MemoryKept.raise {e : Exc} (h : raise e u = .next t) : MemoryKept s t := by
  obtain rfl := next_inj h
  exact ⟨(takeException_mem ..).trans hu.mem, (takeException_deviceLog ..).trans hu.deviceLog⟩

end

theorem memoryKept_refl (s : State) : MemoryKept s s := ⟨rfl, rfl⟩

theorem memoryKept_whenPassed {c : Cond} {s t : State} {run : Result} (h : whenPassed c s run = .next t)
    (hrun : run = .next t → MemoryKept s t) : MemoryKept s t := by
  rcases whenPassed_next h with ⟨-, h⟩ | ⟨-, rfl⟩
  · exact hrun h
  · exact (memoryKept_refl s).advanceArm

/-! ## The operations -/

theorem memoryKept_finishData {setsFlags : Bool} {rd : RegNum} {result flags : Word} {s t : State}
    (h : finishData setsFlags rd result flags s = .next t) : MemoryKept s t := by
  unfold finishData at h
  split at h
  · split at h
    · exact (memoryKept_refl s).exceptionReturn h
    · exact (memoryKept_refl s).setPc h
  · refine MemoryKept.next ?_ h
    split <;> exact ⟨by simp, by simp⟩

theorem memoryKept_mrsOp {r : Bool} {rd : RegNum} {s t : State} (h : mrsOp r rd s = .next t) : MemoryKept s t := by
  have hwrite : ∀ v, MemoryKept s (s.writeReg rd v).advanceArm := fun v => (memoryKept_writeReg s rd v).advanceArm
  unfold mrsOp at h
  split at h
  · cases h
  split at h
  · split at h
    · cases h
    · exact (hwrite _).next h
  · exact (hwrite _).next h

theorem memoryKept_msrOp {r : Bool} {m : BitVec 4} {v : Word} {s t : State} (h : msrOp r m v s = .next t) :
    MemoryKept s t := by
  unfold msrOp msrSpsr msrCpsr at h
  dsimp only at h
  split at h
  · split at h
    · cases h
    · exact MemoryKept.next ⟨by simp, by simp⟩ h
  · split at h
    · cases h
    split at h
    · cases h
    · exact MemoryKept.next ⟨by simp, by simp⟩ h

theorem memoryKept_coprocOp {c : Cond} {w : Word} {s t : State} (h : coprocOp c w s = .next t) : MemoryKept s t :=
  memoryKept_whenPassed h fun h => by
    split at h
    · cases h
    · exact (memoryKept_refl s).raise h

theorem memoryKept_loadOp {w : Width} {a : Addressing} {rd : RegNum} {s t : State} (h : loadOp w a rd s = .next t) :
    MemoryKept s t := by
  unfold loadOp at h
  split at h
  · cases h
  · rename_i u hu
    obtain ⟨-, -, rfl⟩ := memRead_abort hu
    exact MemoryKept.raise ⟨by simp, by simp⟩ h
  · rename_i v u hu
    obtain ⟨hm, hl, -⟩ := memRead_ok_frame hu
    dsimp only at h
    split at h
    · exact MemoryKept.setPc ⟨by simp [hm], by simp [hl]⟩ h
    · exact MemoryKept.next ⟨by simp [hm], by simp [hl]⟩ h

/-- LDR and LDRB run the load or refuse its operands. -/
theorem memoryKept_of_loadForm {i : Instr} {f : TransferForm} {s t : State} (hf : loadForm i = some f)
    (h : exec i s = .next t) : MemoryKept s t := by
  obtain ⟨-, hldr⟩ | ⟨-, hldrb⟩ := exec_of_loadForm hf s
  · rw [hldr] at h
    refine memoryKept_whenPassed h fun h => ?_
    split at h
    · cases h
    · exact memoryKept_loadOp h
  · rw [hldrb] at h
    refine memoryKept_whenPassed h fun h => ?_
    split at h
    · cases h
    split at h
    · cases h
    · exact memoryKept_loadOp h

theorem memoryKept_loadMultiple {p u b w : Bool} {rn : RegNum} {list : BitVec 16} {s t : State}
    (h : loadMultiple p u b w rn list s = .next t) : MemoryKept s t := by
  unfold loadMultiple at h
  dsimp only at h
  split at h
  · cases h
  · rename_i l x hx
    obtain ⟨-, hm, hl, -⟩ := loadBlock_frame hx
    exact MemoryKept.raise ⟨by simp [hm], by simp [hl]⟩ h
  · rename_i l x hx
    obtain ⟨-, hm, hl, -⟩ := loadBlock_frame hx
    have hloaded : MemoryKept s (writeLoaded (ldmBank b list s.bank) l
        (x.writeBackIf w rn (blockFinalBase u (s.readReg rn) (blockSize list)))) := ⟨by simp [hm], by simp [hl]⟩
    split at h
    · split at h
      · exact hloaded.exceptionReturn h
      · exact hloaded.setPc h
    · exact hloaded.advanceArm.next h

theorem memoryKept_ldm {c : Cond} {p u b w : Bool} {rn : RegNum} {list : BitVec 16} {s t : State}
    (h : execLdm c p u b w rn list s = .next t) : MemoryKept s t :=
  memoryKept_whenPassed h fun h => by
    split at h
    · cases h
    · exact memoryKept_loadMultiple h

/-! ## Every instruction that does not store -/

theorem exec_memoryKept {i : Instr} {s t : State} (hi : ¬ mayStore i) (h : exec i s = .next t) : MemoryKept s t := by
  have hs := memoryKept_refl s
  cases i
  case b => exact memoryKept_whenPassed h hs.setPc
  case bl => exact memoryKept_whenPassed h (memoryKept_writeReg s _ _).setPc
  case swi | udef => exact memoryKept_whenPassed h hs.raise
  case thumbSwi => exact hs.raise h
  case thumbBlFirst => exact MemoryKept.next ⟨by simp, by simp⟩ h
  case thumbBlSecond => exact MemoryKept.setPc ⟨by simp, by simp⟩ h
  case thumbMovPcR14 => exact hs.setPc h
  case mrs => exact memoryKept_whenPassed h memoryKept_mrsOp
  case msrReg =>
    refine memoryKept_whenPassed h fun h => ?_
    split at h
    · cases h
    · exact memoryKept_msrOp h
  case msrImm => exact memoryKept_whenPassed h memoryKept_msrOp
  case ldm => exact memoryKept_ldm h
  case movReg | movsReg | movImm | movsImm | subReg | subsReg | subImm | subsImm | movPcR14 | movsPcR14 |
      subsPcR14Imm4 | subsPcR14Imm8 => exact memoryKept_whenPassed h memoryKept_finishData
  case ldrImmPre | ldrImmPost | ldrRegPre | ldrRegPost | ldrRdR14Minus8 | ldrbImmPre | ldrbImmPost | ldrbRegPre |
      ldrbRegPost => exact memoryKept_of_loadForm rfl h
  case cdp | mrc | mcr | ldc | stc => exact memoryKept_coprocOp h
  case strImmPre | strImmPost | strRegPre | strRegPost | strbImmPre | strbImmPost | strbRegPre | strbRegPost =>
    exact absurd (.inl rfl) hi
  case swp | swpb => exact absurd (.inr (.inl rfl)) hi
  case stm => exact absurd (.inr (.inr ⟨_, _, _, _, _, _, _, rfl⟩)) hi

/-- Settles O51: register, status and pc writes, and the reads of a load, leave memory and the device record. -/
theorem nonStoringInstructionsKeepMemory : Obligations.NonStoringInstructionsKeepMemory :=
  fun _ _ _ hi h => (exec_memoryKept hi h).sameMemory

end Sys2Proof.Machine
end
